-- ==== Sys2Proof/Word.lean ====
section
/-!
DEFINITION. The bit vectors the spec names: the 32-bit register word (20_memory R73), the 48-bit transaction word
(30_encoding R90), the 15-bit word address (20_memory R70) and the 7-bit line index (30_encoding R92).
-/

namespace Sys2Proof

/-- A register or buffer word: 32 bits, moved whole (R73). A binary32 value is held as its encoding (R24). -/
abbrev Word := BitVec 32

/-- One byte cell's contents. Only the buffers' representation uses it (log 9); the block has no byte accesses. -/
abbrev Byte := BitVec 8

/-- A transaction word W, A[14:0], D[31:0] (R90). -/
abbrev Txn := BitVec 48

/-- A word address of the register space (R70). -/
abbrev Addr := BitVec 15

/-- The line index field of a line-region address (R92). -/
abbrev LineIx := BitVec 7

/-- `u32(n)`: the 32-bit unsigned word of n (R23). -/
abbrev u32 (n : Nat) : Word := BitVec.ofNat 32 n

end Sys2Proof
end

