-- ==== Sys2Proof/Machine/Float.lean ====
section
/-!
DEFINITION. binary32 arithmetic (00_scope R21 to R26). Every finite binary32 value is a whole number of units of
2^−149, so each operation is computed exactly on integers or on a quotient of naturals and narrowed once, at the end,
by `roundMag`: round to nearest, ties to even. Subnormals are kept, and every NaN result is the default NaN (R25).
IEEE 754's own semantics are general knowledge in the spec too (R25; log 1).
-/

namespace Sys2Proof.Machine.F32

/-! ### The encoding (20_memory R73) -/

/-- Bit 31, the sign. -/
def sign (w : Word) : Bool := w.msb

/-- Bits 30:23, the biased exponent. -/
def exponent (w : Word) : Nat := w.toNat / 2 ^ 23 % 2 ^ 8

/-- Bits 22:0, the fraction. -/
def fraction (w : Word) : Nat := w.toNat % 2 ^ 23

/-- Bits 30:0 as a number; among values that are not NaN it grows with the magnitude. -/
def magnitude (w : Word) : Nat := w.toNat % 2 ^ 31

/-- The largest biased exponent, of the infinities and the NaNs. -/
def maxExponent : Nat := 255

/-- The magnitude bits of ±Inf. -/
def infMagnitude : Nat := 0x7F800000

/-- The default NaN (R25). -/
def defaultNaN : Word := 0x7FC00000#32

/-- `isNaN(v)` (R24). -/
def isNaN (w : Word) : Bool := exponent w = maxExponent && fraction w ≠ 0

/-- v is +Inf or −Inf. -/
def isInf (w : Word) : Bool := exponent w = maxExponent && fraction w = 0

/-- `isFinite(v)` (R24): v is neither NaN nor ±Inf. -/
def isFinite (w : Word) : Bool := exponent w ≠ maxExponent

/-- v is +0 or −0. -/
def isZero (w : Word) : Bool := magnitude w = 0

/-- |v| in units of 2^−149, exactly, for finite v: fraction when the exponent is 0 (subnormals), else
(2^23 + fraction) × 2^(exponent − 1). The same formula puts ±Inf above every finite magnitude. -/
def units (w : Word) : Nat :=
  if exponent w = 0 then fraction w else (2 ^ 23 + fraction w) * 2 ^ (exponent w - 1)

/-- v in units of 2^−149, exactly, for finite v; the order of the keys is the order of all values but NaN. -/
def key (w : Word) : Int := if sign w then -(units w : Int) else (units w : Int)

/-- The word with the given sign bit and magnitude bits. -/
def pack (negative : Bool) (mag : Nat) : Word := BitVec.ofNat 32 (if negative then 2 ^ 31 + mag else mag)

/-! ### Rounding (R21, R25) -/

/-- The magnitude bits of num / den units of 2^−149 rounded to nearest, ties to even, for den > 0; what rounds past
the largest finite magnitude is Inf. The quotient is cut at the 24-bit significand (`shift` bits below it are
dropped), so the value is `shift` · 2^23 + significand as magnitude bits. -/
def roundMag (num den : Nat) : Nat :=
  let shift := (num / den).log2 - 23
  let unit := den * 2 ^ shift
  let kept := num / unit
  let rest := num % unit
  let significand := if 2 * rest > unit ∨ (2 * rest = unit ∧ kept % 2 = 1) then kept + 1 else kept
  min (shift * 2 ^ 23 + significand) infMagnitude

/-- ±(num / den) units of 2^−149, rounded. -/
def round (negative : Bool) (num den : Nat) : Word := pack negative (roundMag num den)

/-! ### The operations (R21) -/

/-- −v: the sign bit inverted. -/
def neg (w : Word) : Word := w ^^^ 0x80000000#32

/-- `fadd(a, b)`. An exact zero sum is −0 only of two negative zeros. -/
def add (a b : Word) : Word :=
  if isNaN a || isNaN b then defaultNaN
  else if isInf a then (if isInf b && sign a != sign b then defaultNaN else a)
  else if isInf b then b
  else
    let sum := key a + key b
    if sum = 0 then pack (sign a && sign b) 0 else round (sum < 0) sum.natAbs 1

/-- `fsub(a, b)`: IEEE 754's a − b is a + (−b). -/
def sub (a b : Word) : Word := add a (neg b)

/-- `fmul(a, b)`. -/
def mul (a b : Word) : Word :=
  let negative := sign a != sign b
  if isNaN a || isNaN b then defaultNaN
  else if (isInf a && isZero b) || (isZero a && isInf b) then defaultNaN
  else if isInf a || isInf b then pack negative infMagnitude
  else round negative (units a * units b) (2 ^ 149)

/-- `fdiv(a, b)`. -/
def div (a b : Word) : Word :=
  let negative := sign a != sign b
  if isNaN a || isNaN b then defaultNaN
  else if (isInf a && isInf b) || (isZero a && isZero b) then defaultNaN
  else if isInf a || isZero b then pack negative infMagnitude
  else if isInf b then pack negative 0
  else round negative (units a * 2 ^ 149) (units b)

/-! ### Comparisons (R21): ordered, false of a NaN, and −0 equals +0 -/

/-- a < b. -/
def lt (a b : Word) : Bool := !isNaN a && !isNaN b && decide (key a < key b)

/-- a ≤ b. -/
def le (a b : Word) : Bool := !isNaN a && !isNaN b && decide (key a ≤ key b)

/-- a > b. -/
def gt (a b : Word) : Bool := lt b a

/-- a ≥ b. -/
def ge (a b : Word) : Bool := le b a

/-- a = b as numbers. -/
def numEq (a b : Word) : Bool := !isNaN a && !isNaN b && decide (key a = key b)

/-- `clamp(x, lo, hi)`, the one clamp of the spec (R22). -/
def clamp (x lo hi : Word) : Word := if gt x lo then (if lt x hi then x else hi) else lo

/-! ### Integers (R23) -/

/-- `floor(x)` of a finite x, exactly. -/
def floor (x : Word) : Int := key x / 2 ^ 149

/-- `rnd(x)` of a finite x ≥ 0: floor(x + 1/2) in exact arithmetic, round half up. -/
def rnd (x : Word) : Int := (key x + 2 ^ 148) / 2 ^ 149

/-- `f32(n)`: exact for |n| ≤ 2^24. -/
def ofInt (n : Int) : Word := round (n < 0) (n.natAbs * 2 ^ 149) 1

/-- The binary32 value nearest to ±(num / den), ties to even: the decimal literals of R107. -/
def nearest (negative : Bool) (num den : Nat) : Word := round negative (num * 2 ^ 149) den

/-! ### Constants -/

/-- +0.0 -/
def zero : Word := 0x00000000#32

/-- 1.0 -/
def one : Word := 0x3F800000#32

/-- −1.0 -/
def minusOne : Word := 0xBF800000#32

/-- 0.5 -/
def half : Word := 0x3F000000#32

/-- TWO_PI (R26). -/
def twoPi : Word := 0x40C90FDB#32

end Sys2Proof.Machine.F32
end

