-- ==== Sys2Proof/Config.lean ====
section
/-!
DEFINITION. The implementation parameters FS, N, C_d, MAXD_d and SIN (00_scope R10 to R14), which the spec leaves to
the implementation. Each is an opaque constant WITHOUT a body, so nothing can be proved of its value; the four
numbers are mapped onto exactly the values their rules admit, so that what is proved holds for every admissible
configuration and for no other (log 3). SIN's raw constant is made to satisfy S1 to S3 in Machine/Oscillator.lean.
-/

namespace Sys2Proof

/-- The constants of one delay line: its capacity C_d in samples (R12) and lineMaxDelay(d) in seconds, binary32
(R13). -/
structure LineConfig where
  cap  : Nat
  maxd : Word
  deriving DecidableEq, Repr

/-- The configuration that is plain data: the sample rate FS (R10) and, for each line, its constants. N is the
number of lines (R11). -/
structure Config where
  fs    : Word
  lines : List LineConfig
  deriving DecidableEq, Repr

/-- R12 and R13: 2 ≤ C_d ≤ 2^24, and MAXD_d positive and finite (the encodings 0x00000001 to 0x7F7FFFFF). -/
abbrev LineConfig.wf (c : LineConfig) : Prop :=
  2 ≤ c.cap ∧ c.cap ≤ 2 ^ 24 ∧ 0x00000001 ≤ c.maxd.toNat ∧ c.maxd.toNat ≤ 0x7F7FFFFF

/-- R10 and R11: FS positive, finite and normal (the encodings 0x00800000 to 0x7F7FFFFF), and 1 ≤ N ≤ 128. -/
abbrev Config.wf (c : Config) : Prop :=
  0x00800000 ≤ c.fs.toNat ∧ c.fs.toNat ≤ 0x7F7FFFFF ∧
  1 ≤ c.lines.length ∧ c.lines.length ≤ 128 ∧ ∀ l ∈ c.lines, l.wf

/-- Which admissible sample rate this implementation has (R10). -/
opaque Config.fsPick : Nat

/-- Which admissible number of lines this implementation has (R11). -/
opaque Config.linesPick : Nat

/-- Which admissible capacity line d has (R12). -/
opaque Config.capPick : Nat → Nat

/-- Which admissible maximum delay line d has (R13). -/
opaque Config.maxdPick : Nat → Nat

/-- The implementation's sine before S1 to S3 are imposed on it (R14; `Machine.sinOf`). -/
opaque Config.sinRaw : Word → Word

/-- The constants of line d that this implementation has: every pair admitted by R12 and R13 is the value for some
pick. -/
def Config.machineLine (d : Nat) : LineConfig :=
  { cap := 2 + Config.capPick d % (2 ^ 24 - 1),
    maxd := BitVec.ofNat 32 (1 + Config.maxdPick d % 0x7F7FFFFF) }

/-- The configuration of this implementation: every configuration admitted by R10 to R13 is the value for some
pick. Line 0 always exists (R11), and up to 127 lines follow it. -/
def Config.machine : Config :=
  { fs := BitVec.ofNat 32 (0x00800000 + Config.fsPick % 0x7F000000),
    lines := Config.machineLine 0 ::
      (List.range (Config.linesPick % 128)).map (fun d => Config.machineLine (d + 1)) }

end Sys2Proof
end

