-- ==== Sys2Proof/Machine/State.lean ====
section
/-!
DEFINITION. The state of the block (10_state): every register of R33 to R51, the delay buffers of R52, the pin
`rst`, the configuration constants that FS, NLINES, CAP and MAXD reflect (R55, log 4), and the model's two host-side
lists (log 5, log 6). Plain data throughout.
-/

namespace Sys2Proof.Machine

/-- ROUTE codes 0, 1, 2 (R45, R97). Code 3 is reserved and never held. -/
inductive Route where
  | left
  | right
  | center
  deriving DecidableEq, Repr

/-- INTERP codes 0, 1, 2 (R45, R97). Code 3 is reserved and never held. -/
inductive Interp where
  | round
  | linear
  | allpass
  deriving DecidableEq, Repr

/-- The contents of a CFG or CFG_STG register. Its reserved bits read 0 and ignore writes and code 3 is never held,
so these two codes are all the register holds (R45; log 11). -/
structure CfgFields where
  route  : Route
  interp : Interp
  deriving DecidableEq, Repr

/-- A delay buffer B_d (R52) as byte cells: word j occupies the byte keys 4 j to 4 j + 3, low byte first (log 9).
An unlisted key reads as 0, the reset contents (R57). The one canonical form is `Buffer.wf` in Machine/Ops.lean. -/
abbrev Buffer := List Host.Cell

/-- The registers, the constants and the buffer of one delay line (R44 to R52). -/
structure Line where
  /-- C_d, the constant CAP reflects (R12, R51); no operation writes it -/
  cap      : Nat
  /-- MAXD_d, the constant MAXD reflects (R13, R51); no operation writes it -/
  maxd     : Word
  /-- BASE_STG (R44) -/
  baseStg  : Word
  /-- DEPTH_STG (R44) -/
  depthStg : Word
  /-- FREQ_STG (R44) -/
  freqStg  : Word
  /-- FB_STG (R44) -/
  fbStg    : Word
  /-- LEVEL_STG (R44) -/
  levelStg : Word
  /-- CFG_STG (R45) -/
  cfgStg   : CfgFields
  /-- BASE (R46) -/
  base     : Word
  /-- DEPTH (R46) -/
  depth    : Word
  /-- FREQ (R46) -/
  freq     : Word
  /-- FB (R46) -/
  fb       : Word
  /-- LEVEL (R46) -/
  level    : Word
  /-- CFG (R46) -/
  cfg      : CfgFields
  /-- PHASE (R47) -/
  phase    : Word
  /-- WPTR (R48) -/
  wptr     : Nat
  /-- DELAY (R49) -/
  delay    : Word
  /-- LASTRD (R50) -/
  lastrd   : Word
  /-- the delay buffer B_d (R52) -/
  buf      : Buffer
  deriving DecidableEq, Repr

/-- What the host can do to the block between transactions: issue one transaction (R80), or drive the reset input
`rst` to a level (R330). -/
inductive BusEvent where
  | transaction (t : Txn)
  | rst (level : Bool)
  deriving DecidableEq, Repr

/-- The whole state (R56). -/
structure State where
  /-- FS, a constant of the configuration (R37, R55); no operation writes it -/
  fs       : Word
  /-- the level of the reset input (R330) -/
  rst      : Bool
  /-- the model's own: the bus events still to come, oldest first (log 5) -/
  inputs   : List BusEvent
  /-- the model's own: the words the reads returned, oldest first (R186; log 6) -/
  returned : List Word
  /-- STATUS (R35, R98) -/
  status   : Word
  /-- ERRADDR (R36, R98) -/
  errAddr  : Word
  /-- FRAMES (R39) -/
  frames   : BitVec 32
  /-- IN_L (R40) -/
  inL      : Word
  /-- IN_R (R40) -/
  inR      : Word
  /-- OUT_L (R41) -/
  outL     : Word
  /-- OUT_R (R41) -/
  outR     : Word
  /-- MIX_STG (R42) -/
  mixStg   : Word
  /-- MIX (R43) -/
  mix      : Word
  /-- the lines 0 to N − 1 (R30); NLINES reflects the length of this list (R38) -/
  lines    : List Line
  deriving DecidableEq, Repr

/-- No fault exists: no transaction of the block traps, stalls, hangs or stops it (R300). Safe: nothing is stopped
that the spec lets go on. -/
inductive Fault where
  deriving DecidableEq, Repr

/-- Why the model has no transition. -/
inductive Refusal where
  /-- An instruction with no meaning yet. Raised by no arm of `exec`: every instruction has its meaning. Safe. -/
  | notModelled (mnemonic : String)
  /-- Raised by `step` when the host issues a transaction while `rst` is asserted, which R330 puts outside the model
  ("a model has no transition for it", 93 section 2; log 7). Safe: the model stops where the spec says nothing. -/
  | transactionDuringReset
  deriving DecidableEq, Repr

/-- The reset state of one line (R57). The two constants stay (R330). -/
def Line.atReset (c : LineConfig) : Line :=
  { cap := c.cap, maxd := c.maxd,
    baseStg := 0x00000000#32, depthStg := 0x00000000#32, freqStg := 0x00000000#32, fbStg := 0x00000000#32,
    levelStg := 0x00000000#32, cfgStg := { route := .left, interp := .round },
    base := 0x00000000#32, depth := 0x00000000#32, freq := 0x00000000#32, fb := 0x00000000#32,
    level := 0x00000000#32, cfg := { route := .left, interp := .round },
    phase := 0x00000000#32, wptr := 0, delay := 0x00000000#32, lastrd := 0x00000000#32, buf := [] }

/-- The reset state of a block with configuration c (R57, R331), with nothing yet delivered by the host. -/
def State.atReset (c : Config) : State :=
  { fs := c.fs, rst := false, inputs := [], returned := [],
    status := 0x00000000#32, errAddr := 0x00000000#32, frames := 0x00000000#32,
    inL := 0x00000000#32, inR := 0x00000000#32, outL := 0x00000000#32, outR := 0x00000000#32,
    mixStg := 0x00000000#32, mix := 0x00000000#32, lines := c.lines.map Line.atReset }

/-- The block right after power-on reset (R57, R330), for the configuration of this implementation (log 3). -/
def State.reset : State := State.atReset Config.machine

/-- The constants of a line, as the configuration gives them. -/
def Line.config (l : Line) : LineConfig := { cap := l.cap, maxd := l.maxd }

/-- The configuration of a block (R55). -/
def State.config (s : State) : Config := { fs := s.fs, lines := s.lines.map Line.config }

end Sys2Proof.Machine
end

