-- ==== Sys2Proof/Syntax.lean ====
section
/-!
DEFINITION. The instructions of the block, which are its bus transactions (30_encoding R90 and section 4): one
constructor for each row of spec/opcode_table.json, and the four error kinds a transaction word can have instead
(60_exceptions R301).
-/

namespace Sys2Proof

/-- One constructor for each row of spec/opcode_table.json. A read carries no D and a command carries no D[31:4],
because those bits are ignored (R105, R104). `line` is the field d of R92. -/
inductive Instr where
  /-- NOP (R182) -/
  | nop
  /-- STEP (R181) -/
  | step
  /-- COMMIT (R183) -/
  | commit
  /-- RESET (R184) -/
  | reset
  /-- RD.CMD (R121) -/
  | rdCmd
  /-- RD.STATUS (R122) -/
  | rdStatus
  /-- WR.STATUS (R123) -/
  | wrStatus (data : Word)
  /-- RD.ERRADDR (R124) -/
  | rdErraddr
  /-- RD.FS (R125) -/
  | rdFs
  /-- RD.NLINES (R126) -/
  | rdNlines
  /-- RD.FRAMES (R127) -/
  | rdFrames
  /-- WR.IN_L (R128) -/
  | wrInL (data : Word)
  /-- RD.IN_L (R129) -/
  | rdInL
  /-- WR.IN_R (R130) -/
  | wrInR (data : Word)
  /-- RD.IN_R (R131) -/
  | rdInR
  /-- RD.OUT_L (R132) -/
  | rdOutL
  /-- RD.OUT_R (R133) -/
  | rdOutR
  /-- WR.MIX_STG (R134) -/
  | wrMixStg (data : Word)
  /-- RD.MIX_STG (R135) -/
  | rdMixStg
  /-- RD.MIX (R136) -/
  | rdMix
  /-- WR.BASE_STG (R137) -/
  | wrBaseStg (line : LineIx) (data : Word)
  /-- WR.DEPTH_STG (R138) -/
  | wrDepthStg (line : LineIx) (data : Word)
  /-- WR.FREQ_STG (R139) -/
  | wrFreqStg (line : LineIx) (data : Word)
  /-- WR.FB_STG (R140) -/
  | wrFbStg (line : LineIx) (data : Word)
  /-- WR.LEVEL_STG (R141) -/
  | wrLevelStg (line : LineIx) (data : Word)
  /-- WR.CFG_STG (R142) -/
  | wrCfgStg (line : LineIx) (data : Word)
  /-- RD.BASE_STG (R143) -/
  | rdBaseStg (line : LineIx)
  /-- RD.DEPTH_STG (R144) -/
  | rdDepthStg (line : LineIx)
  /-- RD.FREQ_STG (R145) -/
  | rdFreqStg (line : LineIx)
  /-- RD.FB_STG (R146) -/
  | rdFbStg (line : LineIx)
  /-- RD.LEVEL_STG (R147) -/
  | rdLevelStg (line : LineIx)
  /-- RD.CFG_STG (R148) -/
  | rdCfgStg (line : LineIx)
  /-- RD.BASE (R149) -/
  | rdBase (line : LineIx)
  /-- RD.DEPTH (R150) -/
  | rdDepth (line : LineIx)
  /-- RD.FREQ (R151) -/
  | rdFreq (line : LineIx)
  /-- RD.FB (R152) -/
  | rdFb (line : LineIx)
  /-- RD.LEVEL (R153) -/
  | rdLevel (line : LineIx)
  /-- RD.CFG (R154) -/
  | rdCfg (line : LineIx)
  /-- RD.PHASE (R155) -/
  | rdPhase (line : LineIx)
  /-- RD.WPTR (R156) -/
  | rdWptr (line : LineIx)
  /-- RD.DELAY (R157) -/
  | rdDelay (line : LineIx)
  /-- RD.LASTRD (R158) -/
  | rdLastrd (line : LineIx)
  /-- RD.CAP (R159) -/
  | rdCap (line : LineIx)
  /-- RD.MAXD (R160) -/
  | rdMaxd (line : LineIx)
  deriving DecidableEq, Repr

/-- The four decode errors of R301; `NONFIN` is no decode error (R305, R307). -/
inductive ErrorKind where
  /-- a reserved command opcode was written to CMD (R302) -/
  | ecmd
  /-- an unmapped address was accessed (R303) -/
  | eaddr
  /-- a reserved field code was written to CFG_STG (R304) -/
  | efield
  /-- a mapped read-only register was written (R306) -/
  | ero
  deriving DecidableEq, Repr

/-- What a transaction word decodes to: one operation or one error, never both and never neither (R99). -/
inductive Decoded where
  | op (i : Instr)
  | error (k : ErrorKind)
  deriving DecidableEq, Repr

end Sys2Proof
end

