-- ==== Sys2Proof/Machine/Flags.lean ====
section
/-!
DEFINITION. The bits of STATUS (10_state R35, 30_encoding R98) and the layout of ERRADDR (R36). The block has no
arithmetic flags (R32); these are its only flags.
-/

namespace Sys2Proof.Machine

/-- `bit(K)` of R301: the STATUS bit of a decode error. -/
def errorBit : ErrorKind → Nat
  | .ecmd => 0
  | .eaddr => 1
  | .efield => 2
  | .ero => 3

/-- The STATUS bit NONFIN (R35). -/
def nonfinBit : Nat := 4

/-- The STATUS bit PEND (R35). -/
def pendBit : Nat := 8

/-- The bits of STATUS that hold state; the others are reserved, read as 0 and ignore writes (R35). -/
def statusMask : Word := 0x0000011F#32

/-- The sticky bits 4:0, which a write of 1 clears (R35). -/
def stickyMask : Word := 0x0000001F#32

/-- The decode-error bits 3:0 (R301). -/
def decodeErrorMask : Word := 0x0000000F#32

/-- The word with bit b alone set. -/
def bitWord (b : Nat) : Word := 1#32 <<< b

/-- STATUS[b] ← 1. -/
def setStatusBit (b : Nat) (status : Word) : Word := status ||| bitWord b

/-- STATUS[b] ← 0. -/
def clearStatusBit (b : Nat) (status : Word) : Word := status &&& ~~~(bitWord b)

/-- WR.STATUS: `for b in 0..4: if D[b] = 1 then STATUS[b] <- 0`; D[31:5] is ignored (R123). -/
def clearSticky (status data : Word) : Word := status &&& ~~~(data &&& stickyMask)

/-- STATUS[3:0] = 0: no decode error is recorded (R301). -/
def noDecodeError (status : Word) : Bool := status &&& decodeErrorMask == 0#32

/-- The word a read of STATUS returns: {23'b0, PEND, 3'b0, NONFIN, ERO, EFIELD, EADDR, ECMD} (R98, R122). -/
def statusWord (status : Word) : Word :=
  0#23 ++ BitVec.ofBool (status.getLsbD pendBit) ++ 0#3 ++ BitVec.ofBool (status.getLsbD nonfinBit) ++
    BitVec.ofBool (status.getLsbD (errorBit .ero)) ++ BitVec.ofBool (status.getLsbD (errorBit .efield)) ++
    BitVec.ofBool (status.getLsbD (errorBit .eaddr)) ++ BitVec.ofBool (status.getLsbD (errorBit .ecmd))

/-- The ERRADDR word of a transaction: {W, 16'b0, A[14:0]} (R36, R98). -/
def errAddrWord (write : Bool) (a : Addr) : Word := BitVec.ofBool write ++ 0#16 ++ a

/-- The output pin `err`: STATUS[4:0] ≠ 0 (R310). -/
def errOutput (s : State) : Bool := s.status &&& stickyMask != 0#32

end Sys2Proof.Machine
end

