-- ==== Sys2Proof/WellFormed.lean ====
section
/-!
DEFINITION. Which instructions pass the decoder's checks on a block of n lines (30_encoding R99): the line index of
a line operation is below n (R92), and the data of WR.CFG_STG holds no reserved code (R97, R103).
-/

namespace Sys2Proof

/-- The line index field of a line operation; none for a global operation. -/
def Instr.line? : Instr → Option LineIx
  | .nop | .step | .commit | .reset => none
  | .rdCmd | .rdStatus | .wrStatus _ | .rdErraddr | .rdFs | .rdNlines | .rdFrames => none
  | .wrInL _ | .rdInL | .wrInR _ | .rdInR | .rdOutL | .rdOutR => none
  | .wrMixStg _ | .rdMixStg | .rdMix => none
  | .wrBaseStg d _ | .wrDepthStg d _ | .wrFreqStg d _ | .wrFbStg d _ | .wrLevelStg d _ | .wrCfgStg d _ => some d
  | .rdBaseStg d | .rdDepthStg d | .rdFreqStg d | .rdFbStg d | .rdLevelStg d | .rdCfgStg d => some d
  | .rdBase d | .rdDepth d | .rdFreq d | .rdFb d | .rdLevel d | .rdCfg d => some d
  | .rdPhase d | .rdWptr d | .rdDelay d | .rdLastrd d | .rdCap d | .rdMaxd d => some d

/-- R92: the line index names one of the block's n lines. -/
def Instr.lineOk (n : Nat) (i : Instr) : Bool :=
  match i.line? with
  | none => true
  | some d => d.toNat < n

/-- R97: data for CFG_STG whose ROUTE field (bits 1:0) and INTERP field (bits 5:4) are both below 3. -/
def cfgDataLegal (data : Word) : Bool :=
  (data.extractLsb' 0 2).toNat < 3 && (data.extractLsb' 4 2).toNat < 3

/-- R103: the data of WR.CFG_STG holds no reserved code. -/
def Instr.dataOk : Instr → Bool
  | .wrCfgStg _ data => cfgDataLegal data
  | .nop | .step | .commit | .reset => true
  | .rdCmd | .rdStatus | .wrStatus _ | .rdErraddr | .rdFs | .rdNlines | .rdFrames => true
  | .wrInL _ | .rdInL | .wrInR _ | .rdInR | .rdOutL | .rdOutR => true
  | .wrMixStg _ | .rdMixStg | .rdMix => true
  | .wrBaseStg _ _ | .wrDepthStg _ _ | .wrFreqStg _ _ | .wrFbStg _ _ | .wrLevelStg _ _ => true
  | .rdBaseStg _ | .rdDepthStg _ | .rdFreqStg _ | .rdFbStg _ | .rdLevelStg _ | .rdCfgStg _ => true
  | .rdBase _ | .rdDepth _ | .rdFreq _ | .rdFb _ | .rdLevel _ | .rdCfg _ => true
  | .rdPhase _ | .rdWptr _ | .rdDelay _ | .rdLastrd _ | .rdCap _ | .rdMaxd _ => true

/-- The instruction passes every check of R99 on a block of n lines. -/
def Instr.wf (n : Nat) (i : Instr) : Bool := i.lineOk n && i.dataOk

end Sys2Proof
end

