-- ==== Sys2Proof/Decode.lean ====
section
/-!
DEFINITION. The decoder of 30_encoding R99, total on every 48-bit word: one operation or one of the four errors; and
after it the encoder, written from the tables of R90 to R94 and of section 4. Fields are pulled out here and nowhere
else.
-/

namespace Sys2Proof

/-! ### Fields of a transaction word (R90, R92, R95) -/

/-- W, bit 47: the transaction is a write (R90). -/
def txnWrite (t : Txn) : Bool := t.getLsbD 47

/-- A, bits 46:32 (R90). -/
def txnAddr (t : Txn) : Addr := t.extractLsb' 32 15

/-- D, bits 31:0 (R90). -/
def txnData (t : Txn) : Word := t.extractLsb' 0 32

/-- A[14:12], the region (R91). -/
def addrRegion (a : Addr) : Nat := (a.extractLsb' 12 3).toNat

/-- A[11:0], the global register index (R93). -/
def addrIndex (a : Addr) : Nat := (a.extractLsb' 0 12).toNat

/-- A[11:5], the line index d (R92). -/
def addrLine (a : Addr) : LineIx := a.extractLsb' 5 7

/-- A[4:0], the register offset in the line (R92). -/
def addrOffset (a : Addr) : Nat := (a.extractLsb' 0 5).toNat

/-- D[3:0] of a CMD write (R96). -/
def dataOpcode (data : Word) : Nat := (data.extractLsb' 0 4).toNat

/-- ROUTE, D[1:0] of a CFG_STG write (R97). -/
def dataRoute (data : Word) : Nat := (data.extractLsb' 0 2).toNat

/-- INTERP, D[5:4] of a CFG_STG write (R97). -/
def dataInterp (data : Word) : Nat := (data.extractLsb' 4 2).toNat

/-! ### The decoder (R99) -/

/-- A write to CMD: the command D[3:0], or ECMD for 4 to 15 (R96, R102). -/
def decodeCommand (data : Word) : Decoded :=
  match dataOpcode data with
  | 0x0 => .op .nop
  | 0x1 => .op .step
  | 0x2 => .op .commit
  | 0x3 => .op .reset
  | _ => .error .ecmd

/-- A read in the global region, by index (R93, R100). -/
def decodeGlobalRead (index : Nat) : Decoded :=
  match index with
  | 0x000 => .op .rdCmd
  | 0x001 => .op .rdStatus
  | 0x002 => .op .rdErraddr
  | 0x003 => .op .rdFs
  | 0x004 => .op .rdNlines
  | 0x005 => .op .rdFrames
  | 0x006 => .op .rdInL
  | 0x007 => .op .rdInR
  | 0x008 => .op .rdOutL
  | 0x009 => .op .rdOutR
  | 0x00A => .op .rdMixStg
  | 0x00B => .op .rdMix
  | _ => .error .eaddr

/-- A write in the global region, by index; a read-only register is ERO (R93, R100, R101). -/
def decodeGlobalWrite (index : Nat) (data : Word) : Decoded :=
  match index with
  | 0x000 => decodeCommand data
  | 0x001 => .op (.wrStatus data)
  | 0x002 => .error .ero
  | 0x003 => .error .ero
  | 0x004 => .error .ero
  | 0x005 => .error .ero
  | 0x006 => .op (.wrInL data)
  | 0x007 => .op (.wrInR data)
  | 0x008 => .error .ero
  | 0x009 => .error .ero
  | 0x00A => .op (.wrMixStg data)
  | 0x00B => .error .ero
  | _ => .error .eaddr

/-- A read of register offset `off` of line d < n (R94, R100). -/
def decodeLineRead (d : LineIx) (off : Nat) : Decoded :=
  match off with
  | 0x00 => .op (.rdBaseStg d)
  | 0x01 => .op (.rdDepthStg d)
  | 0x02 => .op (.rdFreqStg d)
  | 0x03 => .op (.rdFbStg d)
  | 0x04 => .op (.rdLevelStg d)
  | 0x05 => .op (.rdCfgStg d)
  | 0x08 => .op (.rdBase d)
  | 0x09 => .op (.rdDepth d)
  | 0x0A => .op (.rdFreq d)
  | 0x0B => .op (.rdFb d)
  | 0x0C => .op (.rdLevel d)
  | 0x0D => .op (.rdCfg d)
  | 0x10 => .op (.rdPhase d)
  | 0x11 => .op (.rdWptr d)
  | 0x12 => .op (.rdDelay d)
  | 0x13 => .op (.rdLastrd d)
  | 0x14 => .op (.rdCap d)
  | 0x15 => .op (.rdMaxd d)
  | _ => .error .eaddr

/-- A write of CFG_STG, or EFIELD for a reserved code (R97, R103). -/
def decodeCfgWrite (d : LineIx) (data : Word) : Decoded :=
  if dataRoute data = 3 ∨ dataInterp data = 3 then .error .efield else .op (.wrCfgStg d data)

/-- A write of register offset `off` of line d < n; the offsets 0x08 to 0x0D and 0x10 to 0x15 are read-only (R94,
R100, R101). -/
def decodeLineWrite (d : LineIx) (off : Nat) (data : Word) : Decoded :=
  match off with
  | 0x00 => .op (.wrBaseStg d data)
  | 0x01 => .op (.wrDepthStg d data)
  | 0x02 => .op (.wrFreqStg d data)
  | 0x03 => .op (.wrFbStg d data)
  | 0x04 => .op (.wrLevelStg d data)
  | 0x05 => decodeCfgWrite d data
  | 0x08 => .error .ero
  | 0x09 => .error .ero
  | 0x0A => .error .ero
  | 0x0B => .error .ero
  | 0x0C => .error .ero
  | 0x0D => .error .ero
  | 0x10 => .error .ero
  | 0x11 => .error .ero
  | 0x12 => .error .ero
  | 0x13 => .error .ero
  | 0x14 => .error .ero
  | 0x15 => .error .ero
  | _ => .error .eaddr

/-- The decoder of a block of n lines (R99). Regions 2 to 7 are unmapped (R91) and so is every line d ≥ n (R92). -/
def decode (n : Nat) (t : Txn) : Decoded :=
  let a := txnAddr t
  match addrRegion a with
  | 0 => if txnWrite t then decodeGlobalWrite (addrIndex a) (txnData t) else decodeGlobalRead (addrIndex a)
  | 1 =>
    if n ≤ (addrLine a).toNat then .error .eaddr
    else if txnWrite t then decodeLineWrite (addrLine a) (addrOffset a) (txnData t)
    else decodeLineRead (addrLine a) (addrOffset a)
  | _ => .error .eaddr

/-- The number of lines the opcode table's rows admit: every 7-bit line index (R11, R92). -/
def tableLines : Nat := 128

/-- The transaction word of an instruction given as a number, bit 0 its least significant bit; bits from `nbits` on
are 0. The block has one length, 48 bits (R90). -/
def tableTxn (nbits w : Nat) : Txn := BitVec.ofNat 48 (w % 2 ^ nbits)

/-- What the decoder reads from the table's word w: the d < N check of R99 is left at its widest, N = 128, because
the table leaves d free. -/
def decodeTableWord (nbits w : Nat) : Option Instr :=
  match decode tableLines (tableTxn nbits w) with
  | .op i => some i
  | .error _ => none

/-! ### The encoder (R90 to R94, section 4) -/

/-- The word W, A, D (R90). -/
def packTxn (write : Bool) (a : Addr) (data : Word) : Txn := (BitVec.ofBool write ++ a) ++ data

/-- The address of global register `index`: region 0 (R91, R93). -/
def globalAddr (index : BitVec 12) : Addr := 0#3 ++ index

/-- The address 0x1000 + 32 × d + off of register `off` of line d: region 1 (R92). -/
def lineAddr (d : LineIx) (off : BitVec 5) : Addr := (1#3 ++ d) ++ off

/-- A read of global register `index`, its ignored D written 0 (R105). -/
def encodeGlobalRead (index : BitVec 12) : Txn := packTxn false (globalAddr index) 0#32

/-- A write of D to global register `index`. -/
def encodeGlobalWrite (index : BitVec 12) (data : Word) : Txn := packTxn true (globalAddr index) data

/-- A read of register `off` of line d, its ignored D written 0 (R105). -/
def encodeLineRead (d : LineIx) (off : BitVec 5) : Txn := packTxn false (lineAddr d off) 0#32

/-- A write of D to register `off` of line d. -/
def encodeLineWrite (d : LineIx) (off : BitVec 5) (data : Word) : Txn := packTxn true (lineAddr d off) data

/-- The transaction word of an instruction; ignored bits are written 0 (R104, R105). -/
def encode : Instr → Txn
  | .nop => encodeGlobalWrite 0x000#12 0x0#32
  | .step => encodeGlobalWrite 0x000#12 0x1#32
  | .commit => encodeGlobalWrite 0x000#12 0x2#32
  | .reset => encodeGlobalWrite 0x000#12 0x3#32
  | .rdCmd => encodeGlobalRead 0x000#12
  | .rdStatus => encodeGlobalRead 0x001#12
  | .wrStatus data => encodeGlobalWrite 0x001#12 data
  | .rdErraddr => encodeGlobalRead 0x002#12
  | .rdFs => encodeGlobalRead 0x003#12
  | .rdNlines => encodeGlobalRead 0x004#12
  | .rdFrames => encodeGlobalRead 0x005#12
  | .wrInL data => encodeGlobalWrite 0x006#12 data
  | .rdInL => encodeGlobalRead 0x006#12
  | .wrInR data => encodeGlobalWrite 0x007#12 data
  | .rdInR => encodeGlobalRead 0x007#12
  | .rdOutL => encodeGlobalRead 0x008#12
  | .rdOutR => encodeGlobalRead 0x009#12
  | .wrMixStg data => encodeGlobalWrite 0x00A#12 data
  | .rdMixStg => encodeGlobalRead 0x00A#12
  | .rdMix => encodeGlobalRead 0x00B#12
  | .wrBaseStg d data => encodeLineWrite d 0x00#5 data
  | .wrDepthStg d data => encodeLineWrite d 0x01#5 data
  | .wrFreqStg d data => encodeLineWrite d 0x02#5 data
  | .wrFbStg d data => encodeLineWrite d 0x03#5 data
  | .wrLevelStg d data => encodeLineWrite d 0x04#5 data
  | .wrCfgStg d data => encodeLineWrite d 0x05#5 data
  | .rdBaseStg d => encodeLineRead d 0x00#5
  | .rdDepthStg d => encodeLineRead d 0x01#5
  | .rdFreqStg d => encodeLineRead d 0x02#5
  | .rdFbStg d => encodeLineRead d 0x03#5
  | .rdLevelStg d => encodeLineRead d 0x04#5
  | .rdCfgStg d => encodeLineRead d 0x05#5
  | .rdBase d => encodeLineRead d 0x08#5
  | .rdDepth d => encodeLineRead d 0x09#5
  | .rdFreq d => encodeLineRead d 0x0A#5
  | .rdFb d => encodeLineRead d 0x0B#5
  | .rdLevel d => encodeLineRead d 0x0C#5
  | .rdCfg d => encodeLineRead d 0x0D#5
  | .rdPhase d => encodeLineRead d 0x10#5
  | .rdWptr d => encodeLineRead d 0x11#5
  | .rdDelay d => encodeLineRead d 0x12#5
  | .rdLastrd d => encodeLineRead d 0x13#5
  | .rdCap d => encodeLineRead d 0x14#5
  | .rdMaxd d => encodeLineRead d 0x15#5

/-! ### The opcode map (30_encoding section 4, opcode_table.json): t is the operation when t AND mask = match -/

/-- The mask of a command row: W, A and D[3:0]. -/
def commandMask : Txn := 0xFFFF0000000F#48

/-- The mask of a global register row: W and A. -/
def globalMask : Txn := 0xFFFF00000000#48

/-- The mask of a line register row: W, A[14:12] and A[4:0]; d is left free. -/
def lineMask : Txn := 0xF01F00000000#48

/-- The row's match and mask for each instruction. -/
def opcodeRow : Instr → Txn × Txn
  | .nop => (0x800000000000#48, commandMask)
  | .step => (0x800000000001#48, commandMask)
  | .commit => (0x800000000002#48, commandMask)
  | .reset => (0x800000000003#48, commandMask)
  | .rdCmd => (0x000000000000#48, globalMask)
  | .rdStatus => (0x000100000000#48, globalMask)
  | .wrStatus _ => (0x800100000000#48, globalMask)
  | .rdErraddr => (0x000200000000#48, globalMask)
  | .rdFs => (0x000300000000#48, globalMask)
  | .rdNlines => (0x000400000000#48, globalMask)
  | .rdFrames => (0x000500000000#48, globalMask)
  | .wrInL _ => (0x800600000000#48, globalMask)
  | .rdInL => (0x000600000000#48, globalMask)
  | .wrInR _ => (0x800700000000#48, globalMask)
  | .rdInR => (0x000700000000#48, globalMask)
  | .rdOutL => (0x000800000000#48, globalMask)
  | .rdOutR => (0x000900000000#48, globalMask)
  | .wrMixStg _ => (0x800A00000000#48, globalMask)
  | .rdMixStg => (0x000A00000000#48, globalMask)
  | .rdMix => (0x000B00000000#48, globalMask)
  | .wrBaseStg _ _ => (0x900000000000#48, lineMask)
  | .wrDepthStg _ _ => (0x900100000000#48, lineMask)
  | .wrFreqStg _ _ => (0x900200000000#48, lineMask)
  | .wrFbStg _ _ => (0x900300000000#48, lineMask)
  | .wrLevelStg _ _ => (0x900400000000#48, lineMask)
  | .wrCfgStg _ _ => (0x900500000000#48, lineMask)
  | .rdBaseStg _ => (0x100000000000#48, lineMask)
  | .rdDepthStg _ => (0x100100000000#48, lineMask)
  | .rdFreqStg _ => (0x100200000000#48, lineMask)
  | .rdFbStg _ => (0x100300000000#48, lineMask)
  | .rdLevelStg _ => (0x100400000000#48, lineMask)
  | .rdCfgStg _ => (0x100500000000#48, lineMask)
  | .rdBase _ => (0x100800000000#48, lineMask)
  | .rdDepth _ => (0x100900000000#48, lineMask)
  | .rdFreq _ => (0x100A00000000#48, lineMask)
  | .rdFb _ => (0x100B00000000#48, lineMask)
  | .rdLevel _ => (0x100C00000000#48, lineMask)
  | .rdCfg _ => (0x100D00000000#48, lineMask)
  | .rdPhase _ => (0x101000000000#48, lineMask)
  | .rdWptr _ => (0x101100000000#48, lineMask)
  | .rdDelay _ => (0x101200000000#48, lineMask)
  | .rdLastrd _ => (0x101300000000#48, lineMask)
  | .rdCap _ => (0x101400000000#48, lineMask)
  | .rdMaxd _ => (0x101500000000#48, lineMask)

end Sys2Proof
end

