-- ==== Sys2Proof/Machine/Operands.lean ====
section
/-!
DEFINITION. The operand forms: the CFG fields of a data word and back (R45, R95, R97), and the index of a buffer word
(43_delay_reader R225).
-/

namespace Sys2Proof.Machine

/-- The ROUTE code of a register word (R97); none for the reserved code 3. -/
def routeOfCode (code : Nat) : Option Route :=
  match code with
  | 0 => some .left
  | 1 => some .right
  | 2 => some .center
  | _ => none

/-- The INTERP code of a register word (R97); none for the reserved code 3. -/
def interpOfCode (code : Nat) : Option Interp :=
  match code with
  | 0 => some .round
  | 1 => some .linear
  | 2 => some .allpass
  | _ => none

/-- The fields of a CFG_STG write (R95, R142): D[3:2] and D[31:6] are ignored (R104); none when either field holds
the reserved code, which discards the whole write. -/
def cfgOfData (data : Word) : Option CfgFields :=
  match routeOfCode (dataRoute data), interpOfCode (dataInterp data) with
  | some r, some i => some { route := r, interp := i }
  | _, _ => none

/-- The code of a route (R97). -/
def routeCode : Route → Nat
  | .left => 0
  | .right => 1
  | .center => 2

/-- The code of an interpolation mode (R97). -/
def interpCode : Interp → Nat
  | .round => 0
  | .linear => 1
  | .allpass => 2

/-- The word a read of CFG or CFG_STG returns: ROUTE in bits 1:0, INTERP in bits 5:4, the rest 0 (R45). -/
def cfgWord (c : CfgFields) : Word := u32 (interpCode c.interp * 16 + routeCode c.route)

/-- `idx(d, k) = (WPTR(d) − k) mod C_d`, the non-negative remainder (R225, R23). -/
def bufIndex (l : Line) (k : Int) : Nat := (((l.wptr : Int) - k) % (l.cap : Int)).toNat

end Sys2Proof.Machine
end

