-- ==== Sys2Proof/Machine/Ops.lean ====
section
/-!
DEFINITION. The named operations over buffers, registers and lines; recording an error, the block's one exception
operation (60_exceptions R301); and reset (R57).
-/

namespace Sys2Proof.Machine

/-! ### Buffers (R19, R52, R71): word j is the bytes 4 j to 4 j + 3, low byte first (log 9) -/

/-- One byte of a buffer; an unlisted key reads as 0, the reset contents (R57). -/
def bufReadByte : Buffer → Nat → Byte
  | [], _ => 0#8
  | (k, b) :: rest, a => if k = a then b else bufReadByte rest a

/-- Store one byte, keeping the canonical form: keys strictly rising and no entry 0. -/
def bufWriteByte : Buffer → Nat → Byte → Buffer
  | [], a, v => if v = 0#8 then [] else [(a, v)]
  | (k, b) :: rest, a, v =>
    if a < k then (if v = 0#8 then (k, b) :: rest else (a, v) :: (k, b) :: rest)
    else if a = k then (if v = 0#8 then rest else (a, v) :: rest)
    else (k, b) :: bufWriteByte rest a v

/-- The canonical form: keys strictly rising, and no entry equal to what an unlisted key reads as. -/
abbrev Buffer.wf (m : Buffer) : Prop := m.Pairwise (fun c c' => c.1 < c'.1) ∧ ∀ c ∈ m, c.2 ≠ 0#8

/-- Every listed key belongs to one of the words 0 to cap − 1: the buffer has exactly C_d words (R52). -/
abbrev Buffer.within (m : Buffer) (cap : Nat) : Prop := ∀ c ∈ m, c.1 < 4 * cap

/-- `BufRead(d, j)` (R19): the 32 bits of word j. -/
def bufRead (m : Buffer) (j : Nat) : Word :=
  bufReadByte m (4 * j + 3) ++ bufReadByte m (4 * j + 2) ++ bufReadByte m (4 * j + 1) ++ bufReadByte m (4 * j)

/-- `BufWrite(d, j, v)` (R19): all 32 bits of word j at once (R75). -/
def bufWrite (m : Buffer) (j : Nat) (v : Word) : Buffer :=
  bufWriteByte
    (bufWriteByte
      (bufWriteByte
        (bufWriteByte m (4 * j) (v.extractLsb' 0 8))
        (4 * j + 1) (v.extractLsb' 8 8))
      (4 * j + 2) (v.extractLsb' 16 8))
    (4 * j + 3) (v.extractLsb' 24 8)

/-! ### Answering a read and recording an error -/

/-- The transaction returns the word w to the host (R90, R186). -/
def answer (w : Word) (s : State) : State := { s with returned := s.returned ++ [w] }

/-- `raise Error(K, t)` for a transaction with direction W and address A (R301): ERRADDR records it when no decode
error stands, the bit of K is set, an erroneous read returns 0, and nothing else changes. This is the block's whole
exception entry: nothing is saved elsewhere, no mode changes, and there is no return from it (R300, R308, R309). -/
def raiseError (k : ErrorKind) (write : Bool) (a : Addr) (s : State) : State :=
  { s with
    errAddr := if noDecodeError s.status then errAddrWord write a else s.errAddr
    status := setStatusBit (errorBit k) s.status
    returned := if write then s.returned else s.returned ++ [0x00000000#32] }

/-- STATUS.PEND ← 1 (R59). -/
def setPend (s : State) : State := { s with status := setStatusBit pendBit s.status }

/-! ### Line registers -/

/-- A read of a register of line d at offset `off` (R143 to R160): its word, or EADDR when d ≥ N (R92, R100). -/
def readLineReg (off : BitVec 5) (d : LineIx) (value : Line → Word) (s : State) : State :=
  match s.lines[d.toNat]? with
  | some l => answer (value l) s
  | none => raiseError .eaddr false (lineAddr d off) s

/-- A write of a staging register of line d at offset `off` (R137 to R141): the line updated and PEND set, or EADDR
when d ≥ N (R92, R100). -/
def writeLineReg (off : BitVec 5) (d : LineIx) (update : Line → Line) (s : State) : State :=
  if d.toNat < s.lines.length then setPend { s with lines := s.lines.modify d.toNat update }
  else raiseError .eaddr true (lineAddr d off) s

/-! ### COMMIT and reset of a line -/

/-- Every active register of one line takes its staging register's value (R183). -/
def commitLine (l : Line) : Line :=
  { l with base := l.baseStg, depth := l.depthStg, freq := l.freqStg, fb := l.fbStg, level := l.levelStg,
           cfg := l.cfgStg }

/-- The reset state (R57) of the same block: its configuration stays (R330), and so do the host's lists and the level
of the pin, which are not the block's registers. -/
def resetBlock (s : State) : State :=
  { State.atReset s.config with rst := s.rst, inputs := s.inputs, returned := s.returned }

/-- The level of the reset input becomes `level` (R330): while it is asserted, and when it is released, the block is
in the reset state; a pin that stays released does nothing. -/
def driveRst (level : Bool) (s : State) : State :=
  if level || s.rst then { resetBlock s with rst := level } else s

end Sys2Proof.Machine
end

