-- ==== Sys2Proof/Machine/DelayReader.lean ====
section
/-!
DEFINITION. The Delay Bank reader (43_delay_reader): the modulated delay length of one line and the three
interpolated reads. The line is as it stands before the STEP's own writes (20_memory R85).
-/

namespace Sys2Proof.Machine

/-- `mod = s × DEPTH(d)` (R220). -/
def modulation (l : Line) (osc : Word) : Word := F32.mul osc l.depth

/-- `v = BASE(d) × (1.0 + mod)` (R221). -/
def modulatedTime (l : Line) (osc : Word) : Word := F32.mul l.base (F32.add F32.one (modulation l osc))

/-- `t = clamp(v, +0.0, MAXD_d)` (R222). -/
def delaySeconds (l : Line) (osc : Word) : Word := F32.clamp (modulatedTime l osc) F32.zero l.maxd

/-- `Ds = clamp(t × FS, +0.0, f32(C_d − 1))` (R223). -/
def delaySamples (fs : Word) (l : Line) (osc : Word) : Word :=
  F32.clamp (F32.mul (delaySeconds l osc) fs) F32.zero (F32.ofInt ((l.cap : Int) - 1))

/-- The buffer word `idx(d, k)` of a line (R225). -/
def bufBack (l : Line) (k : Int) : Word := bufRead l.buf (bufIndex l k)

/-- ROUND read (R227). -/
def readRound (l : Line) (ds : Word) : Word := bufBack l (F32.rnd ds)

/-- LINEAR read (R228). -/
def readLinear (l : Line) (ds : Word) : Word :=
  let i := F32.floor ds
  let f := F32.sub ds (F32.ofInt i)
  let a := bufBack l i
  let b := bufBack l (i + 1)
  F32.add a (F32.mul (F32.sub b a) f)

/-- The first-order all-pass of R229 on the words i and i + 1 STEPs old, with the fraction f in (0, 1]. -/
def allpassAt (l : Line) (i : Int) (f : Word) : Word :=
  let eta := F32.div (F32.sub F32.one f) (F32.add F32.one f)
  let a := bufBack l i
  let b := bufBack l (i + 1)
  F32.sub (F32.add (F32.mul eta a) b) (F32.mul eta l.lastrd)

/-- ALLPASS read (R229): a zero fraction is replaced by i − 1 and 1.0. -/
def readAllpass (l : Line) (ds : Word) : Word :=
  let i := F32.floor ds
  let f := F32.sub ds (F32.ofInt i)
  if F32.numEq f F32.zero then allpassAt l (i - 1) F32.one else allpassAt l i f

/-- `readDelayed(d, Ds)`: dispatch on CFG(d).INTERP (R226). -/
def readDelayed (l : Line) (ds : Word) : Word :=
  match l.cfg.interp with
  | .round => readRound l ds
  | .linear => readLinear l ds
  | .allpass => readAllpass l ds

end Sys2Proof.Machine
end

