-- ==== Sys2Proof/Machine/DelayWriter.lean ====
section
/-!
DEFINITION. The Delay Bank writer (44_delay_writer): routing, the feedback write and the cursor of one line.
-/

namespace Sys2Proof.Machine

/-- `routedInput(d)` (R250). -/
def routedInput (inL inR : Word) (l : Line) : Word :=
  match l.cfg.route with
  | .left => inL
  | .right => inR
  | .center => F32.mul (F32.add inL inR) F32.half

/-- `v = x + (FB(d) × y)` (R251). -/
def feedbackValue (inL inR : Word) (l : Line) (y : Word) : Word :=
  F32.add (routedInput inL inR l) (F32.mul l.fb y)

/-- The buffer after `BufWrite(d, WPTR(d), v)` (R252). The word written is idx(d, 0), the cursor reduced modulo C_d
as every buffer index is (R71; log 10). -/
def writeDelay (l : Line) (v : Word) : Buffer := bufWrite l.buf (bufIndex l 0) v

/-- The cursor after the write: (WPTR(d) + 1) mod C_d (R252). -/
def nextCursor (l : Line) : Nat := (l.wptr + 1) % l.cap

end Sys2Proof.Machine
end

