-- ==== Sys2Proof/Machine/Mixer.lean ====
section
/-!
DEFINITION. The Mixing Stage (45_mixer): the wet accumulators, the active-line counts, the mean and the dry/wet
blend.
-/

namespace Sys2Proof.Machine

/-- MixState: the accumulators of one STEP, local to it (R53, R275). -/
structure MixState where
  sumL : Word
  sumR : Word
  kL   : Nat
  kR   : Nat
  deriving DecidableEq, Repr

/-- The accumulators at the start of every STEP (R275). -/
def mixStart : MixState := { sumL := F32.zero, sumR := F32.zero, kL := 0, kR := 0 }

/-- Line d is active: LEVEL(d) > +0.0, ordered (R270). -/
def lineActive (l : Line) : Bool := F32.gt l.level F32.zero

/-- `c_d = y_d × LEVEL(d)`, with y_d the LASTRD that this STEP has just written (R230, R271). -/
def contribution (l : Line) : Word := F32.mul l.lastrd l.level

/-- Add to the left accumulator and count the line there (R272). -/
def mixLeft (c : Word) (m : MixState) : MixState := { m with sumL := F32.add m.sumL c, kL := m.kL + 1 }

/-- Add to the right accumulator and count the line there (R272). -/
def mixRight (c : Word) (m : MixState) : MixState := { m with sumR := F32.add m.sumR c, kR := m.kR + 1 }

/-- One line's turn in the accumulation (R272). A CENTER line adds half its contribution to each channel. -/
def mixLine (m : MixState) (l : Line) : MixState :=
  if lineActive l then
    match l.cfg.route with
    | .left => mixLeft (contribution l) m
    | .right => mixRight (contribution l) m
    | .center =>
      let h := F32.mul (contribution l) F32.half
      mixRight h (mixLeft h m)
  else m

/-- The accumulation over every line in increasing d (R272). -/
def mixLines (lines : List Line) : MixState := lines.foldl mixLine mixStart

/-- `wetC = if kC > 0 then sumC / f32(kC) else +0.0` (R273). -/
def wetValue (sum : Word) (k : Nat) : Word := if 0 < k then F32.div sum (F32.ofInt k) else F32.zero

/-- `OUT_C = (IN_C × (1.0 − MIX)) + (wetC × MIX)` (R274). -/
def blend (dry wet mix : Word) : Word := F32.add (F32.mul dry (F32.sub F32.one mix)) (F32.mul wet mix)

end Sys2Proof.Machine
end

