-- ==== Sys2Proof/Machine/Oscillator.lean ====
section
/-!
DEFINITION. The Modulation Bank (42_modulation_bank): the phase accumulator and the sine output of one line.
-/

namespace Sys2Proof.Machine

/-- A binary32 function made to satisfy S1, S2 and S3 of R14, and nothing more: at +0 it is +0, at every other finite
x it is the given value brought into [−1, 1], and at a NaN or an infinity it is a NaN. A function that satisfies S1
to S3 already is left as it is (log 2). -/
def sinOf (raw : Word → Word) (x : Word) : Word :=
  if x = F32.zero then F32.zero
  else if F32.isFinite x then F32.clamp (raw x) F32.minusOne F32.one
  else if F32.isNaN (raw x) then raw x
  else F32.defaultNaN

/-- `SIN` (R14). -/
def sin (x : Word) : Word := sinOf Config.sinRaw x

/-- `inc(d) = clamp(FREQ(d) / FS, +0.0, 0.5)` (R201). -/
def phaseIncrement (fs : Word) (l : Line) : Word := F32.clamp (F32.div l.freq fs) F32.zero F32.half

/-- `oscOut(d) = SIN(TWO_PI × PHASE(d))`, of the phase before the advance (R202). -/
def oscOut (l : Line) : Word := sin (F32.mul F32.twoPi l.phase)

/-- The phase after `oscAdvance(d)` (R203): one addition, and one subtraction of 1.0 when the sum reaches 1.0. -/
def oscAdvance (fs : Word) (l : Line) : Word :=
  let p := F32.add l.phase (phaseIncrement fs l)
  if F32.ge p F32.one then F32.sub p F32.one else p

end Sys2Proof.Machine
end

