-- ==== Sys2Proof/Machine/Commands.lean ====
section
/-!
DEFINITION. The commands NOP, STEP, COMMIT and RESET (41_commands), the writes to CMD. None of them can fail
part-way (R180).
-/

namespace Sys2Proof.Machine

/-! ### One line's work in a STEP (R181), which reads the line itself, FS, IN_L and IN_R only (R86) -/

/-- Ds of this STEP (R223), from the oscillator output before the phase advance (R202). -/
def stepDelay (fs : Word) (l : Line) : Word := delaySamples fs l (oscOut l)

/-- y of this STEP (R226). -/
def stepRead (fs : Word) (l : Line) : Word := readDelayed l (stepDelay fs l)

/-- v of this STEP (R251). -/
def stepWrite (fs inL inR : Word) (l : Line) : Word := feedbackValue inL inR l (stepRead fs l)

/-- The line after its work in a STEP (R181): PHASE, DELAY, LASTRD, one buffer word and WPTR. -/
def stepLine (fs inL inR : Word) (l : Line) : Line :=
  { l with
    phase := oscAdvance fs l
    delay := stepDelay fs l
    lastrd := stepRead fs l
    buf := writeDelay l (stepWrite fs inL inR l)
    wptr := nextCursor l }

/-- Some line writes a NaN or an infinity to its buffer in this STEP (R254). -/
def stepWritesNonFinite (s : State) : Bool := s.lines.any (fun l => !F32.isFinite (stepWrite s.fs s.inL s.inR l))

/-- STEP: every line, then the mixer, then OUT_L, OUT_R, NONFIN and FRAMES (R181). -/
def stepFrame (s : State) : State :=
  let lines := s.lines.map (stepLine s.fs s.inL s.inR)
  let m := mixLines lines
  let oL := blend s.inL (wetValue m.sumL m.kL) s.mix
  let oR := blend s.inR (wetValue m.sumR m.kR) s.mix
  let nf := stepWritesNonFinite s || !F32.isFinite oL || !F32.isFinite oR
  { s with
    lines := lines
    outL := oL
    outR := oR
    status := if nf then setStatusBit nonfinBit s.status else s.status
    frames := s.frames + 1 }

/-- COMMIT: every line's active registers and MIX at once, and PEND cleared (R183). -/
def commitAll (s : State) : State :=
  { s with lines := s.lines.map commitLine, mix := s.mixStg, status := clearStatusBit pendBit s.status }

/-! ### The meanings -/

/-- NOP (R182). -/
def execNop (s : State) : Host.Outcome State Fault Refusal := .next s

/-- STEP (R181). -/
def execStep (s : State) : Host.Outcome State Fault Refusal := .next (stepFrame s)

/-- COMMIT (R183). -/
def execCommit (s : State) : Host.Outcome State Fault Refusal := .next (commitAll s)

/-- RESET (R184). -/
def execReset (s : State) : Host.Outcome State Fault Refusal := .next (resetBlock s)

end Sys2Proof.Machine
end

