-- ==== Sys2Proof/Machine/GlobalAccess.lean ====
section
/-!
DEFINITION. The reads and writes of the global registers (40_register_access section 2). No read changes the block
(R120); each only returns its word.
-/

namespace Sys2Proof.Machine

/-- RD.CMD: CMD holds no state and reads as 0 (R121). -/
def execRdCmd (s : State) : Host.Outcome State Fault Refusal := .next (answer 0x00000000#32 s)

/-- RD.STATUS (R122). -/
def execRdStatus (s : State) : Host.Outcome State Fault Refusal := .next (answer (statusWord s.status) s)

/-- RD.ERRADDR (R124). -/
def execRdErraddr (s : State) : Host.Outcome State Fault Refusal := .next (answer s.errAddr s)

/-- RD.FS (R125). -/
def execRdFs (s : State) : Host.Outcome State Fault Refusal := .next (answer s.fs s)

/-- RD.NLINES (R126). -/
def execRdNlines (s : State) : Host.Outcome State Fault Refusal := .next (answer (u32 s.lines.length) s)

/-- RD.FRAMES (R127). -/
def execRdFrames (s : State) : Host.Outcome State Fault Refusal := .next (answer s.frames s)

/-- RD.IN_L (R129). -/
def execRdInL (s : State) : Host.Outcome State Fault Refusal := .next (answer s.inL s)

/-- RD.IN_R (R131). -/
def execRdInR (s : State) : Host.Outcome State Fault Refusal := .next (answer s.inR s)

/-- RD.OUT_L (R132). -/
def execRdOutL (s : State) : Host.Outcome State Fault Refusal := .next (answer s.outL s)

/-- RD.OUT_R (R133). -/
def execRdOutR (s : State) : Host.Outcome State Fault Refusal := .next (answer s.outR s)

/-- RD.MIX_STG (R135). -/
def execRdMixStg (s : State) : Host.Outcome State Fault Refusal := .next (answer s.mixStg s)

/-- RD.MIX (R136). -/
def execRdMix (s : State) : Host.Outcome State Fault Refusal := .next (answer s.mix s)

/-- WR.STATUS: the sticky bits written 1 are cleared; ERRADDR stays (R123). -/
def execWrStatus (data : Word) (s : State) : Host.Outcome State Fault Refusal :=
  .next { s with status := clearSticky s.status data }

/-- WR.IN_L: any encoding is stored; PEND is not set (R128). -/
def execWrInL (data : Word) (s : State) : Host.Outcome State Fault Refusal := .next { s with inL := data }

/-- WR.IN_R (R130). -/
def execWrInR (data : Word) (s : State) : Host.Outcome State Fault Refusal := .next { s with inR := data }

/-- WR.MIX_STG: the value clamped into [0, 1] is stored and PEND is set (R134). -/
def execWrMixStg (data : Word) (s : State) : Host.Outcome State Fault Refusal :=
  .next (setPend { s with mixStg := F32.clamp data F32.zero F32.one })

end Sys2Proof.Machine
end

