-- ==== Sys2Proof/Machine/LineAccess.lean ====
section
/-!
DEFINITION. The reads and writes of the line registers (40_register_access sections 3 to 5). A line index d ≥ N is
the EADDR error of R100, recorded with the register's own address, as the decoder records it (log 12).
-/

namespace Sys2Proof.Machine

/-- WR.BASE_STG: any encoding is stored (R137). -/
def execWrBaseStg (d : LineIx) (data : Word) (s : State) : Host.Outcome State Fault Refusal :=
  .next (writeLineReg 0x00#5 d (fun l => { l with baseStg := data }) s)

/-- WR.DEPTH_STG: any encoding is stored (R138). -/
def execWrDepthStg (d : LineIx) (data : Word) (s : State) : Host.Outcome State Fault Refusal :=
  .next (writeLineReg 0x01#5 d (fun l => { l with depthStg := data }) s)

/-- WR.FREQ_STG: any encoding is stored (R139). -/
def execWrFreqStg (d : LineIx) (data : Word) (s : State) : Host.Outcome State Fault Refusal :=
  .next (writeLineReg 0x02#5 d (fun l => { l with freqStg := data }) s)

/-- WR.FB_STG: any encoding is stored (R140). -/
def execWrFbStg (d : LineIx) (data : Word) (s : State) : Host.Outcome State Fault Refusal :=
  .next (writeLineReg 0x03#5 d (fun l => { l with fbStg := data }) s)

/-- WR.LEVEL_STG: any encoding is stored (R141). -/
def execWrLevelStg (d : LineIx) (data : Word) (s : State) : Host.Outcome State Fault Refusal :=
  .next (writeLineReg 0x04#5 d (fun l => { l with levelStg := data }) s)

/-- WR.CFG_STG: both fields are stored, or EFIELD is raised and nothing is stored when either holds 3; the line
index is checked first (R99, R142). -/
def execWrCfgStg (d : LineIx) (data : Word) (s : State) : Host.Outcome State Fault Refusal :=
  .next (match cfgOfData data with
    | some c => writeLineReg 0x05#5 d (fun l => { l with cfgStg := c }) s
    | none =>
      if d.toNat < s.lines.length then raiseError .efield true (lineAddr d 0x05#5) s
      else raiseError .eaddr true (lineAddr d 0x05#5) s)

/-- RD.BASE_STG (R143). -/
def execRdBaseStg (d : LineIx) (s : State) : Host.Outcome State Fault Refusal :=
  .next (readLineReg 0x00#5 d (fun l => l.baseStg) s)

/-- RD.DEPTH_STG (R144). -/
def execRdDepthStg (d : LineIx) (s : State) : Host.Outcome State Fault Refusal :=
  .next (readLineReg 0x01#5 d (fun l => l.depthStg) s)

/-- RD.FREQ_STG (R145). -/
def execRdFreqStg (d : LineIx) (s : State) : Host.Outcome State Fault Refusal :=
  .next (readLineReg 0x02#5 d (fun l => l.freqStg) s)

/-- RD.FB_STG (R146). -/
def execRdFbStg (d : LineIx) (s : State) : Host.Outcome State Fault Refusal :=
  .next (readLineReg 0x03#5 d (fun l => l.fbStg) s)

/-- RD.LEVEL_STG (R147). -/
def execRdLevelStg (d : LineIx) (s : State) : Host.Outcome State Fault Refusal :=
  .next (readLineReg 0x04#5 d (fun l => l.levelStg) s)

/-- RD.CFG_STG (R148). -/
def execRdCfgStg (d : LineIx) (s : State) : Host.Outcome State Fault Refusal :=
  .next (readLineReg 0x05#5 d (fun l => cfgWord l.cfgStg) s)

/-- RD.BASE (R149). -/
def execRdBase (d : LineIx) (s : State) : Host.Outcome State Fault Refusal :=
  .next (readLineReg 0x08#5 d (fun l => l.base) s)

/-- RD.DEPTH (R150). -/
def execRdDepth (d : LineIx) (s : State) : Host.Outcome State Fault Refusal :=
  .next (readLineReg 0x09#5 d (fun l => l.depth) s)

/-- RD.FREQ (R151). -/
def execRdFreq (d : LineIx) (s : State) : Host.Outcome State Fault Refusal :=
  .next (readLineReg 0x0A#5 d (fun l => l.freq) s)

/-- RD.FB (R152). -/
def execRdFb (d : LineIx) (s : State) : Host.Outcome State Fault Refusal :=
  .next (readLineReg 0x0B#5 d (fun l => l.fb) s)

/-- RD.LEVEL (R153). -/
def execRdLevel (d : LineIx) (s : State) : Host.Outcome State Fault Refusal :=
  .next (readLineReg 0x0C#5 d (fun l => l.level) s)

/-- RD.CFG (R154). -/
def execRdCfg (d : LineIx) (s : State) : Host.Outcome State Fault Refusal :=
  .next (readLineReg 0x0D#5 d (fun l => cfgWord l.cfg) s)

/-- RD.PHASE (R155). -/
def execRdPhase (d : LineIx) (s : State) : Host.Outcome State Fault Refusal :=
  .next (readLineReg 0x10#5 d (fun l => l.phase) s)

/-- RD.WPTR (R156). -/
def execRdWptr (d : LineIx) (s : State) : Host.Outcome State Fault Refusal :=
  .next (readLineReg 0x11#5 d (fun l => u32 l.wptr) s)

/-- RD.DELAY (R157). -/
def execRdDelay (d : LineIx) (s : State) : Host.Outcome State Fault Refusal :=
  .next (readLineReg 0x12#5 d (fun l => l.delay) s)

/-- RD.LASTRD (R158). -/
def execRdLastrd (d : LineIx) (s : State) : Host.Outcome State Fault Refusal :=
  .next (readLineReg 0x13#5 d (fun l => l.lastrd) s)

/-- RD.CAP (R159). -/
def execRdCap (d : LineIx) (s : State) : Host.Outcome State Fault Refusal :=
  .next (readLineReg 0x14#5 d (fun l => u32 l.cap) s)

/-- RD.MAXD (R160). -/
def execRdMaxd (d : LineIx) (s : State) : Host.Outcome State Fault Refusal :=
  .next (readLineReg 0x15#5 d (fun l => l.maxd) s)

end Sys2Proof.Machine
end

