-- ==== Sys2Proof/Machine/Dispatch.lean ====
section
/-!
DEFINITION. exec: the meaning of every instruction, one arm per constructor.
-/

namespace Sys2Proof.Machine

def exec (i : Instr) (s : State) : Host.Outcome State Fault Refusal :=
  match i with
  | .nop => Sys2Proof.Machine.execNop s
  | .step => Sys2Proof.Machine.execStep s
  | .commit => Sys2Proof.Machine.execCommit s
  | .reset => Sys2Proof.Machine.execReset s
  | .rdCmd => Sys2Proof.Machine.execRdCmd s
  | .rdStatus => Sys2Proof.Machine.execRdStatus s
  | .wrStatus data => Sys2Proof.Machine.execWrStatus data s
  | .rdErraddr => Sys2Proof.Machine.execRdErraddr s
  | .rdFs => Sys2Proof.Machine.execRdFs s
  | .rdNlines => Sys2Proof.Machine.execRdNlines s
  | .rdFrames => Sys2Proof.Machine.execRdFrames s
  | .wrInL data => Sys2Proof.Machine.execWrInL data s
  | .rdInL => Sys2Proof.Machine.execRdInL s
  | .wrInR data => Sys2Proof.Machine.execWrInR data s
  | .rdInR => Sys2Proof.Machine.execRdInR s
  | .rdOutL => Sys2Proof.Machine.execRdOutL s
  | .rdOutR => Sys2Proof.Machine.execRdOutR s
  | .wrMixStg data => Sys2Proof.Machine.execWrMixStg data s
  | .rdMixStg => Sys2Proof.Machine.execRdMixStg s
  | .rdMix => Sys2Proof.Machine.execRdMix s
  | .wrBaseStg d data => Sys2Proof.Machine.execWrBaseStg d data s
  | .wrDepthStg d data => Sys2Proof.Machine.execWrDepthStg d data s
  | .wrFreqStg d data => Sys2Proof.Machine.execWrFreqStg d data s
  | .wrFbStg d data => Sys2Proof.Machine.execWrFbStg d data s
  | .wrLevelStg d data => Sys2Proof.Machine.execWrLevelStg d data s
  | .wrCfgStg d data => Sys2Proof.Machine.execWrCfgStg d data s
  | .rdBaseStg d => Sys2Proof.Machine.execRdBaseStg d s
  | .rdDepthStg d => Sys2Proof.Machine.execRdDepthStg d s
  | .rdFreqStg d => Sys2Proof.Machine.execRdFreqStg d s
  | .rdFbStg d => Sys2Proof.Machine.execRdFbStg d s
  | .rdLevelStg d => Sys2Proof.Machine.execRdLevelStg d s
  | .rdCfgStg d => Sys2Proof.Machine.execRdCfgStg d s
  | .rdBase d => Sys2Proof.Machine.execRdBase d s
  | .rdDepth d => Sys2Proof.Machine.execRdDepth d s
  | .rdFreq d => Sys2Proof.Machine.execRdFreq d s
  | .rdFb d => Sys2Proof.Machine.execRdFb d s
  | .rdLevel d => Sys2Proof.Machine.execRdLevel d s
  | .rdCfg d => Sys2Proof.Machine.execRdCfg d s
  | .rdPhase d => Sys2Proof.Machine.execRdPhase d s
  | .rdWptr d => Sys2Proof.Machine.execRdWptr d s
  | .rdDelay d => Sys2Proof.Machine.execRdDelay d s
  | .rdLastrd d => Sys2Proof.Machine.execRdLastrd d s
  | .rdCap d => Sys2Proof.Machine.execRdCap d s
  | .rdMaxd d => Sys2Proof.Machine.execRdMaxd d s

end Sys2Proof.Machine
end

