-- ==== Sys2Proof/Machine/Bus.lean ====
section
/-!
DEFINITION. Running one bus event: a transaction is decoded and performed or recorded as an error, whole, before the
next (20_memory R80, 30_encoding R99); the reset input is driven to a level (70_reset R330).
-/

namespace Sys2Proof.Machine

/-- One transaction word (R99): the operation it decodes to on a block of this many lines, or its one error. -/
def runTxn (t : Txn) (s : State) : Host.Outcome State Fault Refusal :=
  match decode s.lines.length t with
  | .op i => exec i s
  | .error k => .next (raiseError k (txnWrite t) (txnAddr t) s)

/-- One bus event. A transaction under an asserted reset input has no transition (R330; log 7). -/
def deliver (e : BusEvent) (s : State) : Host.Outcome State Fault Refusal :=
  match e with
  | .rst level => .next (driveRst level s)
  | .transaction t => if s.rst then .refused .transactionDuringReset else runTxn t s

/-- The state with the oldest event taken off the host's list. -/
def takeEvent (rest : List BusEvent) (s : State) : State := { s with inputs := rest }

/-- The state in which the host issues the transaction word w next, before whatever it was going to issue, with the
reset input released so that the block accepts it (log 5). -/
def issueNext (nbits w : Nat) (s : State) : State :=
  { s with rst := false, inputs := .transaction (tableTxn nbits w) :: s.inputs }

end Sys2Proof.Machine
end

