-- ==== Sys2Proof/Machine/Step.lean ====
section
/-!
DEFINITION. One step of the model: the oldest bus event, whole (20_memory R80). With no event to come the block is
idle and waits for the host (70_reset R332; log 8).
-/

namespace Sys2Proof.Machine

def step (s : State) : Host.Outcome State Fault Refusal :=
  match s.inputs with
  | [] => .next s
  | e :: rest => deliver e (takeEvent rest s)

/-- The state whose next step runs the transaction word w (log 5). -/
def State.withFetchWord (s : State) (nbits w : Nat) : State := issueNext nbits w s

end Sys2Proof.Machine
end

