-- ==== Sys2Proof/Safety.lean ====
section
/-!
DEFINITION. What claims speak of: the invariants of 10_state R54 with what the memory's form needs, the reserved bits
of STATUS and ERRADDR (R35, R36), and a step that goes on (60_exceptions R300).
-/

namespace Sys2Proof.Machine

/-- `+0.0 ≤ x ≤ hi` as binary32 numbers, x not a NaN and not −0 (R54). -/
abbrev InClosed (x hi : Word) : Prop := F32.le F32.zero x = true ∧ F32.le x hi = true ∧ x ≠ 0x80000000#32

/-- `+0.0 ≤ x < hi` as binary32 numbers, x not a NaN and not −0 (R54). -/
abbrev InHalfOpen (x hi : Word) : Prop := F32.le F32.zero x = true ∧ F32.lt x hi = true ∧ x ≠ 0x80000000#32

/-- The invariants of one line (R54): its constants are admissible (R12, R13), PHASE in [0, 1), WPTR below C_d, DELAY
in [0, C_d − 1], and the buffer canonical and of C_d words (R52). -/
abbrev Line.Inv (l : Line) : Prop :=
  l.config.wf ∧ InHalfOpen l.phase F32.one ∧ l.wptr < l.cap ∧
  InClosed l.delay (F32.ofInt ((l.cap : Int) - 1)) ∧ Buffer.wf l.buf ∧ Buffer.within l.buf l.cap

/-- The invariants of the block (R54): an admissible configuration (R10, R11), every line's invariants, MIX_STG and
MIX in [0, 1], and the reserved bits of STATUS and ERRADDR 0 (R35, R36). That CFG and CFG_STG hold no reserved code
is their type's (log 11). -/
abbrev State.Inv (s : State) : Prop :=
  s.config.wf ∧ (∀ l ∈ s.lines, l.Inv) ∧ InClosed s.mixStg F32.one ∧ InClosed s.mix F32.one ∧
  s.status &&& ~~~statusMask = 0#32 ∧ s.errAddr &&& 0x7FFF8000#32 = 0#32

/-- The step goes on to a next state. -/
def Goes (o : Host.Outcome State Fault Refusal) : Prop := ∃ t, o = .next t

end Sys2Proof.Machine
end

