-- ==== Sys2Proof/Certificates/Slice0/Obligations.lean ====
section
/-!
DEFINITION. The statements for the provers. The namespace `Sys2Proof.Claims` holds the spec's own procedures
transcribed from their rules, so that a statement compares the model with the rule and not with itself.
-/

namespace Sys2Proof.Claims

open Sys2Proof.Machine

/-- The checks of 30_encoding R99 in the order written; none when an operation is performed. -/
def firstError (n : Nat) (t : Txn) : Option ErrorKind :=
  let w := t.getLsbD 47
  let region := (t.extractLsb' 44 3).toNat
  let i := (t.extractLsb' 32 12).toNat
  let d := (t.extractLsb' 37 7).toNat
  let off := (t.extractLsb' 32 5).toNat
  if region = 0 then
    if i > 0x00B then some .eaddr
    else if w = true ∧ i ∈ [0x002, 0x003, 0x004, 0x005, 0x008, 0x009, 0x00B] then some .ero
    else if w = true ∧ i = 0x000 ∧ (t.extractLsb' 0 4).toNat ≥ 4 then some .ecmd
    else none
  else if region = 1 then
    if d ≥ n ∨ off ∈ [0x06, 0x07, 0x0E, 0x0F] ∨ off ≥ 0x16 then some .eaddr
    else if w = true ∧ off ≥ 0x08 then some .ero
    else if w = true ∧ off = 0x05 ∧ ((t.extractLsb' 0 2).toNat = 3 ∨ (t.extractLsb' 4 2).toNat = 3) then some .efield
    else none
  else some .eaddr

/-- The bits of a transaction word that are not ignored for an operation (R104, R105): W and A of a read; W, A and
D[3:0] of a command; every bit of another write. -/
def meaningfulBits (i : Instr) : Txn :=
  if (opcodeRow i).1.getLsbD 47 = false then 0xFFFF00000000#48
  else if (opcodeRow i).2 = commandMask then commandMask
  else BitVec.allOnes 48

/-- What `raise Error(K, t)` leaves (60_exceptions R301), for direction W and address A. -/
def errorRecorded (k : ErrorKind) (w : Bool) (a : Addr) (s : State) : State :=
  { s with
    errAddr := if s.status.extractLsb' 0 4 = 0#4 then BitVec.ofBool w ++ 0#16 ++ a else s.errAddr
    status := s.status ||| (match k with
      | .ecmd => 0x00000001#32 | .eaddr => 0x00000002#32 | .efield => 0x00000004#32 | .ero => 0x00000008#32)
    returned := if w then s.returned else s.returned ++ [0x00000000#32] }

/-- The read of instruction i goes on, returns the word w and changes nothing else. -/
def Answers (i : Instr) (s : State) (w : Word) : Prop :=
  exec i s = .next { s with returned := s.returned ++ [w] }

/-- The write of instruction i to a staging register goes on, makes line d the line l', sets PEND (STATUS bit 8) and
changes nothing else. -/
def Stages (i : Instr) (s : State) (d : LineIx) (l' : Line) : Prop :=
  exec i s = .next { s with lines := s.lines.set d.toNat l', status := s.status ||| 0x00000100#32 }

/-- The word k STEPs old in a line's buffer: BufRead at idx(d, k) (43_delay_reader R225). -/
def old (l : Line) (k : Int) : Word := bufRead l.buf (((l.wptr : Int) - k) % (l.cap : Int)).toNat

/-- 42_modulation_bank R201. -/
def inc (fs : Word) (l : Line) : Word := F32.clamp (F32.div l.freq fs) 0x00000000#32 0x3F000000#32

/-- 42_modulation_bank R203. -/
def advanced (fs : Word) (l : Line) : Word :=
  let p := F32.add l.phase (inc fs l)
  if F32.ge p 0x3F800000#32 then F32.sub p 0x3F800000#32 else p

/-- 43_delay_reader R220 to R223, from the oscillator output of 42_modulation_bank R202. -/
def samples (fs : Word) (l : Line) : Word :=
  let s := Machine.sin (F32.mul 0x40C90FDB#32 l.phase)
  let v := F32.mul l.base (F32.add 0x3F800000#32 (F32.mul s l.depth))
  let t := F32.clamp v 0x00000000#32 l.maxd
  F32.clamp (F32.mul t fs) 0x00000000#32 (F32.ofInt ((l.cap : Int) - 1))

/-- 43_delay_reader R229 for the integer part i and the fraction f after the substitution. -/
def allpass (l : Line) (i : Int) (f : Word) : Word :=
  let eta := F32.div (F32.sub 0x3F800000#32 f) (F32.add 0x3F800000#32 f)
  F32.sub (F32.add (F32.mul eta (old l i)) (old l (i + 1))) (F32.mul eta l.lastrd)

/-- 43_delay_reader R226 to R229. -/
def delayed (l : Line) (ds : Word) : Word :=
  let i := F32.floor ds
  let f := F32.sub ds (F32.ofInt i)
  match l.cfg.interp with
  | .round => old l (F32.rnd ds)
  | .linear => F32.add (old l i) (F32.mul (F32.sub (old l (i + 1)) (old l i)) f)
  | .allpass => if F32.numEq f 0x00000000#32 then allpass l (i - 1) 0x3F800000#32 else allpass l i f

/-- 44_delay_writer R250. -/
def routed (inL inR : Word) (l : Line) : Word :=
  match l.cfg.route with
  | .left => inL
  | .right => inR
  | .center => F32.mul (F32.add inL inR) 0x3F000000#32

/-- 44_delay_writer R251: the value a STEP writes to the buffer of the line. -/
def written (fs inL inR : Word) (l : Line) : Word :=
  F32.add (routed inL inR l) (F32.mul l.fb (delayed l (samples fs l)))

/-- 45_mixer R270: the line is active. -/
def Active (l : Line) : Prop := F32.gt l.level 0x00000000#32 = true

/-- 45_mixer R271: the contribution of a line whose delayed sample is y. -/
def contrib (fs : Word) (l : Line) : Word := F32.mul (delayed l (samples fs l)) l.level

/-- 45_mixer R272 for one channel: the binary32 sum from +0.0 and the count, over the lines in increasing d; `own`
is the channel's own ROUTE code. -/
def channel (fs : Word) (own : Route) : List Line → Word × Nat → Word × Nat
  | [], acc => acc
  | l :: rest, (sum, k) =>
    if F32.gt l.level 0x00000000#32 = true ∧ l.cfg.route = own then
      channel fs own rest (F32.add sum (contrib fs l), k + 1)
    else if F32.gt l.level 0x00000000#32 = true ∧ l.cfg.route = .center then
      channel fs own rest (F32.add sum (F32.mul (contrib fs l) 0x3F000000#32), k + 1)
    else channel fs own rest (sum, k)

/-- 45_mixer R273. -/
def wet (acc : Word × Nat) : Word := if acc.2 > 0 then F32.div acc.1 (F32.ofInt acc.2) else 0x00000000#32

/-- 45_mixer R274 for the channel with input `dry`. -/
def out (s : State) (own : Route) (dry : Word) : Word :=
  F32.add (F32.mul dry (F32.sub 0x3F800000#32 s.mix)) (F32.mul (wet (channel s.fs own s.lines (0x00000000#32, 0))) s.mix)

/-- The staging registers of a line (10_state R44, R45). -/
def staging (l : Line) : Word × Word × Word × Word × Word × CfgFields :=
  (l.baseStg, l.depthStg, l.freqStg, l.fbStg, l.levelStg, l.cfgStg)

/-- The active registers of a line (10_state R46). -/
def active (l : Line) : Word × Word × Word × Word × Word × CfgFields :=
  (l.base, l.depth, l.freq, l.fb, l.level, l.cfg)

/-- What a STEP writes of a line (10_state R58). -/
def datapath (l : Line) : Word × Nat × Word × Word × Buffer := (l.phase, l.wptr, l.delay, l.lastrd, l.buf)

/-- The sum of the contributions of a list of lines, in order, from +0.0 (45_mixer R276). -/
def sumOf (fs : Word) (lines : List Line) : Word :=
  lines.foldl (fun sum l => F32.add sum (contrib fs l)) 0x00000000#32

/-- The properties S1, S2 and S3 of 00_scope R14. -/
def IsSine (f : Word → Word) : Prop :=
  f 0x00000000#32 = 0x00000000#32 ∧
  (∀ x, F32.isFinite x = true → F32.isFinite (f x) = true ∧ F32.le 0xBF800000#32 (f x) = true ∧
    F32.le (f x) 0x3F800000#32 = true) ∧
  ∀ x, F32.isFinite x = false → F32.isNaN (f x) = true

/-- r is the nearest finite binary32 value to num / den units of 2^−149 (den > 0), ties to even: no finite value is
nearer, and one as near with another number means that r's last bit is 0 (00_scope R21). -/
def IsNearest (r : Word) (num den : Int) : Prop :=
  F32.isFinite r = true ∧ ∀ c : Word, F32.isFinite c = true →
    |F32.key r * den - num| ≤ |F32.key c * den - num| ∧
    (|F32.key r * den - num| = |F32.key c * den - num| → F32.key c ≠ F32.key r → r.getLsbD 0 = false)

/-- num / den rounds to r under round to nearest, ties to even, with overflow to infinity: the threshold is the
midpoint of the largest finite value and 2^128, which is (2^25 − 1) · 2^252 units of 2^−149 (00_scope R21, R25). A
result rounded from an exact value that is not zero has that value's sign, also where it is rounded to a zero. -/
def Rounds (r : Word) (num den : Int) : Prop :=
  (|num| < (2 ^ 25 - 1) * 2 ^ 252 * den → IsNearest r num den ∧ (num ≠ 0 → (F32.sign r = true ↔ num < 0))) ∧
  ((2 ^ 25 - 1) * 2 ^ 252 * den ≤ |num| → r = if num < 0 then 0xFF800000#32 else 0x7F800000#32)

/-- The infinity of a sign. -/
def infinity (negative : Bool) : Word := if negative then 0xFF800000#32 else 0x7F800000#32

/-- The zero of a sign. -/
def signedZero (negative : Bool) : Word := if negative then 0x80000000#32 else 0x00000000#32

/-- The host issues k STEP transactions to a block of configuration c fresh from reset. -/
def stepsFromReset (c : Config) (k : Nat) : Host.Outcome State Fault Refusal :=
  Sys2Proof.core.run k { State.atReset c with inputs := List.replicate k (.transaction (encode .step)) }

end Sys2Proof.Claims

open Sys2Proof Sys2Proof.Machine Sys2Proof.Claims

/-! ### Encoding (30_encoding) -/

/-- Decoding the encoded word of any instruction that passes the decoder's checks gives it back, on a block of any
number of lines. -/
def Obligations.DecodeInvertsEncode : Prop :=
  ∀ (n : Nat) (i : Instr), i.wf n = true → decode n (encode i) = .op i

/-- R99: the ordered checks decide, and when none holds the word is exactly one operation, read from its own bits. -/
def Obligations.DecodeFollowsTheOrderedChecks : Prop :=
  ∀ (n : Nat) (t : Txn),
    (∀ k, firstError n t = some k → decode n t = .error k) ∧
    (firstError n t = none → ∃ i, decode n t = .op i ∧ i.wf n = true ∧ t &&& (opcodeRow i).2 = (opcodeRow i).1 ∧
      t &&& meaningfulBits i = encode i &&& meaningfulBits i)

/-- No transaction word matches two rows of the opcode table. -/
def Obligations.NoWordMatchesTwoRows : Prop :=
  ∀ (t : Txn) (i j : Instr), t &&& (opcodeRow i).2 = (opcodeRow i).1 → t &&& (opcodeRow j).2 = (opcodeRow j).1 →
    i.ctorIdx = j.ctorIdx

/-- R104 and R105: the ignored bits of a write and all of D on a read give the result of 0 there, and reserved bits
read as 0. -/
def Obligations.IgnoredBitsChangeNothing : Prop :=
  (∀ (s : State) (data : Word),
    runTxn (packTxn true 0x0000#15 data) s = runTxn (packTxn true 0x0000#15 (data &&& 0x0000000F#32)) s ∧
    runTxn (packTxn true 0x0001#15 data) s = runTxn (packTxn true 0x0001#15 (data &&& 0x0000001F#32)) s ∧
    (∀ d : LineIx, runTxn (packTxn true (lineAddr d 0x05#5) data) s =
      runTxn (packTxn true (lineAddr d 0x05#5) (data &&& 0x00000033#32)) s) ∧
    (∀ a : Addr, runTxn (packTxn false a data) s = runTxn (packTxn false a 0x00000000#32) s)) ∧
  (∀ s : State, statusWord s.status &&& 0xFFFFFEE0#32 = 0#32) ∧
  (∀ c : CfgFields, cfgWord c &&& 0xFFFFFFCC#32 = 0#32) ∧
  (∀ s : State, s.Inv → s.errAddr &&& 0x7FFF8000#32 = 0#32)

/-- Words written out from the tables of 30_encoding section 4, and what they decode to. -/
def Obligations.SampleWordsDecode : Prop :=
  decode 4 0x800000000001#48 = .op .step ∧
  decode 4 0x8000FFFFFFF0#48 = .op .nop ∧
  decode 4 0x80010000001F#48 = .op (.wrStatus 0x0000001F#32) ∧
  decode 4 0x000B00000000#48 = .op .rdMix ∧
  decode 4 0x90423F800000#48 = .op (.wrFreqStg 2#7 0x3F800000#32) ∧
  decode 4 0x902500000012#48 = .op (.wrCfgStg 1#7 0x00000012#32) ∧
  decode 4 0x103200000000#48 = .op (.rdDelay 1#7) ∧
  decode 4 0x902500000003#48 = .error .efield ∧
  decode 4 0x800300000000#48 = .error .ero ∧
  decode 4 0x800000000007#48 = .error .ecmd ∧
  decode 4 0x108000000000#48 = .error .eaddr

/-! ### One step -/

/-- When the host's next event is a transaction that decodes to an instruction, the step is exec of it, with the
event taken off the host's list and nothing else around it. The list of events is the model's choice (log 5). -/
def Obligations.StepRunsTheDecodedInstruction : Prop :=
  ∀ (s : State) (t : Txn) (rest : List BusEvent) (i : Instr),
    s.inputs = .transaction t :: rest → s.rst = false → decode s.lines.length t = .op i →
    step s = exec i { s with inputs := rest }

/-- A transaction that decodes to an error records it and makes no other change (60_exceptions section 1). That the
event is taken off a list of the host's, and that the 0 an erroneous read returns goes to a list, are the model's choices
(logs 5 and 6). -/
def Obligations.StepRecordsADecodeError : Prop :=
  ∀ (s : State) (t : Txn) (rest : List BusEvent) (k : ErrorKind),
    s.inputs = .transaction t :: rest → s.rst = false → decode s.lines.length t = .error k →
    step s = .next (errorRecorded k (t.getLsbD 47) (t.extractLsb' 32 15) { s with inputs := rest })

/-- The reset input (70_reset section 1): driven high, the block is in the reset state; released, it is in the reset
state; kept low, it does nothing. That the pin is a list of levels is the model's choice (log 7). -/
def Obligations.ResetPinGivesTheResetState : Prop :=
  ∀ (s : State) (level : Bool) (rest : List BusEvent), s.inputs = .rst level :: rest →
    step s = .next
      (if level = true ∨ s.rst = true then
        { State.atReset s.config with rst := level, inputs := rest, returned := s.returned }
      else { s with inputs := rest })

/-- The model's choices where the host does nothing or breaks R330: with no event to come the step leaves the state as
it is (log 8), and a transaction under an asserted reset input has no transition (log 7). -/
def Obligations.IdleAndRefusedEvents : Prop :=
  (∀ s : State, s.inputs = [] → step s = .next s) ∧
  (∀ (s : State) (t : Txn) (rest : List BusEvent), s.inputs = .transaction t :: rest → s.rst = true →
    step s = .refused .transactionDuringReset)

/-- 60_exceptions section 1: no transaction stops the block: whatever word the host issues, in whatever state, the step goes on. -/
def Obligations.EveryTransactionGoesOn : Prop :=
  ∀ (s : State) (t : Txn) (rest : List BusEvent), s.inputs = .transaction t :: rest → s.rst = false → Goes (step s)

/-! ### Errors (60_exceptions) -/

/-- A line operation with d ≥ N records EADDR with its own direction and address and does nothing else, for every
line operation. That exec itself makes this check, which R99 places in the decoder, is the model's choice (log 12). -/
def Obligations.LineBeyondNRecordsEaddr : Prop :=
  ∀ (i : Instr) (d : LineIx) (s : State), i.line? = some d → s.lines.length ≤ d.toNat →
    exec i s = .next (errorRecorded .eaddr ((encode i).getLsbD 47) ((encode i).extractLsb' 32 15) s)

/-- A write of CFG_STG of a line d < N with ROUTE = 3 or INTERP = 3 records EFIELD and leaves CFG_STG, PEND and
everything else as they were. That exec itself makes this check, which R99 places in the decoder, is the model's choice
(log 12). -/
def Obligations.ReservedCfgCodeRecordsEfield : Prop :=
  ∀ (d : LineIx) (data : Word) (s : State), d.toNat < s.lines.length →
    ((data.extractLsb' 0 2).toNat = 3 ∨ (data.extractLsb' 4 2).toNat = 3) →
    exec (.wrCfgStg d data) s = .next (errorRecorded .efield true (1#3 ++ d ++ 0x05#5) s)

/-- One step adds at most one of the bits ECMD, EADDR, EFIELD and ERO, and none together with NONFIN
(60_exceptions section 2). -/
def Obligations.StepAddsAtMostOneError : Prop :=
  ∀ s t : State, step s = .next t →
    t.status &&& ~~~s.status &&& 0x0000001F#32 ∈
      ([0x00#32, 0x01#32, 0x02#32, 0x04#32, 0x08#32, 0x10#32] : List Word)

/-- ERRADDR changes only when a transaction raises a decode error while STATUS[3:0] is 0, and then takes its
direction and address; or by reset, to 0. -/
def Obligations.ErrAddrKeepsTheFirstError : Prop :=
  ∀ s t : State, step s = .next t → t.errAddr ≠ s.errAddr →
    (s.status.extractLsb' 0 4 = 0#4 ∧ ∃ w rest k, s.inputs = .transaction w :: rest ∧
      firstError s.lines.length w = some k ∧ t.errAddr = BitVec.ofBool (w.getLsbD 47) ++ 0#16 ++ w.extractLsb' 32 15) ∨
    (t.errAddr = 0#32 ∧ ∃ e rest, s.inputs = e :: rest ∧
      ((∃ level, e = .rst level) ∨ ∃ w, e = .transaction w ∧ decode s.lines.length w = .op .reset))

/-- R310: err is STATUS[4:0] ≠ 0, and falls only by a write to STATUS or by a reset. -/
def Obligations.ErrOutputIsTheStickyBits : Prop :=
  (∀ s : State, errOutput s = true ↔ s.status.extractLsb' 0 5 ≠ 0#5) ∧
  (∀ s t : State, step s = .next t → errOutput s = true → errOutput t = false →
    ∃ e rest, s.inputs = e :: rest ∧
      ((∃ level, e = .rst level) ∨ ∃ w, e = .transaction w ∧
        (decode s.lines.length w = .op .reset ∨ ∃ data, decode s.lines.length w = .op (.wrStatus data))))

/-! ### Register access (40_register_access) -/

/-- Every read of a global register goes on, returns the register's word and changes nothing else; STATUS is returned
with its reserved bits 0. That the words go to a list is the model's choice (log 6). -/
def Obligations.GlobalReadsReturnTheirRegister : Prop :=
  ∀ s : State,
    Answers .rdCmd s 0x00000000#32 ∧
    (∃ w, Answers .rdStatus s w ∧ ∀ b : Nat, w.getLsbD b = (s.status.getLsbD b && decide (b ∈ [0, 1, 2, 3, 4, 8]))) ∧
    Answers .rdErraddr s s.errAddr ∧
    Answers .rdFs s s.fs ∧
    Answers .rdNlines s (BitVec.ofNat 32 s.lines.length) ∧
    Answers .rdFrames s s.frames ∧
    Answers .rdInL s s.inL ∧
    Answers .rdInR s s.inR ∧
    Answers .rdOutL s s.outL ∧
    Answers .rdOutR s s.outR ∧
    Answers .rdMixStg s s.mixStg ∧
    Answers .rdMix s s.mix

/-- Every read of a register of a line d < N goes on, returns the register's word and changes nothing else; CFG and
CFG_STG return ROUTE in bits 1:0 and INTERP in bits 5:4, held as two codes (log 11); WPTR and CAP are numbers read as
words (log 13). -/
def Obligations.LineReadsReturnTheirRegister : Prop :=
  ∀ (s : State) (d : LineIx) (l : Line), s.lines[d.toNat]? = some l →
    Answers (.rdBaseStg d) s l.baseStg ∧
    Answers (.rdDepthStg d) s l.depthStg ∧
    Answers (.rdFreqStg d) s l.freqStg ∧
    Answers (.rdFbStg d) s l.fbStg ∧
    Answers (.rdLevelStg d) s l.levelStg ∧
    Answers (.rdCfgStg d) s
      (BitVec.ofNat 32 (16 * (match l.cfgStg.interp with | .round => 0 | .linear => 1 | .allpass => 2) +
        (match l.cfgStg.route with | .left => 0 | .right => 1 | .center => 2))) ∧
    Answers (.rdBase d) s l.base ∧
    Answers (.rdDepth d) s l.depth ∧
    Answers (.rdFreq d) s l.freq ∧
    Answers (.rdFb d) s l.fb ∧
    Answers (.rdLevel d) s l.level ∧
    Answers (.rdCfg d) s
      (BitVec.ofNat 32 (16 * (match l.cfg.interp with | .round => 0 | .linear => 1 | .allpass => 2) +
        (match l.cfg.route with | .left => 0 | .right => 1 | .center => 2))) ∧
    Answers (.rdPhase d) s l.phase ∧
    Answers (.rdWptr d) s (BitVec.ofNat 32 l.wptr) ∧
    Answers (.rdDelay d) s l.delay ∧
    Answers (.rdLastrd d) s l.lastrd ∧
    Answers (.rdCap d) s (BitVec.ofNat 32 l.cap) ∧
    Answers (.rdMaxd d) s l.maxd

/-- A write of a binary32 staging register of a line d < N goes on, stores D bit for bit in that register of that
line, sets PEND, and changes nothing else. -/
def Obligations.StagingWritesStoreTheirWord : Prop :=
  ∀ (s : State) (d : LineIx) (data : Word) (l : Line), s.lines[d.toNat]? = some l →
    Stages (.wrBaseStg d data) s d { l with baseStg := data } ∧
    Stages (.wrDepthStg d data) s d { l with depthStg := data } ∧
    Stages (.wrFreqStg d data) s d { l with freqStg := data } ∧
    Stages (.wrFbStg d data) s d { l with fbStg := data } ∧
    Stages (.wrLevelStg d data) s d { l with levelStg := data }

/-- A write of CFG_STG of a line d < N with no reserved code goes on, stores both codes, sets PEND and changes nothing
else; the register then reads D[5:4] and D[1:0] with every other bit 0. -/
def Obligations.CfgWriteStoresBothCodes : Prop :=
  ∀ (s : State) (d : LineIx) (data : Word) (l : Line), s.lines[d.toNat]? = some l →
    (data.extractLsb' 0 2).toNat ≠ 3 → (data.extractLsb' 4 2).toNat ≠ 3 →
    ∃ c, Stages (.wrCfgStg d data) s d { l with cfgStg := c } ∧ cfgWord c = data &&& 0x00000033#32

/-- A write of IN_L or IN_R goes on, stores D bit for bit and changes nothing else; PEND is not set. -/
def Obligations.SampleWritesStoreTheirWord : Prop :=
  ∀ (s : State) (data : Word),
    exec (.wrInL data) s = .next { s with inL := data } ∧ exec (.wrInR data) s = .next { s with inR := data }

/-- R123: WR.STATUS clears exactly the bits b ≤ 4 with D[b] = 1, and changes nothing else, ERRADDR included. -/
def Obligations.StatusWriteClearsWrittenOnes : Prop :=
  ∀ (n : Nat) (s : State) (data : Word), decode n (packTxn true 0x0001#15 data) = .op (.wrStatus data) ∧
    ∃ w : Word, exec (.wrStatus data) s = .next { s with status := w } ∧
      ∀ b : Nat, w.getLsbD b = (s.status.getLsbD b && !(decide (b ≤ 4) && data.getLsbD b))

/-- R134: WR.MIX_STG stores D when 0 < D < 1, 1.0 when D ≥ 1 (+Inf included), and +0.0 for every other D (negative,
−0, −Inf, NaN), sets PEND and changes nothing else. -/
def Obligations.MixWriteStoresTheClampedValue : Prop :=
  ∀ (n : Nat) (s : State) (data : Word), decode n (packTxn true 0x000A#15 data) = .op (.wrMixStg data) ∧
    exec (.wrMixStg data) s = .next { s with
      status := s.status ||| 0x00000100#32
      mixStg :=
        if F32.ge data 0x3F800000#32 = true then 0x3F800000#32
        else if F32.gt data 0x00000000#32 = true then data
        else 0x00000000#32 }

/-- R59: PEND is set by every write that stores into MIX_STG or a staging register, cleared by COMMIT, RESET and
power-on reset, and left alone by every other instruction and by a write that stores nothing. -/
def Obligations.PendFollowsStagingWrites : Prop :=
  State.reset.status.getLsbD 8 = false ∧
  ∀ (i : Instr) (s t : State), exec i s = .next t →
    t.status.getLsbD 8 =
      (match i with
      | .commit => false
      | .reset => false
      | .wrMixStg _ => true
      | .wrBaseStg d _ => s.status.getLsbD 8 || decide (d.toNat < s.lines.length)
      | .wrDepthStg d _ => s.status.getLsbD 8 || decide (d.toNat < s.lines.length)
      | .wrFreqStg d _ => s.status.getLsbD 8 || decide (d.toNat < s.lines.length)
      | .wrFbStg d _ => s.status.getLsbD 8 || decide (d.toNat < s.lines.length)
      | .wrLevelStg d _ => s.status.getLsbD 8 || decide (d.toNat < s.lines.length)
      | .wrCfgStg d data => s.status.getLsbD 8 || decide (d.toNat < s.lines.length ∧
          (data.extractLsb' 0 2).toNat ≠ 3 ∧ (data.extractLsb' 4 2).toNat ≠ 3)
      | _ => s.status.getLsbD 8)

/-- R39: a STEP adds 1 to FRAMES modulo 2^32, RESET and power-on reset set it to 0, a write to it is an error, and no
other instruction, no error and no other event changes it. -/
def Obligations.FramesCountsSteps : Prop :=
  State.reset.frames = 0#32 ∧
  (∀ (n : Nat) (data : Word), decode n (packTxn true 0x0005#15 data) = .error .ero) ∧
  (∀ (i : Instr) (s t : State), exec i s = .next t →
    t.frames = (match i with
      | .step => BitVec.ofNat 32 (s.frames.toNat + 1)
      | .reset => 0#32
      | _ => s.frames)) ∧
  ∀ s t : State, step s = .next t → t.frames ≠ s.frames → ∃ e rest, s.inputs = e :: rest ∧
    ((t.frames = s.frames + 1 ∧ ∃ w, e = .transaction w ∧ decode s.lines.length w = .op .step) ∨
      (t.frames = 0#32 ∧ ((∃ level, e = .rst level) ∨ ∃ w, e = .transaction w ∧
        decode s.lines.length w = .op .reset)))

/-- Who writes what (10_state section 6). No instruction writes the configuration, and none touches the pin or what the host has still
to issue; only STEP and RESET write the datapath, the outputs and FRAMES, and only they can change NONFIN but for the
W1C write; only COMMIT and RESET write the active registers and MIX; STEP and COMMIT leave the inputs, the staging
registers and ERRADDR, and every STATUS bit but NONFIN (STEP) and PEND (COMMIT). -/
def Obligations.WriteAccessMatrix : Prop :=
  ∀ (i : Instr) (s t : State), exec i s = .next t →
    t.config = s.config ∧ t.rst = s.rst ∧ t.inputs = s.inputs ∧
    (i ≠ .step → i ≠ .reset → t.lines.map datapath = s.lines.map datapath ∧ t.outL = s.outL ∧ t.outR = s.outR ∧
      t.frames = s.frames ∧ (t.status.getLsbD 4 = true → s.status.getLsbD 4 = true)) ∧
    (i ≠ .commit → i ≠ .reset → t.lines.map active = s.lines.map active ∧ t.mix = s.mix) ∧
    (i = .step ∨ i = .commit → t.lines.map staging = s.lines.map staging ∧ t.mixStg = s.mixStg ∧ t.inL = s.inL ∧
      t.inR = s.inR ∧ t.errAddr = s.errAddr ∧ t.returned = s.returned) ∧
    (i = .step → t.status &&& 0xFFFFFFEF#32 = s.status &&& 0xFFFFFFEF#32) ∧
    (i = .commit → t.status = s.status &&& 0xFFFFFEFF#32)

/-- Repeating a transaction, the spec's own inference in 20_memory ("Idempotency. Repeating a read ..."): a repeated write of a staging register, CFG_STG, MIX_STG, IN_L, IN_R or
STATUS, a repeated COMMIT and a repeated RESET leave the state of the first. -/
def Obligations.RepeatedWritesAreIdempotent : Prop :=
  ∀ (i : Instr) (s t : State), txnWrite (encode i) = true → i ≠ .step → exec i s = .next t → exec i t = .next t

/-! ### Commands (41_commands) -/

/-- R182: NOP leaves the state unchanged, whatever D[31:4] holds. -/
def Obligations.NopChangesNothing : Prop :=
  ∀ (n : Nat) (s : State) (ignored : BitVec 28),
    decode n (packTxn true 0x0000#15 (ignored ++ 0x0#4)) = .op .nop ∧ exec .nop s = .next s

/-- R183: COMMIT copies every staging register of every line and MIX_STG, clears PEND, and changes nothing else. -/
def Obligations.CommitCopiesEveryStagingRegister : Prop :=
  ∀ (n : Nat) (s : State) (ignored : BitVec 28),
    decode n (packTxn true 0x0000#15 (ignored ++ 0x2#4)) = .op .commit ∧
    exec .commit s = .next { s with
      lines := s.lines.map (fun l => { l with
        base := l.baseStg, depth := l.depthStg, freq := l.freqStg, fb := l.fbStg, level := l.levelStg, cfg := l.cfgStg })
      mix := s.mixStg
      status := s.status &&& 0xFFFFFEFF#32 }

/-- RESET gives the reset state of the same configuration (41_commands section 3, 10_state section 5). That the events
still to come, the words returned and the level of the pin stay as they are is the model's choice (logs 5, 6 and 7), and
that the configuration is carried in State is too (log 4). -/
def Obligations.ResetGivesTheResetState : Prop :=
  ∀ (n : Nat) (s : State) (ignored : BitVec 28),
    decode n (packTxn true 0x0000#15 (ignored ++ 0x3#4)) = .op .reset ∧
    exec .reset s = .next { s with
      status := 0#32, errAddr := 0#32, frames := 0#32, inL := 0#32, inR := 0#32, outL := 0#32, outR := 0#32
      mixStg := 0#32, mix := 0#32
      lines := s.lines.map (fun l => { l with
        baseStg := 0#32, depthStg := 0#32, freqStg := 0#32, fbStg := 0#32, levelStg := 0#32
        cfgStg := { route := .left, interp := .round }
        base := 0#32, depth := 0#32, freq := 0#32, fb := 0#32, level := 0#32
        cfg := { route := .left, interp := .round }
        phase := 0#32, wptr := 0, delay := 0#32, lastrd := 0#32, buf := [] }) }

/-- R181: STEP goes on and gives every line its new PHASE, DELAY, LASTRD, buffer word and cursor by the formulas of
R201 to R203, R220 to R229 and R250 to R252; the outputs by R272 to R274; FRAMES one more; NONFIN set when a written
value or an output is not finite; and nothing else. -/
def Obligations.StepRunsOneFrame : Prop :=
  ∀ (n : Nat) (s : State) (ignored : BitVec 28), (∀ l ∈ s.lines, l.wptr < l.cap) →
    decode n (packTxn true 0x0000#15 (ignored ++ 0x1#4)) = .op .step ∧
    exec .step s = .next { s with
      lines := s.lines.map (fun l => { l with
        phase := advanced s.fs l
        delay := samples s.fs l
        lastrd := delayed l (samples s.fs l)
        buf := bufWrite l.buf l.wptr (written s.fs s.inL s.inR l)
        wptr := (l.wptr + 1) % l.cap })
      outL := out s .left s.inL
      outR := out s .right s.inR
      frames := s.frames + 1
      status :=
        if (∃ l ∈ s.lines, F32.isFinite (written s.fs s.inL s.inR l) = false) ∨
            F32.isFinite (out s .left s.inL) = false ∨ F32.isFinite (out s .right s.inR) = false then
          s.status ||| 0x00000010#32
        else s.status }

/-- R188: two states that differ only in staging registers and MIX_STG give, after a STEP, states that differ only
there. -/
def Obligations.StepReadsNoStagingRegister : Prop :=
  ∀ s s' t t' : State,
    { s' with lines := [], mixStg := s.mixStg } = { s with lines := [] } →
    s'.lines.map (fun l => (l.config, active l, datapath l)) = s.lines.map (fun l => (l.config, active l, datapath l)) →
    exec .step s = .next t → exec .step s' = .next t' →
    { t' with lines := [], mixStg := t.mixStg } = { t with lines := [] } ∧
    t'.lines.map (fun l => (l.config, active l, datapath l)) = t.lines.map (fun l => (l.config, active l, datapath l))

/-- The spec's own inference in 20_memory ("Lines do not share state"): what a STEP makes of line d depends only on that line's active registers, PHASE, WPTR, LASTRD and buffer, the
configuration, IN_L and IN_R; it writes only PHASE, WPTR, DELAY, LASTRD and the buffer of the line. -/
def Obligations.LinesAreIndependent : Prop :=
  ∀ (s s' t t' : State) (d : Nat) (l l' m m' : Line),
    s'.fs = s.fs → s'.inL = s.inL → s'.inR = s.inR →
    s.lines[d]? = some l → s'.lines[d]? = some l' →
    l'.config = l.config → active l' = active l → l'.phase = l.phase → l'.wptr = l.wptr → l'.lastrd = l.lastrd →
    l'.buf = l.buf →
    exec .step s = .next t → exec .step s' = .next t' → t.lines[d]? = some m → t'.lines[d]? = some m' →
    datapath m' = datapath m ∧ m.config = l.config ∧ active m = active l ∧ staging m = staging l

/-- A staging write and a STEP commute: a staged value has no effect on any STEP before a COMMIT (the
spec's own inference "Staging hazard" of 70_reset). -/
def Obligations.StagingWriteCommutesWithStep : Prop :=
  ∀ (s t u t' u' : State) (i : Instr) (d : LineIx),
    i.line? = some d → txnWrite (encode i) = true →
    exec i s = .next t → exec .step t = .next u → exec .step s = .next t' → exec i t' = .next u' → u = u'

/-- After k STEPs from reset FRAMES is k modulo 2^32 and the cursor of every line, active or not, is k mod C_d: from
44_delay_writer's "(WPTR(d) + 1) mod C_d", over whole runs of the machine (log 5). -/
def Obligations.CursorsAfterStepsFromReset : Prop :=
  ∀ (c : Config) (k : Nat), ∃ t, stepsFromReset c k = .next t ∧ t.frames = BitVec.ofNat 32 k ∧
    t.lines.map Line.config = c.lines ∧ ∀ l ∈ t.lines, l.wptr = k % l.cap

/-! ### Modulation Bank (42_modulation_bank) -/

/-- The model's SIN satisfies S1 to S3 and nothing of it is fixed beyond them: a function that satisfies them is left
as it is by what the model imposes on the raw constant. That form of SIN is the model's choice (log 2). -/
def Obligations.SineHasItsThreeProperties : Prop :=
  IsSine Machine.sin ∧ ∀ f : Word → Word, IsSine f → ∀ x, sinOf f x = f x

/-- R201: the increment is the clamped quotient; with an admissible FS it lies in [0, 0.5]; a NaN, negative, zero or
−Inf frequency gives +0.0, and a frequency above FS / 2, +Inf included, gives 0.5. -/
def Obligations.PhaseIncrementCorners : Prop :=
  ∀ (fs : Word) (l : Line), 0x00800000 ≤ fs.toNat → fs.toNat ≤ 0x7F7FFFFF →
    phaseIncrement fs l = F32.clamp (F32.div l.freq fs) 0x00000000#32 0x3F000000#32 ∧
    InClosed (phaseIncrement fs l) 0x3F000000#32 ∧
    (F32.isNaN l.freq = true ∨ F32.sign l.freq = true ∨ F32.isZero l.freq = true →
      phaseIncrement fs l = 0x00000000#32) ∧
    (F32.isNaN l.freq = false → F32.key fs < 2 * F32.key l.freq → phaseIncrement fs l = 0x3F000000#32)

/-- The spec's own inference in 42_modulation_bank ("PHASE stays in [+0.0, 1.0)"): from any PHASE in [+0.0, 1.0), whatever FREQ and FS hold, a STEP leaves PHASE in [+0.0, 1.0), not a NaN and
not −0. -/
def Obligations.PhaseStaysInOneCycle : Prop :=
  ∀ (s t : State), (∀ l ∈ s.lines, InHalfOpen l.phase 0x3F800000#32) → exec .step s = .next t →
    ∀ l ∈ t.lines, InHalfOpen l.phase 0x3F800000#32

/-! ### Delay Bank (43_delay_reader, 44_delay_writer) -/

/-- 43_delay_reader section 1, the corner cases of the delay in samples: whatever BASE, DEPTH, PHASE and FS hold, a STEP leaves DELAY in [+0.0, C_d − 1], never a NaN, never −0 and
never C_d or more. -/
def Obligations.DelayStaysBelowCapacity : Prop :=
  ∀ (s t : State), (∀ l ∈ s.lines, 2 ≤ l.cap ∧ l.cap ≤ 2 ^ 24) → exec .step s = .next t →
    ∀ l ∈ t.lines, InClosed l.delay (F32.ofInt ((l.cap : Int) - 1)) ∧ F32.isFinite l.delay = true ∧
      F32.key l.delay < (l.cap : Int) * 2 ^ 149

/-- The spec's own inference in 43_delay_reader ("Every buffer index the reader uses lies in"): every index the reader uses is below C_d, and the delay it comes from is finite, so its integer part is
between 0 and C_d − 1. -/
def Obligations.BufferIndicesAreInRange : Prop :=
  ∀ (fs : Word) (l : Line), 2 ≤ l.cap → l.cap ≤ 2 ^ 24 →
    (∀ k : Int, bufIndex l k < l.cap) ∧
    0 ≤ F32.floor (stepDelay fs l) ∧ F32.floor (stepDelay fs l) ≤ (l.cap : Int) - 1 ∧
    0 ≤ F32.rnd (stepDelay fs l) ∧ F32.rnd (stepDelay fs l) ≤ (l.cap : Int) - 1

/-- The spec's own inference in 43_delay_reader ("The fraction f ... is exact"): for every delay in [0, C_d − 1] the fraction Ds − f32(floor(Ds)) is exact and lies in [0, 1). -/
def Obligations.FractionIsExact : Prop :=
  ∀ (ds : Word) (cap : Nat), 2 ≤ cap → cap ≤ 2 ^ 24 → InClosed ds (F32.ofInt ((cap : Int) - 1)) →
    F32.key (F32.sub ds (F32.ofInt (F32.floor ds))) = F32.key ds - F32.floor ds * 2 ^ 149 ∧
    InHalfOpen (F32.sub ds (F32.ofInt (F32.floor ds))) 0x3F800000#32

/-- A word of a canonical buffer read after a word write: the word written at its own index, else as before; and the
write keeps the buffer canonical. The buffer's form is the model's choice (log 9). -/
def Obligations.BufferReadsBackItsWrites : Prop :=
  ∀ (m : Buffer) (j k : Nat) (v : Word), Buffer.wf m →
    bufRead (bufWrite m j v) k = (if k = j then v else bufRead m k) ∧ Buffer.wf (bufWrite m j v)

/-- What 43_delay_reader R225 says the words hold, an inference of the spec from its definition: after a STEP the word 1 STEP old is the value just written, and the word k STEPs old before it is k + 1 STEPs
old, for 1 ≤ k < C_d; and the words 0 and C_d STEPs old are the same, the one under the cursor. -/
def Obligations.BufferHoldsTheLastWrites : Prop :=
  ∀ (s t : State) (d : Nat) (l m : Line), l.Inv → exec .step s = .next t →
    s.lines[d]? = some l → t.lines[d]? = some m →
    old m 1 = written s.fs s.inL s.inR l ∧
    (∀ k : Int, 1 ≤ k → k < l.cap → old m (k + 1) = old l k) ∧
    old l 0 = bufRead l.buf l.wptr ∧ old l (l.cap : Int) = old l 0

/-- The corner cases of the LINEAR and ALLPASS reads (43_delay_reader section 3) at a whole-sample delay: LINEAR gives the word i STEPs old as a number when the
difference of the two words is finite, and ALLPASS gives it when the two words it reads and LASTRD are finite. -/
def Obligations.WholeSampleDelaysReadOneWord : Prop :=
  ∀ (l : Line) (cap : Nat) (ds : Word), 2 ≤ cap → cap ≤ 2 ^ 24 → InClosed ds (F32.ofInt ((cap : Int) - 1)) →
    F32.key ds = F32.floor ds * 2 ^ 149 →
    (F32.isFinite (old l (F32.floor ds)) = true →
      F32.isFinite (F32.sub (old l (F32.floor ds + 1)) (old l (F32.floor ds))) = true →
      F32.numEq (readLinear l ds) (old l (F32.floor ds)) = true) ∧
    (F32.isFinite (old l (F32.floor ds - 1)) = true → F32.isFinite (old l (F32.floor ds)) = true →
      F32.isFinite l.lastrd = true → F32.numEq (readAllpass l ds) (old l (F32.floor ds)) = true)

/-- The spec's own inference "Non-finite persistence hazard" of 70_reset: a line whose delayed sample is a NaN writes the default NaN back, for every feedback gain. -/
def Obligations.NaNIsWrittenBack : Prop :=
  ∀ (s t : State) (d : Nat) (l m : Line), l.Inv → exec .step s = .next t →
    s.lines[d]? = some l → t.lines[d]? = some m → F32.isNaN m.lastrd = true →
    old m 1 = 0x7FC00000#32 ∧ t.status.getLsbD 4 = true

/-! ### Mixer (45_mixer) -/

/-- The spec's own inference "Mean property" of 45_mixer: with no active CENTER line, each channel's wet value is the binary32 sum of the contributions of its active
lines in increasing order divided by their number, and +0.0 when there is none. -/
def Obligations.WetIsTheMeanOfActiveLines : Prop :=
  ∀ (s t : State), exec .step s = .next t → (∀ l ∈ s.lines, Active l → l.cfg.route ≠ .center) →
    let on (own : Route) := s.lines.filter (fun l => F32.gt l.level 0x00000000#32 && decide (l.cfg.route = own))
    let mean (own : Route) :=
      if (on own).length > 0 then F32.div (sumOf s.fs (on own)) (F32.ofInt (on own).length) else 0x00000000#32
    t.outL = F32.add (F32.mul s.inL (F32.sub 0x3F800000#32 s.mix)) (F32.mul (mean .left) s.mix) ∧
    t.outR = F32.add (F32.mul s.inR (F32.sub 0x3F800000#32 s.mix)) (F32.mul (mean .right) s.mix)

/-- The spec's own inference "Boot requirements" of 70_reset: a STEP straight after reset passes a finite input through dry and sets no error. -/
def Obligations.ResetBlockPassesInputsDry : Prop :=
  ∀ (c : Config) (inL inR : Word) (t : State), F32.isFinite inL = true → F32.isFinite inR = true →
    exec .step { State.atReset c with inL := inL, inR := inR } = .next t →
    F32.numEq t.outL inL = true ∧ F32.numEq t.outR inR = true ∧ t.status = 0#32

/-! ### binary32 (00_scope section 5) -/

/-- 00_scope section 5, with IEEE 754's semantics from general knowledge (log 1): fadd and fsub of finite values are the
exact sum and difference rounded once, to nearest, ties to even. An exact zero sum is −0 only of two negative zeros, and
a difference is the sum with the second operand's sign inverted; every other zero sum or difference is +0. -/
def Obligations.SumsAreCorrectlyRounded : Prop :=
  ∀ a b : Word, F32.isFinite a = true → F32.isFinite b = true →
    Rounds (F32.add a b) (F32.key a + F32.key b) 1 ∧
    (F32.key a + F32.key b = 0 → F32.add a b = signedZero (F32.sign a && F32.sign b)) ∧
    Rounds (F32.sub a b) (F32.key a - F32.key b) 1 ∧
    (F32.key a - F32.key b = 0 → F32.sub a b = signedZero (F32.sign a && !F32.sign b))

/-- 00_scope section 5, with IEEE 754's semantics from general knowledge (log 1): fmul and fdiv of finite values are the
exact product and quotient rounded once, to nearest, ties to even; the sign of every result, a zero included, is the
exclusive or of the operands' signs. -/
def Obligations.ProductsAndQuotientsAreCorrectlyRounded : Prop :=
  ∀ a b : Word, F32.isFinite a = true → F32.isFinite b = true →
    Rounds (F32.mul a b) (F32.key a * F32.key b) (2 ^ 149) ∧
    F32.sign (F32.mul a b) = (F32.sign a ^^ F32.sign b) ∧
    (0 < F32.key b → Rounds (F32.div a b) (F32.key a * 2 ^ 149) (F32.key b)) ∧
    (F32.key b < 0 → Rounds (F32.div a b) (-(F32.key a * 2 ^ 149)) (-F32.key b)) ∧
    (F32.key b ≠ 0 → F32.sign (F32.div a b) = (F32.sign a ^^ F32.sign b))

/-- 00_scope section 5, with IEEE 754's semantics from general knowledge (log 1): an operation gives a NaN exactly when
an operand is a NaN or the operation is invalid (infinities of opposite signs added or of one sign subtracted, zero
times infinity, zero by zero, infinity by infinity), and the NaN is then the default NaN, whatever the operands. -/
def Obligations.NaNResultsAreTheDefaultNaN : Prop :=
  (∀ a b r : Word, r ∈ [F32.add a b, F32.sub a b, F32.mul a b, F32.div a b] → F32.isNaN r = true →
    r = 0x7FC00000#32) ∧
  ∀ a b : Word,
    (F32.isNaN (F32.add a b) = true ↔ F32.isNaN a = true ∨ F32.isNaN b = true ∨
      (F32.isInf a = true ∧ F32.isInf b = true ∧ F32.sign a ≠ F32.sign b)) ∧
    (F32.isNaN (F32.sub a b) = true ↔ F32.isNaN a = true ∨ F32.isNaN b = true ∨
      (F32.isInf a = true ∧ F32.isInf b = true ∧ F32.sign a = F32.sign b)) ∧
    (F32.isNaN (F32.mul a b) = true ↔ F32.isNaN a = true ∨ F32.isNaN b = true ∨
      (F32.isInf a = true ∧ F32.isZero b = true) ∨ (F32.isZero a = true ∧ F32.isInf b = true)) ∧
    (F32.isNaN (F32.div a b) = true ↔ F32.isNaN a = true ∨ F32.isNaN b = true ∨
      (F32.isInf a = true ∧ F32.isInf b = true) ∨ (F32.isZero a = true ∧ F32.isZero b = true))

/-- R22: the clamp's definition, that a NaN gives lo and −0 gives +0.0 when that is lo, and that the result lies
between the bounds. -/
def Obligations.ClampStaysBetweenItsBounds : Prop :=
  ∀ x lo hi : Word, F32.le lo hi = true →
    F32.clamp x lo hi = (if F32.gt x lo then (if F32.lt x hi then x else hi) else lo) ∧
    (F32.isNaN x = true → F32.clamp x lo hi = lo) ∧
    (lo = 0x00000000#32 → x = 0x80000000#32 → F32.clamp x lo hi = lo) ∧
    F32.le lo (F32.clamp x lo hi) = true ∧ F32.le (F32.clamp x lo hi) hi = true

/-- 00_scope section 5, with binary32's layout from general knowledge (log 1): f32(n) is exact for |n| ≤ 2^24, floor is the greatest integer not above x, and rnd is floor(x + 1/2), both
exactly (keys count units of 2^−149). -/
def Obligations.IntegerConversionsAreExact : Prop :=
  (∀ n : Int, |n| ≤ 2 ^ 24 → F32.isFinite (F32.ofInt n) = true ∧ F32.key (F32.ofInt n) = n * 2 ^ 149) ∧
  (∀ x : Word, F32.isFinite x = true →
    F32.floor x * 2 ^ 149 ≤ F32.key x ∧ F32.key x < (F32.floor x + 1) * 2 ^ 149 ∧
    2 * F32.rnd x * 2 ^ 149 ≤ 2 * F32.key x + 2 ^ 149 ∧ 2 * F32.key x + 2 ^ 149 < 2 * (F32.rnd x + 1) * 2 ^ 149)

/-! ### Invariants (10_state section 4) -/

/-- The spec's own inference "Invariants that every operation preserves" of 10_state: every step keeps the invariants, from every state that has them, and every reset state of an admissible
configuration has them; CFG and CFG_STG never read a reserved code. -/
def Obligations.StepKeepsTheInvariants : Prop :=
  (∀ c : Config, c.wf → (State.atReset c).Inv) ∧
  ∀ s t : State, s.Inv → step s = .next t → t.Inv ∧
    ∀ l ∈ t.lines, (cfgWord l.cfg).extractLsb' 0 2 ≠ 3#2 ∧ (cfgWord l.cfg).extractLsb' 4 2 ≠ 3#2 ∧
      (cfgWord l.cfgStg).extractLsb' 0 2 ≠ 3#2 ∧ (cfgWord l.cfgStg).extractLsb' 4 2 ≠ 3#2

/-- The reset state of the machine has the invariants, whatever admissible configuration the implementation has. -/
def Obligations.ResetHasTheInvariants : Prop := State.reset.Inv

/-- No step changes the configuration, whatever the host does; that State carries it is the model's choice (log 4). -/
def Obligations.StepKeepsTheConfiguration : Prop :=
  ∀ s t : State, step s = .next t → t.config = s.config

/-! ### Infinities and zero divisors (00_scope section 5) -/

/-- 00_scope section 5, with IEEE 754's semantics from general knowledge (log 1): the operations on infinities, and a
division by zero, that are not invalid. An infinity added to, or reduced by, any other value stays; the product of an
infinity and a value that is not zero, and the quotient of an infinity by a finite value or of a finite value that is
not zero by a zero, are infinite; a finite value by an infinity is zero; each with the exclusive or of the signs. -/
def Obligations.InfinitiesAndZeroDivisorsGiveTheirLimits : Prop :=
  ∀ a b : Word,
    (F32.isInf a = true → F32.isNaN b = false → (F32.isInf b = true → F32.sign a = F32.sign b) → F32.add a b = a) ∧
    (F32.isInf b = true → F32.isNaN a = false → (F32.isInf a = true → F32.sign a = F32.sign b) → F32.add a b = b) ∧
    (F32.isInf a = true → F32.isNaN b = false → (F32.isInf b = true → F32.sign a ≠ F32.sign b) → F32.sub a b = a) ∧
    (F32.isInf b = true → F32.isNaN a = false → (F32.isInf a = true → F32.sign a ≠ F32.sign b) →
      F32.sub a b = infinity (!F32.sign b)) ∧
    (F32.isInf a = true → F32.isNaN b = false → F32.isZero b = false →
      F32.mul a b = infinity (F32.sign a ^^ F32.sign b)) ∧
    (F32.isInf b = true → F32.isNaN a = false → F32.isZero a = false →
      F32.mul a b = infinity (F32.sign a ^^ F32.sign b)) ∧
    (F32.isInf a = true → F32.isFinite b = true → F32.div a b = infinity (F32.sign a ^^ F32.sign b)) ∧
    (F32.isFinite a = true → F32.isZero a = false → F32.isZero b = true →
      F32.div a b = infinity (F32.sign a ^^ F32.sign b)) ∧
    (F32.isFinite a = true → F32.isInf b = true → F32.div a b = signedZero (F32.sign a ^^ F32.sign b))
end

