-- ==== Sys2Proof/Laws/Buffer.lean ====
section
/-!
SUPPORT. The delay buffers: a byte read after a byte write, and every write keeps the canonical form and the buffer's
size.
-/

namespace Sys2Proof.Machine

@[simp] theorem bufReadByte_nil (a : Nat) : bufReadByte [] a = 0#8 := rfl

/-- Below every listed key, a buffer reads 0. -/
theorem bufReadByte_of_lt {m : Buffer} {a : Nat} (h : ∀ c ∈ m, a < c.1) : bufReadByte m a = 0#8 := by
  induction m with
  | nil => rfl
  | cons c rest ih =>
    obtain ⟨k, b⟩ := c
    have hk : a < k := h (k, b) (by simp)
    have : k ≠ a := by omega
    simp only [bufReadByte, this, if_false]
    exact ih fun c hc => h c (by simp [hc])

/-- Every key of a written buffer is the key written or was there before. -/
theorem mem_bufWriteByte {m : Buffer} {a : Nat} {v : Byte} {c : Host.Cell} (h : c ∈ bufWriteByte m a v) :
    c = (a, v) ∧ v ≠ 0#8 ∨ c ∈ m := by
  induction m with
  | nil =>
    simp only [bufWriteByte] at h
    split at h <;> simp_all
  | cons d rest ih =>
    obtain ⟨k, b⟩ := d
    simp only [bufWriteByte] at h
    split at h
    · split at h
      · exact .inr h
      · rcases List.mem_cons.mp h with h | h
        · exact .inl ⟨h, by assumption⟩
        · exact .inr h
    · split at h
      · split at h
        · exact .inr (List.mem_cons_of_mem _ h)
        · rcases List.mem_cons.mp h with h | h
          · exact .inl ⟨h, by assumption⟩
          · exact .inr (List.mem_cons_of_mem _ h)
      · rcases List.mem_cons.mp h with h | h
        · exact .inr (by simp [h])
        · rcases ih h with h | h
          · exact .inl h
          · exact .inr (List.mem_cons_of_mem _ h)

/-- A byte write keeps the canonical form. -/
theorem bufWriteByte_wf {m : Buffer} (a : Nat) (v : Byte) (h : Buffer.wf m) : Buffer.wf (bufWriteByte m a v) := by
  refine ⟨?_, fun c hc => ?_⟩
  · obtain ⟨hp, -⟩ := h
    induction m with
    | nil => simp only [bufWriteByte]; split <;> simp
    | cons d rest ih =>
      obtain ⟨k, b⟩ := d
      have hk := (List.pairwise_cons.mp hp).1
      have hr := (List.pairwise_cons.mp hp).2
      simp only [bufWriteByte]
      split
      · split
        · exact hp
        · refine List.pairwise_cons.mpr ⟨fun c hc => ?_, hp⟩
          rcases List.mem_cons.mp hc with rfl | hc
          · assumption
          · have := hk c hc; simp_all; omega
      · split
        · split
          · exact hr
          · rename_i h1 h2 h3
            exact List.pairwise_cons.mpr ⟨fun c hc => by have := hk c hc; simp_all, hr⟩
        · refine List.pairwise_cons.mpr ⟨fun c hc => ?_, ih hr⟩
          rcases mem_bufWriteByte hc with ⟨rfl, -⟩ | hc
          · simp; omega
          · exact hk c hc
  · rcases mem_bufWriteByte hc with ⟨rfl, hv⟩ | hc
    · exact hv
    · exact h.2 c hc

/-- A byte read after a byte write, of a canonical buffer: the byte written at the key written, else as before. -/
theorem bufReadByte_bufWriteByte {m : Buffer} (h : Buffer.wf m) (a a' : Nat) (v : Byte) :
    bufReadByte (bufWriteByte m a v) a' = if a' = a then v else bufReadByte m a' := by
  obtain ⟨hp, -⟩ := h
  induction m with
  | nil =>
    simp only [bufWriteByte]
    split
    · simp_all
    · by_cases ha : a' = a
      · subst ha; simp [bufReadByte]
      · have ha' : ¬ a = a' := fun h => ha h.symm
        simp [bufReadByte, ha, ha']
  | cons d rest ih =>
    obtain ⟨k, b⟩ := d
    have hk := (List.pairwise_cons.mp hp).1
    have hr := (List.pairwise_cons.mp hp).2
    have hz : ∀ x ≤ k, bufReadByte rest x = 0#8 := fun x hx =>
      bufReadByte_of_lt fun c hc => by have := hk c hc; simp at this; omega
    simp only [bufWriteByte]
    split
    · rename_i hlt
      split
      · rename_i hv
        by_cases ha : a' = a
        · subst ha
          have : k ≠ a' := by omega
          simp [bufReadByte, this, hz a' (by omega), hv]
        · simp [ha]
      · by_cases ha : a' = a
        · subst ha; simp [bufReadByte]
        · have ha' : ¬ a = a' := fun h => ha h.symm
          simp [bufReadByte, ha, ha']
    · split
      · rename_i hka
        subst hka
        split
        · rename_i hv
          by_cases ha : a' = a
          · subst ha; simp [hz a' (by omega), hv]
          · have ha' : ¬ a = a' := fun h => ha h.symm
            simp [bufReadByte, ha, ha']
        · by_cases ha : a' = a
          · subst ha; simp [bufReadByte]
          · have ha' : ¬ a = a' := fun h => ha h.symm
            simp [bufReadByte, ha, ha']
      · simp only [bufReadByte]
        by_cases hka : k = a'
        · have : a' ≠ a := by omega
          simp [hka, this]
        · simp only [hka, if_false]
          exact ih hr

/-- A word write keeps the canonical form. -/
theorem bufWrite_wf {m : Buffer} (j : Nat) (v : Word) (h : Buffer.wf m) : Buffer.wf (bufWrite m j v) :=
  bufWriteByte_wf _ _ (bufWriteByte_wf _ _ (bufWriteByte_wf _ _ (bufWriteByte_wf _ _ h)))

/-- A word write inside the buffer keeps the buffer's size. -/
theorem bufWrite_within {m : Buffer} {cap j : Nat} (v : Word) (hj : j < cap) (h : Buffer.within m cap) :
    Buffer.within (bufWrite m j v) cap := by
  intro c hc
  rcases mem_bufWriteByte hc with ⟨rfl, -⟩ | hc
  · simp; omega
  rcases mem_bufWriteByte hc with ⟨rfl, -⟩ | hc
  · simp; omega
  rcases mem_bufWriteByte hc with ⟨rfl, -⟩ | hc
  · simp; omega
  rcases mem_bufWriteByte hc with ⟨rfl, -⟩ | hc
  · simp; omega
  exact h c hc

/-- The empty buffer, every word +0.0, is canonical. -/
theorem nil_wf : Buffer.wf [] := ⟨List.Pairwise.nil, by simp⟩

end Sys2Proof.Machine
end

