-- ==== Sys2Proof/Laws/Decode.lean ====
section
/-!
SUPPORT. The fields of the words the encoder packs, and what the decoder reads from each of its four forms: proofs
about encoding cite these and never take a 48-bit word apart.
-/

namespace Sys2Proof

/-- Bit i of the word W, A, D (30_encoding R90). -/
theorem packTxn_getLsbD (w : Bool) (a : Addr) (data : Word) (i : Nat) :
    (packTxn w a data).getLsbD i =
      if i < 32 then data.getLsbD i else if i < 47 then a.getLsbD (i - 32) else i == 47 && w := by
  have outer := BitVec.getLsbD_append (x := BitVec.ofBool w ++ a) (y := data) (i := i)
  have inner := BitVec.getLsbD_append (x := BitVec.ofBool w) (y := a) (i := i - 32)
  refine outer.trans ?_
  by_cases h : i < 32
  · simp [h]
  · simp only [h, if_false]
    refine inner.trans ?_
    by_cases h' : i < 47
    · simp [h', show i - 32 < 15 by omega]
    · have hf : ¬i - 32 < 15 := by omega
      simp only [hf, h', if_false, BitVec.getLsbD_ofBool]
      by_cases h47 : i = 47
      · subst h47; rfl
      · simp [h47, show ¬i - 32 - 15 = 0 by omega]

/-- Bit i of a global register's address (R93). -/
theorem globalAddr_getLsbD (index : BitVec 12) (i : Nat) :
    (globalAddr index).getLsbD i = if i < 12 then index.getLsbD i else false := by
  refine (BitVec.getLsbD_append (x := 0#3) (y := index) (i := i)).trans ?_
  by_cases h : i < 12 <;> simp [h]

/-- Bit i of a line register's address (R92). -/
theorem lineAddr_getLsbD (d : LineIx) (off : BitVec 5) (i : Nat) :
    (lineAddr d off).getLsbD i = if i < 5 then off.getLsbD i else if i < 12 then d.getLsbD (i - 5) else i == 12 := by
  have outer := BitVec.getLsbD_append (x := 1#3 ++ d) (y := off) (i := i)
  have inner := BitVec.getLsbD_append (x := 1#3) (y := d) (i := i - 5)
  refine outer.trans ?_
  by_cases h : i < 5
  · simp [h]
  · simp only [h, if_false]
    refine inner.trans ?_
    by_cases h' : i < 12
    · simp [h', show i - 5 < 7 by omega]
    · have hf : ¬i - 5 < 7 := by omega
      simp only [hf, h', if_false]
      by_cases h12 : i = 12
      · subst h12; rfl
      · by_cases h13 : i - 5 - 7 < 3
        · (interval_cases hk : i - 5 - 7 <;> simp_all; omega)
        · rw [BitVec.getLsbD_of_ge _ _ (by omega)]; simp [h12]

@[simp] theorem txnWrite_packTxn (w : Bool) (a : Addr) (data : Word) : txnWrite (packTxn w a data) = w := by
  rw [txnWrite, packTxn_getLsbD]; rfl

@[simp] theorem txnAddr_packTxn (w : Bool) (a : Addr) (data : Word) : txnAddr (packTxn w a data) = a := by
  apply BitVec.eq_of_getLsbD_eq
  intro i hi
  rw [txnAddr, BitVec.getLsbD_extractLsb', packTxn_getLsbD]
  simp [hi, show 32 + i < 47 by omega]

@[simp] theorem txnData_packTxn (w : Bool) (a : Addr) (data : Word) : txnData (packTxn w a data) = data := by
  apply BitVec.eq_of_getLsbD_eq
  intro i hi
  rw [txnData, BitVec.getLsbD_extractLsb', packTxn_getLsbD]
  simp [hi]

@[simp] theorem addrRegion_globalAddr (index : BitVec 12) : addrRegion (globalAddr index) = 0 := by
  have h : (globalAddr index).extractLsb' 12 3 = 0#3 := by
    apply BitVec.eq_of_getLsbD_eq
    intro i hi
    rw [BitVec.getLsbD_extractLsb', globalAddr_getLsbD]
    simp
  rw [addrRegion, h]; rfl

@[simp] theorem addrIndex_globalAddr (index : BitVec 12) : addrIndex (globalAddr index) = index.toNat := by
  have h : (globalAddr index).extractLsb' 0 12 = index := by
    apply BitVec.eq_of_getLsbD_eq
    intro i hi
    rw [BitVec.getLsbD_extractLsb', globalAddr_getLsbD]
    simp [hi]
  rw [addrIndex, h]

@[simp] theorem addrRegion_lineAddr (d : LineIx) (off : BitVec 5) : addrRegion (lineAddr d off) = 1 := by
  have h : (lineAddr d off).extractLsb' 12 3 = 1#3 := by
    apply BitVec.eq_of_getLsbD_eq
    intro i hi
    rw [BitVec.getLsbD_extractLsb', lineAddr_getLsbD]
    interval_cases i <;> simp
  rw [addrRegion, h]; rfl

@[simp] theorem addrLine_lineAddr (d : LineIx) (off : BitVec 5) : addrLine (lineAddr d off) = d := by
  apply BitVec.eq_of_getLsbD_eq
  intro i hi
  rw [addrLine, BitVec.getLsbD_extractLsb', lineAddr_getLsbD]
  simp [hi, show 5 + i < 12 by omega]

@[simp] theorem addrOffset_lineAddr (d : LineIx) (off : BitVec 5) : addrOffset (lineAddr d off) = off.toNat := by
  have h : (lineAddr d off).extractLsb' 0 5 = off := by
    apply BitVec.eq_of_getLsbD_eq
    intro i hi
    rw [BitVec.getLsbD_extractLsb', lineAddr_getLsbD]
    simp [hi]
  rw [addrOffset, h]

/-- A read in the global region, whatever its D (R105). -/
theorem decode_packTxn_globalRead (n : Nat) (index : BitVec 12) (data : Word) :
    decode n (packTxn false (globalAddr index) data) = decodeGlobalRead index.toNat := by
  simp [decode]

/-- A write in the global region. -/
theorem decode_packTxn_globalWrite (n : Nat) (index : BitVec 12) (data : Word) :
    decode n (packTxn true (globalAddr index) data) = decodeGlobalWrite index.toNat data := by
  simp [decode]

/-- A read in the line region, whatever its D (R105). -/
theorem decode_packTxn_lineRead (n : Nat) (d : LineIx) (off : BitVec 5) (data : Word) :
    decode n (packTxn false (lineAddr d off) data) =
      if n ≤ d.toNat then .error .eaddr else decodeLineRead d off.toNat := by
  simp [decode]

/-- A write in the line region. -/
theorem decode_packTxn_lineWrite (n : Nat) (d : LineIx) (off : BitVec 5) (data : Word) :
    decode n (packTxn true (lineAddr d off) data) =
      if n ≤ d.toNat then .error .eaddr else decodeLineWrite d off.toNat data := by
  simp [decode]

/-- A word is the packing of its own fields (R90). -/
theorem packTxn_fields (t : Txn) : packTxn (txnWrite t) (txnAddr t) (txnData t) = t := by
  apply BitVec.eq_of_getLsbD_eq
  intro i hi
  rw [packTxn_getLsbD, txnAddr, txnData, txnWrite, BitVec.getLsbD_extractLsb', BitVec.getLsbD_extractLsb']
  by_cases h : i < 32
  · simp [h]
  · by_cases h' : i < 47
    · simp [h, h', show i - 32 < 15 by omega, show 32 + (i - 32) = i by omega]
    · have : i = 47 := by omega
      subst this; simp

/-- An address of region 0 is its index's (R91, R93). -/
theorem globalAddr_fields {a : Addr} (h : addrRegion a = 0) : globalAddr (a.extractLsb' 0 12) = a := by
  have h3 : a.extractLsb' 12 3 = 0#3 := BitVec.eq_of_toNat_eq h
  apply BitVec.eq_of_getLsbD_eq
  intro i hi
  rw [globalAddr_getLsbD, BitVec.getLsbD_extractLsb']
  by_cases hl : i < 12
  · simp [hl]
  · have := congrArg (fun v => v.getLsbD (i - 12)) h3
    simp only [BitVec.getLsbD_extractLsb'] at this
    simp [hl]
    simpa [show i - 12 < 3 by omega, show 12 + (i - 12) = i by omega] using this.symm

/-- An address of region 1 is its line's and offset's (R92). -/
theorem lineAddr_fields {a : Addr} (h : addrRegion a = 1) : lineAddr (addrLine a) (a.extractLsb' 0 5) = a := by
  have h3 : a.extractLsb' 12 3 = 1#3 := BitVec.eq_of_toNat_eq h
  apply BitVec.eq_of_getLsbD_eq
  intro i hi
  rw [lineAddr_getLsbD, addrLine, BitVec.getLsbD_extractLsb', BitVec.getLsbD_extractLsb']
  by_cases h5 : i < 5
  · simp [h5]
  · by_cases h12 : i < 12
    · simp [h5, h12, show i - 5 < 7 by omega, show 5 + (i - 5) = i by omega]
    · have := congrArg (fun v => v.getLsbD (i - 12)) h3
      simp only [BitVec.getLsbD_extractLsb'] at this
      have h3' : i = 12 ∨ i = 13 ∨ i = 14 := by omega
      rcases h3' with rfl | rfl | rfl <;> simpa using this.symm

end Sys2Proof
end

