-- ==== Sys2Proof/Laws/Flags.lean ====
section
/-!
SUPPORT. The bits of STATUS after each of its updates (10_state R35), and the words the status operations give in the
spec's own terms.
-/

namespace Sys2Proof.Machine

/-- Only bit b of `bitWord b` is set. -/
theorem bitWord_getLsbD {b : Nat} (hb : b < 32) (i : Nat) : (bitWord b).getLsbD i = decide (i = b) := by
  unfold bitWord
  rw [BitVec.getLsbD_shiftLeft, BitVec.getLsbD_one]
  by_cases h : i = b
  · subst h; simp [hb]
  · by_cases h2 : i < b
    · simp [h, h2]
    · simp [h, show ¬i - b = 0 by omega]

/-- Setting bit b sets it and no other. -/
theorem setStatusBit_getLsbD {b : Nat} (hb : b < 32) (status : Word) (i : Nat) :
    (setStatusBit b status).getLsbD i = (status.getLsbD i || decide (i = b)) := by
  rw [setStatusBit, BitVec.getLsbD_or, bitWord_getLsbD hb]

/-- Clearing bit b clears it and no other. -/
theorem clearStatusBit_getLsbD {b : Nat} (hb : b < 32) (status : Word) (i : Nat) :
    (clearStatusBit b status).getLsbD i = (status.getLsbD i && !decide (i = b)) := by
  rw [clearStatusBit, BitVec.getLsbD_and, BitVec.getLsbD_not, bitWord_getLsbD hb]
  by_cases h : i < 32
  · simp [h]
  · simp [h, BitVec.getLsbD_of_ge status i (by omega)]

/-- A W1C write clears the bits 4:0 written 1 and no other (R123). -/
theorem clearSticky_getLsbD (status data : Word) (i : Nat) :
    (clearSticky status data).getLsbD i = (status.getLsbD i && !(data.getLsbD i && decide (i < 5))) := by
  rw [clearSticky, BitVec.getLsbD_and, BitVec.getLsbD_not, BitVec.getLsbD_and]
  by_cases h : i < 32
  · have hm : stickyMask.getLsbD i = decide (i < 5) := by
      unfold stickyMask; interval_cases i <;> rfl
    rw [hm]; simp [h]
  · simp [h, BitVec.getLsbD_of_ge status i (by omega)]

/-- No decode error stands exactly when STATUS[3:0] is 0 (R301). -/
theorem noDecodeError_iff (status : Word) : noDecodeError status = true ↔ status.extractLsb' 0 4 = 0#4 := by
  unfold noDecodeError
  rw [beq_iff_eq]
  constructor <;> intro h
  · apply BitVec.eq_of_getLsbD_eq
    intro i hi
    have hb := congrArg (fun w => w.getLsbD i) h
    simp only [BitVec.getLsbD_and, decodeErrorMask] at hb
    rw [BitVec.getLsbD_extractLsb']
    interval_cases i <;> simpa using hb
  · apply BitVec.eq_of_getLsbD_eq
    intro i hi
    rw [BitVec.getLsbD_and, decodeErrorMask]
    by_cases h4 : i < 4
    · have hb := congrArg (fun w => w.getLsbD i) h
      rw [BitVec.getLsbD_extractLsb'] at hb
      interval_cases i <;> simpa using hb
    · interval_cases i <;> first | omega | simp

/-- The error bits are the four low bits. -/
theorem errorBit_lt (k : ErrorKind) : errorBit k < 4 := by cases k <;> decide

end Sys2Proof.Machine
end

