-- ==== Sys2Proof/Laws/Float.lean ====
section
/-!
SUPPORT. What binary32 encoding and rounding do, said once: the value of a packed word, the order of the magnitudes,
and that `roundMag` answers the nearest magnitude, ties to even, with overflow to infinity (00_scope R21, R25).
-/

namespace Sys2Proof.Machine.F32

/-- The value, in units of 2^−149, of the magnitude bits m. -/
def unitsOf (m : Nat) : Nat := if m / 2 ^ 23 = 0 then m else (2 ^ 23 + m % 2 ^ 23) * 2 ^ (m / 2 ^ 23 - 1)

/-- A word's value is that of its magnitude bits. -/
theorem units_eq_unitsOf (w : Word) : units w = unitsOf (magnitude w) := by
  have hm : magnitude w = exponent w * 2 ^ 23 + fraction w := by
    unfold magnitude exponent fraction; omega
  have hf : fraction w < 2 ^ 23 := Nat.mod_lt _ (by norm_num)
  have h1 : magnitude w / 2 ^ 23 = exponent w := by omega
  have h2 : magnitude w % 2 ^ 23 = fraction w := by omega
  unfold units unitsOf
  rw [h1, h2]
  by_cases h : exponent w = 0
  · simp only [h, if_true]; omega
  · simp only [h, if_false]

/-- A significand s of at most 2^24, at least 2^23 unless nothing is dropped, over `shift` dropped bits. -/
theorem unitsOf_significand {shift s : Nat} (hs : s ≤ 2 ^ 24) (h : shift = 0 ∨ 2 ^ 23 ≤ s) :
    unitsOf (shift * 2 ^ 23 + s) = s * 2 ^ shift := by
  unfold unitsOf
  by_cases h24 : s = 2 ^ 24
  · have h1 : (shift * 2 ^ 23 + s) / 2 ^ 23 = shift + 2 := by omega
    have h2 : (shift * 2 ^ 23 + s) % 2 ^ 23 = 0 := by omega
    rw [h1, h2, if_neg (by omega), h24, show shift + 2 - 1 = shift + 1 by omega, Nat.pow_succ]; ring
  · by_cases h23 : 2 ^ 23 ≤ s
    · have h1 : (shift * 2 ^ 23 + s) / 2 ^ 23 = shift + 1 := by omega
      have h2 : (shift * 2 ^ 23 + s) % 2 ^ 23 = s - 2 ^ 23 := by omega
      rw [h1, h2, if_neg (by omega), Nat.add_sub_cancel' h23, Nat.add_sub_cancel]
    · have h0 : shift = 0 := by omega
      subst h0
      rw [if_pos (by omega)]; simp

/-- Larger magnitude bits are larger values. -/
theorem unitsOf_lt_succ (m : Nat) : unitsOf m < unitsOf (m + 1) := by
  obtain ⟨shift, s, rfl, hs, h⟩ : ∃ shift s, m = shift * 2 ^ 23 + s ∧ s < 2 ^ 24 ∧ (shift = 0 ∨ 2 ^ 23 ≤ s) := by
    by_cases h : m < 2 ^ 24
    · exact ⟨0, m, by omega, h, .inl rfl⟩
    · exact ⟨m / 2 ^ 23 - 1, m % 2 ^ 23 + 2 ^ 23, by omega, by omega, .inr (by omega)⟩
  rw [Nat.add_assoc, unitsOf_significand (Nat.le_of_lt hs) h, unitsOf_significand (by omega) (by omega)]
  exact Nat.mul_lt_mul_of_pos_right (by omega) (by positivity)

theorem unitsOf_strictMono : StrictMono unitsOf := strictMono_nat_of_lt_succ unitsOf_lt_succ

@[simp] theorem unitsOf_zero : unitsOf 0 = 0 := rfl

/-! ### A packed word -/

theorem magnitude_pack (negative : Bool) {mag : Nat} (h : mag < 2 ^ 31) : magnitude (pack negative mag) = mag := by
  unfold magnitude pack
  rw [BitVec.toNat_ofNat]
  cases negative <;> simp <;> omega

theorem sign_pack (negative : Bool) {mag : Nat} (h : mag < 2 ^ 31) : sign (pack negative mag) = negative := by
  unfold sign pack
  rw [BitVec.msb_eq_decide, BitVec.toNat_ofNat]
  cases negative <;> simp <;> omega

theorem units_pack (negative : Bool) {mag : Nat} (h : mag < 2 ^ 31) : units (pack negative mag) = unitsOf mag := by
  rw [units_eq_unitsOf, magnitude_pack negative h]

theorem key_pack (negative : Bool) {mag : Nat} (h : mag < 2 ^ 31) :
    key (pack negative mag) = if negative then -(unitsOf mag : Int) else unitsOf mag := by
  rw [key, sign_pack negative h, units_pack negative h]

/-- A word is finite exactly when its magnitude bits are below those of infinity. -/
theorem isFinite_iff (w : Word) : isFinite w = true ↔ magnitude w < infMagnitude := by
  unfold isFinite
  rw [decide_eq_true_iff]
  unfold exponent magnitude maxExponent infMagnitude
  omega

/-- A word is a NaN exactly when its magnitude bits are above those of infinity. -/
theorem isNaN_iff (w : Word) : isNaN w = true ↔ infMagnitude < magnitude w := by
  unfold isNaN
  rw [Bool.and_eq_true, decide_eq_true_iff, decide_eq_true_iff]
  unfold exponent fraction magnitude maxExponent infMagnitude
  omega

/-- A word is an infinity exactly when its magnitude bits are those of infinity. -/
theorem isInf_iff (w : Word) : isInf w = true ↔ magnitude w = infMagnitude := by
  unfold isInf
  rw [Bool.and_eq_true, decide_eq_true_iff, decide_eq_true_iff]
  unfold exponent fraction magnitude maxExponent infMagnitude
  omega

/-- A word is its sign and magnitude bits. -/
theorem pack_fields (w : Word) : pack (sign w) (magnitude w) = w := by
  apply BitVec.eq_of_toNat_eq
  have := w.isLt
  unfold pack sign magnitude
  rw [BitVec.toNat_ofNat, BitVec.msb_eq_decide]
  by_cases h : 2 ^ 31 ≤ w.toNat
  · simp only [Nat.add_one_sub_one, h, decide_true, if_true]; omega
  · simp only [Nat.add_one_sub_one, h, decide_false, Bool.false_eq_true, if_false]; omega

/-! ### Rounding -/

/-- The cut of num / den at a 24-bit significand: what is kept, the rest, and the unit dropped. -/
theorem roundMag_cut (num : Nat) {den : Nat} (hd : 0 < den) :
    ∃ shift kept rest, num = kept * (den * 2 ^ shift) + rest ∧ rest < den * 2 ^ shift ∧ kept < 2 ^ 24 ∧
      (shift = 0 ∨ 2 ^ 23 ≤ kept) ∧
      roundMag num den = min (shift * 2 ^ 23 +
        if 2 * rest > den * 2 ^ shift ∨ (2 * rest = den * 2 ^ shift ∧ kept % 2 = 1) then kept + 1 else kept)
        infMagnitude := by
  refine ⟨(num / den).log2 - 23, num / (den * 2 ^ ((num / den).log2 - 23)),
    num % (den * 2 ^ ((num / den).log2 - 23)), ?_, Nat.mod_lt _ (by positivity), ?_, ?_, rfl⟩
  · rw [Nat.mul_comm]; exact (Nat.div_add_mod _ _).symm
  · rw [← Nat.div_div_eq_div_mul, Nat.div_lt_iff_lt_mul (by positivity), ← Nat.pow_add]
    by_cases h0 : num / den = 0
    · rw [h0]; positivity
    · exact Nat.lt_of_lt_of_le Nat.lt_log2_self (Nat.pow_le_pow_right (by norm_num) (by omega))
  · by_cases h : (num / den).log2 ≤ 23
    · exact .inl (by omega)
    · right
      have h0 : num / den ≠ 0 := by rintro h0; rw [h0] at h; simp at h
      rw [← Nat.div_div_eq_div_mul, Nat.le_div_iff_mul_le (by positivity), ← Nat.pow_add]
      exact Nat.le_trans (Nat.pow_le_pow_right (by norm_num) (by omega)) (Nat.log2_self_le h0)

/-- Below the overflow threshold, the midpoint of the largest finite magnitude and 2^128, the rounded magnitude is
finite; no finite magnitude is nearer to num / den; and one as near with another value means that the rounded one is
even (R21). -/
theorem roundMag_nearest {num den : Nat} (hd : 0 < den) (h : num < (2 ^ 25 - 1) * 2 ^ 252 * den) :
    roundMag num den < infMagnitude ∧ ∀ m : Nat,
      |(unitsOf (roundMag num den) * den : Int) - num| ≤ |(unitsOf m * den : Int) - num| ∧
      (|(unitsOf (roundMag num den) * den : Int) - num| = |(unitsOf m * den : Int) - num| → m ≠ roundMag num den →
        roundMag num den % 2 = 0) := by
  obtain ⟨shift, kept, rest, hnum, hrest, hk, hs, hr⟩ := roundMag_cut num hd
  set unit := den * 2 ^ shift with hunit
  have hup : 0 < unit := by positivity
  -- the two candidates around num / den
  have ulo : unitsOf (shift * 2 ^ 23 + kept) * den = kept * unit := by
    rw [unitsOf_significand (by omega) hs, hunit]; ring
  have uhi : unitsOf (shift * 2 ^ 23 + kept + 1) * den = (kept + 1) * unit := by
    rw [Nat.add_assoc, unitsOf_significand (by omega) (by omega), hunit]; ring
  -- the result is finite
  have hfin : shift * 2 ^ 23 +
      (if 2 * rest > unit ∨ (2 * rest = unit ∧ kept % 2 = 1) then kept + 1 else kept) < infMagnitude := by
    have hkn : kept * 2 ^ shift < (2 ^ 25 - 1) * 2 ^ 252 := by
      have h1 : kept * unit < (2 ^ 25 - 1) * 2 ^ 252 * den := by omega
      have h2 : kept * unit = (kept * 2 ^ shift) * den := by rw [hunit]; ring
      rw [h2] at h1
      exact lt_of_mul_lt_mul_right h1 (Nat.zero_le _)
    have hshift : shift ≤ 253 := by
      by_contra hc
      have h3 : 2 ^ 23 ≤ kept := by omega
      have h4 : 2 ^ 23 * 2 ^ 254 ≤ kept * 2 ^ shift :=
        Nat.mul_le_mul h3 (Nat.pow_le_pow_right (by norm_num) (by omega))
      have h5 : (2 ^ 25 - 1) * 2 ^ 252 < 2 ^ 23 * 2 ^ 254 := by norm_num
      omega
    unfold infMagnitude
    by_cases h253 : shift = 253
    · by_cases hk24 : kept = 2 ^ 24 - 1
      · have hlt : 2 * rest < unit := by
          rw [h253] at hunit
          rw [hnum, hk24, hunit] at h
          rw [hunit]
          have e1 : (2 ^ 25 - 1) * 2 ^ 252 * den = (2 ^ 24 - 1) * (den * 2 ^ 253) + den * 2 ^ 252 := by ring
          have e2 : den * 2 ^ 253 = 2 * (den * 2 ^ 252) := by ring
          omega
        rw [if_neg (by omega)]; omega
      · split <;> omega
    · split <;> omega
  rw [Nat.min_eq_left (Nat.le_of_lt hfin)] at hr
  refine ⟨by rw [hr]; exact hfin, fun m => ?_⟩
  -- any magnitude lies at or below the lower candidate, or at or above the upper one
  have hm : (m ≤ shift * 2 ^ 23 + kept ∧ unitsOf m * den ≤ kept * unit ∧
        (m ≠ shift * 2 ^ 23 + kept → unitsOf m * den < kept * unit)) ∨
      (shift * 2 ^ 23 + kept + 1 ≤ m ∧ (kept + 1) * unit ≤ unitsOf m * den ∧
        (m ≠ shift * 2 ^ 23 + kept + 1 → (kept + 1) * unit < unitsOf m * den)) := by
    rcases Nat.lt_or_ge (shift * 2 ^ 23 + kept) m with hlt | hge
    · refine .inr ⟨hlt, ?_, fun hne => ?_⟩
      · rw [← uhi]; exact Nat.mul_le_mul_right _ (unitsOf_strictMono.monotone hlt)
      · have hlt' : shift * 2 ^ 23 + kept + 1 < m := Nat.lt_of_le_of_ne hlt (Ne.symm hne)
        rw [← uhi]; exact Nat.mul_lt_mul_of_pos_right (unitsOf_strictMono hlt') hd
    · refine .inl ⟨hge, ?_, fun hne => ?_⟩
      · rw [← ulo]; exact Nat.mul_le_mul_right _ (unitsOf_strictMono.monotone hge)
      · have hlt' : m < shift * 2 ^ 23 + kept := Nat.lt_of_le_of_ne hge hne
        rw [← ulo]; exact Nat.mul_lt_mul_of_pos_right (unitsOf_strictMono hlt') hd
  have hsucc : (kept + 1) * unit = kept * unit + unit := by ring
  have key : ∀ r : Nat, |((unitsOf r * den : Nat) : Int) - (num : Nat)| = |(unitsOf r * den : Int) - num| := by
    intro r; push_cast; rfl
  rw [← key, ← key, hr]
  generalize hM : unitsOf m * den = M at hm ⊢
  by_cases hround : 2 * rest > unit ∨ (2 * rest = unit ∧ kept % 2 = 1)
  · rw [if_pos hround, ← Nat.add_assoc, uhi, hnum]
    rw [abs_of_nonneg (by omega : (0 : Int) ≤ (((kept + 1) * unit : Nat) : Int) - ((kept * unit + rest : Nat) : Int))]
    rcases hm with ⟨h1, h2, h3⟩ | ⟨h1, h2, h3⟩
    · rw [abs_of_nonpos (by omega : ((M : Nat) : Int) - ((kept * unit + rest : Nat) : Int) ≤ 0)]
      refine ⟨by omega, fun he hne => ?_⟩
      rcases hround with h | ⟨h, h'⟩ <;> omega
    · rw [abs_of_nonneg (by omega : (0 : Int) ≤ ((M : Nat) : Int) - ((kept * unit + rest : Nat) : Int))]
      exact ⟨by omega, fun he hne => absurd (h3 hne) (by omega)⟩
  · rw [if_neg hround, ulo, hnum]
    rw [abs_of_nonpos (by omega : ((kept * unit : Nat) : Int) - ((kept * unit + rest : Nat) : Int) ≤ 0)]
    rcases hm with ⟨h1, h2, h3⟩ | ⟨h1, h2, h3⟩
    · rw [abs_of_nonpos (by omega : ((M : Nat) : Int) - ((kept * unit + rest : Nat) : Int) ≤ 0)]
      exact ⟨by omega, fun he hne => absurd (h3 hne) (by omega)⟩
    · rw [abs_of_nonneg (by omega : (0 : Int) ≤ ((M : Nat) : Int) - ((kept * unit + rest : Nat) : Int))]
      exact ⟨by omega, fun he hne => by omega⟩

/-- From the overflow threshold on, the result is infinity (R21). -/
theorem roundMag_overflow {num den : Nat} (hd : 0 < den) (h : (2 ^ 25 - 1) * 2 ^ 252 * den ≤ num) :
    roundMag num den = infMagnitude := by
  obtain ⟨shift, kept, rest, hnum, hrest, hk, hs, hr⟩ := roundMag_cut num hd
  have hshift : 253 ≤ shift := by
    by_contra hc
    have h1 : num < (kept + 1) * (den * 2 ^ shift) := by
      have : (kept + 1) * (den * 2 ^ shift) = kept * (den * 2 ^ shift) + den * 2 ^ shift := by ring
      omega
    have h2 : (kept + 1) * (den * 2 ^ shift) ≤ 2 ^ 24 * (den * 2 ^ 252) :=
      Nat.mul_le_mul (by omega) (Nat.mul_le_mul_left _ (Nat.pow_le_pow_right (by norm_num) (by omega)))
    have h3 : (2 ^ 25 - 1) * 2 ^ 252 * den = (2 ^ 25 - 1) * (den * 2 ^ 252) := by ring
    have h4 : 0 < den * 2 ^ 252 := by positivity
    omega
  rw [hr]
  apply Nat.min_eq_right
  unfold infMagnitude
  by_cases h253 : shift = 253
  · have e1 : (2 ^ 25 - 1) * 2 ^ 252 * den = (2 ^ 24 - 1) * (den * 2 ^ 253) + den * 2 ^ 252 := by ring
    have e2 : den * 2 ^ 253 = 2 * (den * 2 ^ 252) := by ring
    have hkept : kept = 2 ^ 24 - 1 := by
      by_contra hc
      have h1 : (kept + 1) * (den * 2 ^ shift) ≤ (2 ^ 24 - 1) * (den * 2 ^ 253) := by
        rw [h253]; exact Nat.mul_le_mul_right _ (by omega)
      have h2 : (kept + 1) * (den * 2 ^ shift) = kept * (den * 2 ^ shift) + den * 2 ^ shift := by ring
      omega
    subst h253 hkept
    rw [if_pos (by omega)]
    omega
  · split <;> omega

/-- A magnitude at or below num / den is at or below the rounded one. -/
theorem le_roundMag {num den m : Nat} (hd : 0 < den) (hm : m ≤ infMagnitude) (h : unitsOf m * den ≤ num) :
    m ≤ roundMag num den := by
  by_cases hn : num < (2 ^ 25 - 1) * 2 ^ 252 * den
  · obtain ⟨-, hnear⟩ := roundMag_nearest hd hn
    by_contra hc
    have h1 : unitsOf (roundMag num den) * den < unitsOf m * den :=
      Nat.mul_lt_mul_of_pos_right (unitsOf_strictMono (by omega)) hd
    have h2 := (hnear m).1
    generalize hA : unitsOf (roundMag num den) = A at *
    generalize hB : unitsOf m = B at *
    have e1 : ((A * den : Nat) : Int) = (A : Int) * den := by push_cast; rfl
    have e2 : ((B * den : Nat) : Int) = (B : Int) * den := by push_cast; rfl
    rw [← e1, ← e2, abs_of_nonpos (by omega), abs_of_nonpos (by omega)] at h2
    omega
  · rw [roundMag_overflow hd (by omega)]; exact hm

/-- A finite magnitude at or above num / den is at or above the rounded one. -/
theorem roundMag_le_of_le {num den m : Nat} (hd : 0 < den) (hm : m < infMagnitude) (h : num ≤ unitsOf m * den) :
    roundMag num den ≤ m := by
  have hU : unitsOf m ≤ unitsOf (infMagnitude - 1) := unitsOf_strictMono.monotone (by omega)
  have hV : unitsOf (infMagnitude - 1) < (2 ^ 25 - 1) * 2 ^ 252 := by decide +kernel
  have hn : num < (2 ^ 25 - 1) * 2 ^ 252 * den :=
    Nat.lt_of_le_of_lt h (Nat.mul_lt_mul_of_pos_right (Nat.lt_of_le_of_lt hU hV) hd)
  obtain ⟨-, hnear⟩ := roundMag_nearest hd hn
  by_contra hc
  have h1 : unitsOf m * den < unitsOf (roundMag num den) * den :=
    Nat.mul_lt_mul_of_pos_right (unitsOf_strictMono (by omega)) hd
  have h2 := (hnear m).1
  generalize hA : unitsOf (roundMag num den) = A at *
  generalize hB : unitsOf m = B at *
  have e1 : ((A * den : Nat) : Int) = (A : Int) * den := by push_cast; rfl
  have e2 : ((B * den : Nat) : Int) = (B : Int) * den := by push_cast; rfl
  rw [← e1, ← e2, abs_of_nonneg (by omega), abs_of_nonneg (by omega)] at h2
  omega

/-- What is a finite binary32 value already is not changed by rounding. -/
theorem roundMag_exact {num den m : Nat} (hd : 0 < den) (hm : m < infMagnitude) (h : num = unitsOf m * den) :
    roundMag num den = m :=
  Nat.le_antisymm (roundMag_le_of_le hd hm (by omega)) (le_roundMag hd (by omega) (by omega))

/-- Rounding does not raise the magnitude bits above those of infinity. -/
theorem roundMag_le (num den : Nat) : roundMag num den ≤ infMagnitude := Nat.min_le_right _ _

/-- The magnitude bits of a rounded value fit below the sign bit. -/
theorem roundMag_lt (num den : Nat) : roundMag num den < 2 ^ 31 :=
  Nat.lt_of_le_of_lt (roundMag_le num den) (by decide)

/-- A rounded value keeps the sign it was given, a zero included. -/
@[simp] theorem sign_round (negative : Bool) (num den : Nat) : sign (F32.round negative num den) = negative :=
  sign_pack negative (roundMag_lt num den)

/-- Rounding gives no NaN. -/
@[simp] theorem isNaN_round (negative : Bool) (num den : Nat) : isNaN (F32.round negative num den) = false := by
  have h := isNaN_iff (F32.round negative num den)
  rw [F32.round, magnitude_pack negative (roundMag_lt num den)] at h
  have := roundMag_le num den
  cases hn : isNaN (F32.round negative num den)
  · rfl
  · exact absurd (h.mp hn) (by omega)

/-- Every word is exactly one of a NaN, an infinity and a finite value (R24). -/
theorem class_cases (w : Word) :
    (isNaN w = true ∧ isInf w = false ∧ isFinite w = false) ∨ (isNaN w = false ∧ isInf w = true ∧ isFinite w = false) ∨
      (isNaN w = false ∧ isInf w = false ∧ isFinite w = true) := by
  have hn := isNaN_iff w
  have hi := isInf_iff w
  have hf := isFinite_iff w
  rw [← Bool.not_eq_true, ← Bool.not_eq_true, ← Bool.not_eq_true, hn, hi, hf]
  omega

/-! ### The sign inverted -/

@[simp] theorem magnitude_neg (w : Word) : magnitude (neg w) = magnitude w := by
  unfold magnitude neg
  rw [BitVec.toNat_xor]
  exact Nat.eq_of_testBit_eq fun i => by
    rw [Nat.testBit_mod_two_pow, Nat.testBit_mod_two_pow, Nat.testBit_xor]
    by_cases h : i < 31
    · have : Nat.testBit 2147483648 i = false := by interval_cases i <;> rfl
      simp [h, this]
    · simp [h]

@[simp] theorem sign_neg (w : Word) : sign (neg w) = !sign w := by
  unfold sign neg; rw [BitVec.msb_xor, show (0x80000000#32).msb = true by decide, Bool.xor_true]

@[simp] theorem units_neg (w : Word) : units (neg w) = units w := by
  rw [units_eq_unitsOf, units_eq_unitsOf, magnitude_neg]

@[simp] theorem key_neg (w : Word) : key (neg w) = -key w := by
  unfold key; rw [sign_neg, units_neg]; cases sign w <;> simp

@[simp] theorem isNaN_neg (w : Word) : isNaN (neg w) = isNaN w := by
  rw [Bool.eq_iff_iff, isNaN_iff, isNaN_iff, magnitude_neg]

@[simp] theorem isInf_neg (w : Word) : isInf (neg w) = isInf w := by
  rw [Bool.eq_iff_iff, isInf_iff, isInf_iff, magnitude_neg]

@[simp] theorem isFinite_neg (w : Word) : isFinite (neg w) = isFinite w := by
  rw [Bool.eq_iff_iff, isFinite_iff, isFinite_iff, magnitude_neg]

end Sys2Proof.Machine.F32
end

