-- ==== Sys2Proof/Laws/State.lean ====
section
/-!
SUPPORT. The state record's simp set: for each update of the state or of a line, one lemma per field, true by rfl, so
that no later proof unfolds an update.
-/

namespace Sys2Proof.Machine

/-! ### answer -/

@[simp] theorem answer_fs (w : Word) (s : State) : (answer w s).fs = s.fs := rfl
@[simp] theorem answer_rst (w : Word) (s : State) : (answer w s).rst = s.rst := rfl
@[simp] theorem answer_inputs (w : Word) (s : State) : (answer w s).inputs = s.inputs := rfl
@[simp] theorem answer_returned (w : Word) (s : State) : (answer w s).returned = s.returned ++ [w] := rfl
@[simp] theorem answer_status (w : Word) (s : State) : (answer w s).status = s.status := rfl
@[simp] theorem answer_errAddr (w : Word) (s : State) : (answer w s).errAddr = s.errAddr := rfl
@[simp] theorem answer_frames (w : Word) (s : State) : (answer w s).frames = s.frames := rfl
@[simp] theorem answer_inL (w : Word) (s : State) : (answer w s).inL = s.inL := rfl
@[simp] theorem answer_inR (w : Word) (s : State) : (answer w s).inR = s.inR := rfl
@[simp] theorem answer_outL (w : Word) (s : State) : (answer w s).outL = s.outL := rfl
@[simp] theorem answer_outR (w : Word) (s : State) : (answer w s).outR = s.outR := rfl
@[simp] theorem answer_mixStg (w : Word) (s : State) : (answer w s).mixStg = s.mixStg := rfl
@[simp] theorem answer_mix (w : Word) (s : State) : (answer w s).mix = s.mix := rfl
@[simp] theorem answer_lines (w : Word) (s : State) : (answer w s).lines = s.lines := rfl

/-! ### raiseError -/

@[simp] theorem raiseError_fs (k : ErrorKind) (write : Bool) (a : Addr) (s : State) : (raiseError k write a s).fs = s.fs := rfl
@[simp] theorem raiseError_rst (k : ErrorKind) (write : Bool) (a : Addr) (s : State) : (raiseError k write a s).rst = s.rst := rfl
@[simp] theorem raiseError_inputs (k : ErrorKind) (write : Bool) (a : Addr) (s : State) : (raiseError k write a s).inputs = s.inputs := rfl
@[simp] theorem raiseError_returned (k : ErrorKind) (write : Bool) (a : Addr) (s : State) : (raiseError k write a s).returned = if write then s.returned else s.returned ++ [0x00000000#32] := rfl
@[simp] theorem raiseError_status (k : ErrorKind) (write : Bool) (a : Addr) (s : State) : (raiseError k write a s).status = setStatusBit (errorBit k) s.status := rfl
@[simp] theorem raiseError_errAddr (k : ErrorKind) (write : Bool) (a : Addr) (s : State) : (raiseError k write a s).errAddr = if noDecodeError s.status then errAddrWord write a else s.errAddr := rfl
@[simp] theorem raiseError_frames (k : ErrorKind) (write : Bool) (a : Addr) (s : State) : (raiseError k write a s).frames = s.frames := rfl
@[simp] theorem raiseError_inL (k : ErrorKind) (write : Bool) (a : Addr) (s : State) : (raiseError k write a s).inL = s.inL := rfl
@[simp] theorem raiseError_inR (k : ErrorKind) (write : Bool) (a : Addr) (s : State) : (raiseError k write a s).inR = s.inR := rfl
@[simp] theorem raiseError_outL (k : ErrorKind) (write : Bool) (a : Addr) (s : State) : (raiseError k write a s).outL = s.outL := rfl
@[simp] theorem raiseError_outR (k : ErrorKind) (write : Bool) (a : Addr) (s : State) : (raiseError k write a s).outR = s.outR := rfl
@[simp] theorem raiseError_mixStg (k : ErrorKind) (write : Bool) (a : Addr) (s : State) : (raiseError k write a s).mixStg = s.mixStg := rfl
@[simp] theorem raiseError_mix (k : ErrorKind) (write : Bool) (a : Addr) (s : State) : (raiseError k write a s).mix = s.mix := rfl
@[simp] theorem raiseError_lines (k : ErrorKind) (write : Bool) (a : Addr) (s : State) : (raiseError k write a s).lines = s.lines := rfl

/-! ### setPend -/

@[simp] theorem setPend_fs (s : State) : (setPend s).fs = s.fs := rfl
@[simp] theorem setPend_rst (s : State) : (setPend s).rst = s.rst := rfl
@[simp] theorem setPend_inputs (s : State) : (setPend s).inputs = s.inputs := rfl
@[simp] theorem setPend_returned (s : State) : (setPend s).returned = s.returned := rfl
@[simp] theorem setPend_status (s : State) : (setPend s).status = setStatusBit pendBit s.status := rfl
@[simp] theorem setPend_errAddr (s : State) : (setPend s).errAddr = s.errAddr := rfl
@[simp] theorem setPend_frames (s : State) : (setPend s).frames = s.frames := rfl
@[simp] theorem setPend_inL (s : State) : (setPend s).inL = s.inL := rfl
@[simp] theorem setPend_inR (s : State) : (setPend s).inR = s.inR := rfl
@[simp] theorem setPend_outL (s : State) : (setPend s).outL = s.outL := rfl
@[simp] theorem setPend_outR (s : State) : (setPend s).outR = s.outR := rfl
@[simp] theorem setPend_mixStg (s : State) : (setPend s).mixStg = s.mixStg := rfl
@[simp] theorem setPend_mix (s : State) : (setPend s).mix = s.mix := rfl
@[simp] theorem setPend_lines (s : State) : (setPend s).lines = s.lines := rfl

/-! ### takeEvent -/

@[simp] theorem takeEvent_fs (rest : List BusEvent) (s : State) : (takeEvent rest s).fs = s.fs := rfl
@[simp] theorem takeEvent_rst (rest : List BusEvent) (s : State) : (takeEvent rest s).rst = s.rst := rfl
@[simp] theorem takeEvent_inputs (rest : List BusEvent) (s : State) : (takeEvent rest s).inputs = rest := rfl
@[simp] theorem takeEvent_returned (rest : List BusEvent) (s : State) : (takeEvent rest s).returned = s.returned := rfl
@[simp] theorem takeEvent_status (rest : List BusEvent) (s : State) : (takeEvent rest s).status = s.status := rfl
@[simp] theorem takeEvent_errAddr (rest : List BusEvent) (s : State) : (takeEvent rest s).errAddr = s.errAddr := rfl
@[simp] theorem takeEvent_frames (rest : List BusEvent) (s : State) : (takeEvent rest s).frames = s.frames := rfl
@[simp] theorem takeEvent_inL (rest : List BusEvent) (s : State) : (takeEvent rest s).inL = s.inL := rfl
@[simp] theorem takeEvent_inR (rest : List BusEvent) (s : State) : (takeEvent rest s).inR = s.inR := rfl
@[simp] theorem takeEvent_outL (rest : List BusEvent) (s : State) : (takeEvent rest s).outL = s.outL := rfl
@[simp] theorem takeEvent_outR (rest : List BusEvent) (s : State) : (takeEvent rest s).outR = s.outR := rfl
@[simp] theorem takeEvent_mixStg (rest : List BusEvent) (s : State) : (takeEvent rest s).mixStg = s.mixStg := rfl
@[simp] theorem takeEvent_mix (rest : List BusEvent) (s : State) : (takeEvent rest s).mix = s.mix := rfl
@[simp] theorem takeEvent_lines (rest : List BusEvent) (s : State) : (takeEvent rest s).lines = s.lines := rfl

/-! ### commitAll -/

@[simp] theorem commitAll_fs (s : State) : (commitAll s).fs = s.fs := rfl
@[simp] theorem commitAll_rst (s : State) : (commitAll s).rst = s.rst := rfl
@[simp] theorem commitAll_inputs (s : State) : (commitAll s).inputs = s.inputs := rfl
@[simp] theorem commitAll_returned (s : State) : (commitAll s).returned = s.returned := rfl
@[simp] theorem commitAll_status (s : State) : (commitAll s).status = clearStatusBit pendBit s.status := rfl
@[simp] theorem commitAll_errAddr (s : State) : (commitAll s).errAddr = s.errAddr := rfl
@[simp] theorem commitAll_frames (s : State) : (commitAll s).frames = s.frames := rfl
@[simp] theorem commitAll_inL (s : State) : (commitAll s).inL = s.inL := rfl
@[simp] theorem commitAll_inR (s : State) : (commitAll s).inR = s.inR := rfl
@[simp] theorem commitAll_outL (s : State) : (commitAll s).outL = s.outL := rfl
@[simp] theorem commitAll_outR (s : State) : (commitAll s).outR = s.outR := rfl
@[simp] theorem commitAll_mixStg (s : State) : (commitAll s).mixStg = s.mixStg := rfl
@[simp] theorem commitAll_mix (s : State) : (commitAll s).mix = s.mixStg := rfl
@[simp] theorem commitAll_lines (s : State) : (commitAll s).lines = s.lines.map commitLine := rfl

/-! ### stepFrame -/

@[simp] theorem stepFrame_fs (s : State) : (stepFrame s).fs = s.fs := rfl
@[simp] theorem stepFrame_rst (s : State) : (stepFrame s).rst = s.rst := rfl
@[simp] theorem stepFrame_inputs (s : State) : (stepFrame s).inputs = s.inputs := rfl
@[simp] theorem stepFrame_returned (s : State) : (stepFrame s).returned = s.returned := rfl
@[simp] theorem stepFrame_errAddr (s : State) : (stepFrame s).errAddr = s.errAddr := rfl
@[simp] theorem stepFrame_frames (s : State) : (stepFrame s).frames = s.frames + 1 := rfl
@[simp] theorem stepFrame_inL (s : State) : (stepFrame s).inL = s.inL := rfl
@[simp] theorem stepFrame_inR (s : State) : (stepFrame s).inR = s.inR := rfl
@[simp] theorem stepFrame_mixStg (s : State) : (stepFrame s).mixStg = s.mixStg := rfl
@[simp] theorem stepFrame_mix (s : State) : (stepFrame s).mix = s.mix := rfl
@[simp] theorem stepFrame_lines (s : State) : (stepFrame s).lines = s.lines.map (stepLine s.fs s.inL s.inR) := rfl

/-! ### resetBlock -/

@[simp] theorem resetBlock_fs (s : State) : (resetBlock s).fs = s.fs := rfl
@[simp] theorem resetBlock_rst (s : State) : (resetBlock s).rst = s.rst := rfl
@[simp] theorem resetBlock_inputs (s : State) : (resetBlock s).inputs = s.inputs := rfl
@[simp] theorem resetBlock_returned (s : State) : (resetBlock s).returned = s.returned := rfl
@[simp] theorem resetBlock_status (s : State) : (resetBlock s).status = 0x00000000#32 := rfl
@[simp] theorem resetBlock_errAddr (s : State) : (resetBlock s).errAddr = 0x00000000#32 := rfl
@[simp] theorem resetBlock_frames (s : State) : (resetBlock s).frames = 0x00000000#32 := rfl
@[simp] theorem resetBlock_inL (s : State) : (resetBlock s).inL = 0x00000000#32 := rfl
@[simp] theorem resetBlock_inR (s : State) : (resetBlock s).inR = 0x00000000#32 := rfl
@[simp] theorem resetBlock_outL (s : State) : (resetBlock s).outL = 0x00000000#32 := rfl
@[simp] theorem resetBlock_outR (s : State) : (resetBlock s).outR = 0x00000000#32 := rfl
@[simp] theorem resetBlock_mixStg (s : State) : (resetBlock s).mixStg = 0x00000000#32 := rfl
@[simp] theorem resetBlock_mix (s : State) : (resetBlock s).mix = 0x00000000#32 := rfl
@[simp] theorem resetBlock_lines (s : State) : (resetBlock s).lines = s.config.lines.map Line.atReset := rfl

/-! ### commitLine -/

@[simp] theorem commitLine_cap (l : Line) : (commitLine l).cap = l.cap := rfl
@[simp] theorem commitLine_maxd (l : Line) : (commitLine l).maxd = l.maxd := rfl
@[simp] theorem commitLine_baseStg (l : Line) : (commitLine l).baseStg = l.baseStg := rfl
@[simp] theorem commitLine_depthStg (l : Line) : (commitLine l).depthStg = l.depthStg := rfl
@[simp] theorem commitLine_freqStg (l : Line) : (commitLine l).freqStg = l.freqStg := rfl
@[simp] theorem commitLine_fbStg (l : Line) : (commitLine l).fbStg = l.fbStg := rfl
@[simp] theorem commitLine_levelStg (l : Line) : (commitLine l).levelStg = l.levelStg := rfl
@[simp] theorem commitLine_cfgStg (l : Line) : (commitLine l).cfgStg = l.cfgStg := rfl
@[simp] theorem commitLine_base (l : Line) : (commitLine l).base = l.baseStg := rfl
@[simp] theorem commitLine_depth (l : Line) : (commitLine l).depth = l.depthStg := rfl
@[simp] theorem commitLine_freq (l : Line) : (commitLine l).freq = l.freqStg := rfl
@[simp] theorem commitLine_fb (l : Line) : (commitLine l).fb = l.fbStg := rfl
@[simp] theorem commitLine_level (l : Line) : (commitLine l).level = l.levelStg := rfl
@[simp] theorem commitLine_cfg (l : Line) : (commitLine l).cfg = l.cfgStg := rfl
@[simp] theorem commitLine_phase (l : Line) : (commitLine l).phase = l.phase := rfl
@[simp] theorem commitLine_wptr (l : Line) : (commitLine l).wptr = l.wptr := rfl
@[simp] theorem commitLine_delay (l : Line) : (commitLine l).delay = l.delay := rfl
@[simp] theorem commitLine_lastrd (l : Line) : (commitLine l).lastrd = l.lastrd := rfl
@[simp] theorem commitLine_buf (l : Line) : (commitLine l).buf = l.buf := rfl

/-! ### stepLine -/

@[simp] theorem stepLine_cap (fs inL inR : Word) (l : Line) : (stepLine fs inL inR l).cap = l.cap := rfl
@[simp] theorem stepLine_maxd (fs inL inR : Word) (l : Line) : (stepLine fs inL inR l).maxd = l.maxd := rfl
@[simp] theorem stepLine_baseStg (fs inL inR : Word) (l : Line) : (stepLine fs inL inR l).baseStg = l.baseStg := rfl
@[simp] theorem stepLine_depthStg (fs inL inR : Word) (l : Line) : (stepLine fs inL inR l).depthStg = l.depthStg := rfl
@[simp] theorem stepLine_freqStg (fs inL inR : Word) (l : Line) : (stepLine fs inL inR l).freqStg = l.freqStg := rfl
@[simp] theorem stepLine_fbStg (fs inL inR : Word) (l : Line) : (stepLine fs inL inR l).fbStg = l.fbStg := rfl
@[simp] theorem stepLine_levelStg (fs inL inR : Word) (l : Line) : (stepLine fs inL inR l).levelStg = l.levelStg := rfl
@[simp] theorem stepLine_cfgStg (fs inL inR : Word) (l : Line) : (stepLine fs inL inR l).cfgStg = l.cfgStg := rfl
@[simp] theorem stepLine_base (fs inL inR : Word) (l : Line) : (stepLine fs inL inR l).base = l.base := rfl
@[simp] theorem stepLine_depth (fs inL inR : Word) (l : Line) : (stepLine fs inL inR l).depth = l.depth := rfl
@[simp] theorem stepLine_freq (fs inL inR : Word) (l : Line) : (stepLine fs inL inR l).freq = l.freq := rfl
@[simp] theorem stepLine_fb (fs inL inR : Word) (l : Line) : (stepLine fs inL inR l).fb = l.fb := rfl
@[simp] theorem stepLine_level (fs inL inR : Word) (l : Line) : (stepLine fs inL inR l).level = l.level := rfl
@[simp] theorem stepLine_cfg (fs inL inR : Word) (l : Line) : (stepLine fs inL inR l).cfg = l.cfg := rfl
@[simp] theorem stepLine_phase (fs inL inR : Word) (l : Line) : (stepLine fs inL inR l).phase = oscAdvance fs l := rfl
@[simp] theorem stepLine_wptr (fs inL inR : Word) (l : Line) : (stepLine fs inL inR l).wptr = nextCursor l := rfl
@[simp] theorem stepLine_delay (fs inL inR : Word) (l : Line) : (stepLine fs inL inR l).delay = stepDelay fs l := rfl
@[simp] theorem stepLine_lastrd (fs inL inR : Word) (l : Line) : (stepLine fs inL inR l).lastrd = stepRead fs l := rfl
@[simp] theorem stepLine_buf (fs inL inR : Word) (l : Line) : (stepLine fs inL inR l).buf = writeDelay l (stepWrite fs inL inR l) := rfl

/-! ### atReset -/

@[simp] theorem Line.atReset_cap (c : LineConfig) : (Line.atReset c).cap = c.cap := rfl
@[simp] theorem Line.atReset_maxd (c : LineConfig) : (Line.atReset c).maxd = c.maxd := rfl
@[simp] theorem Line.atReset_baseStg (c : LineConfig) : (Line.atReset c).baseStg = 0x00000000#32 := rfl
@[simp] theorem Line.atReset_depthStg (c : LineConfig) : (Line.atReset c).depthStg = 0x00000000#32 := rfl
@[simp] theorem Line.atReset_freqStg (c : LineConfig) : (Line.atReset c).freqStg = 0x00000000#32 := rfl
@[simp] theorem Line.atReset_fbStg (c : LineConfig) : (Line.atReset c).fbStg = 0x00000000#32 := rfl
@[simp] theorem Line.atReset_levelStg (c : LineConfig) : (Line.atReset c).levelStg = 0x00000000#32 := rfl
@[simp] theorem Line.atReset_cfgStg (c : LineConfig) : (Line.atReset c).cfgStg = { route := .left, interp := .round } := rfl
@[simp] theorem Line.atReset_base (c : LineConfig) : (Line.atReset c).base = 0x00000000#32 := rfl
@[simp] theorem Line.atReset_depth (c : LineConfig) : (Line.atReset c).depth = 0x00000000#32 := rfl
@[simp] theorem Line.atReset_freq (c : LineConfig) : (Line.atReset c).freq = 0x00000000#32 := rfl
@[simp] theorem Line.atReset_fb (c : LineConfig) : (Line.atReset c).fb = 0x00000000#32 := rfl
@[simp] theorem Line.atReset_level (c : LineConfig) : (Line.atReset c).level = 0x00000000#32 := rfl
@[simp] theorem Line.atReset_cfg (c : LineConfig) : (Line.atReset c).cfg = { route := .left, interp := .round } := rfl
@[simp] theorem Line.atReset_phase (c : LineConfig) : (Line.atReset c).phase = 0x00000000#32 := rfl
@[simp] theorem Line.atReset_wptr (c : LineConfig) : (Line.atReset c).wptr = 0 := rfl
@[simp] theorem Line.atReset_delay (c : LineConfig) : (Line.atReset c).delay = 0x00000000#32 := rfl
@[simp] theorem Line.atReset_lastrd (c : LineConfig) : (Line.atReset c).lastrd = 0x00000000#32 := rfl
@[simp] theorem Line.atReset_buf (c : LineConfig) : (Line.atReset c).buf = [] := rfl

/-! ### The configuration -/

@[simp] theorem Line.config_atReset (c : LineConfig) : (Line.atReset c).config = c := rfl
@[simp] theorem commitLine_config (l : Line) : (commitLine l).config = l.config := rfl
@[simp] theorem stepLine_config (fs inL inR : Word) (l : Line) : (stepLine fs inL inR l).config = l.config := rfl

@[simp] theorem State.config_fs (s : State) : s.config.fs = s.fs := rfl
@[simp] theorem State.config_lines (s : State) : s.config.lines = s.lines.map Line.config := rfl

@[simp] theorem State.atReset_config (c : Config) : (State.atReset c).config = c := by
  have h : (Line.config ∘ Line.atReset) = id := rfl
  simp [State.config, State.atReset, h]

end Sys2Proof.Machine
end

