-- ==== Sys2Proof/Laws/Ops.lean ====
section
/-!
SUPPORT. For each shared operation one lemma that says once everything it can do; provers cite these instead of
unfolding the operation.
-/

namespace Sys2Proof.Machine

/-- A line read answers the register's word of a line d < N, and is EADDR of any other line. -/
theorem readLineReg_cases (off : BitVec 5) (d : LineIx) (value : Line → Word) (s : State) :
    (∃ l, s.lines[d.toNat]? = some l ∧ readLineReg off d value s = answer (value l) s) ∨
    (s.lines.length ≤ d.toNat ∧ readLineReg off d value s = raiseError .eaddr false (lineAddr d off) s) := by
  unfold readLineReg
  cases h : s.lines[d.toNat]? with
  | some l => exact .inl ⟨l, rfl, rfl⟩
  | none => exact .inr ⟨by simpa using h, rfl⟩

/-- A read of a line that exists. -/
theorem readLineReg_of_some {off : BitVec 5} {d : LineIx} {value : Line → Word} {s : State} {l : Line}
    (h : s.lines[d.toNat]? = some l) : readLineReg off d value s = answer (value l) s := by
  simp [readLineReg, h]

/-- A line write updates the one line d < N and sets PEND, and is EADDR of any other line. -/
theorem writeLineReg_cases (off : BitVec 5) (d : LineIx) (update : Line → Line) (s : State) :
    (d.toNat < s.lines.length ∧
      writeLineReg off d update s = setPend { s with lines := s.lines.modify d.toNat update }) ∨
    (s.lines.length ≤ d.toNat ∧ writeLineReg off d update s = raiseError .eaddr true (lineAddr d off) s) := by
  unfold writeLineReg
  by_cases h : d.toNat < s.lines.length
  · exact .inl ⟨h, by simp [h]⟩
  · exact .inr ⟨by omega, by simp [h]⟩

/-- WR.CFG_STG of legal codes stores them. -/
theorem cfgOfData_legal {data : Word} (hr : dataRoute data < 3) (hi : dataInterp data < 3) :
    ∃ c, cfgOfData data = some c ∧ routeCode c.route = dataRoute data ∧ interpCode c.interp = dataInterp data := by
  unfold cfgOfData
  interval_cases h : dataRoute data <;> interval_cases h' : dataInterp data <;>
    exact ⟨_, rfl, rfl, rfl⟩

/-- WR.CFG_STG of a reserved code stores nothing. -/
theorem cfgOfData_reserved {data : Word} (h : dataRoute data = 3 ∨ dataInterp data = 3) : cfgOfData data = none := by
  unfold cfgOfData
  rcases h with h | h
  · simp [h, routeOfCode]
  · rw [h]; cases routeOfCode (dataRoute data) <;> rfl

/-- The fields of data are 2-bit codes. -/
theorem dataRoute_lt (data : Word) : dataRoute data < 4 := (data.extractLsb' 0 2).isLt

theorem dataInterp_lt (data : Word) : dataInterp data < 4 := (data.extractLsb' 4 2).isLt

/-- Every instruction has its meaning and goes on (60_exceptions R300). -/
theorem exec_goes (i : Instr) (s : State) : ∃ t, exec i s = .next t := by
  cases i <;> exact ⟨_, rfl⟩

/-- What one transaction can do: the operation it decodes to, or its error recorded. -/
theorem runTxn_cases (t : Txn) (s : State) :
    (∃ i, decode s.lines.length t = .op i ∧ runTxn t s = exec i s) ∨
    (∃ k, decode s.lines.length t = .error k ∧
      runTxn t s = .next (raiseError k (txnWrite t) (txnAddr t) s)) := by
  unfold runTxn
  cases h : decode s.lines.length t with
  | op i => exact .inl ⟨i, rfl, rfl⟩
  | error k => exact .inr ⟨k, rfl, rfl⟩

/-- Everything a step that goes on can be: idle, the reset pin driven, one operation, or one recorded error. -/
theorem step_cases {s u : State} (h : step s = .next u) :
    (s.inputs = [] ∧ u = s) ∨
    (∃ level rest, s.inputs = .rst level :: rest ∧ u = driveRst level (takeEvent rest s)) ∨
    (∃ t rest i, s.inputs = .transaction t :: rest ∧ s.rst = false ∧ decode s.lines.length t = .op i ∧
      exec i (takeEvent rest s) = .next u) ∨
    (∃ t rest k, s.inputs = .transaction t :: rest ∧ s.rst = false ∧ decode s.lines.length t = .error k ∧
      u = raiseError k (txnWrite t) (txnAddr t) (takeEvent rest s)) := by
  unfold step at h
  cases hi : s.inputs with
  | nil =>
    rw [hi] at h
    exact .inl ⟨rfl, by simpa using h.symm⟩
  | cons e rest =>
    rw [hi] at h
    cases e with
    | rst level =>
      exact .inr (.inl ⟨level, rest, rfl, by simpa [deliver] using h.symm⟩)
    | transaction t =>
      cases hr : s.rst with
      | true => simp [deliver, hr] at h
      | false =>
        simp only [deliver, takeEvent_rst, hr, Bool.false_eq_true, if_false] at h
        rcases runTxn_cases t (takeEvent rest s) with ⟨i, hd, he⟩ | ⟨k, hd, he⟩
        · exact .inr (.inr (.inl ⟨t, rest, i, rfl, rfl, hd, by rw [← he]; exact h⟩))
        · rw [he] at h
          exact .inr (.inr (.inr ⟨t, rest, k, rfl, rfl, hd, by simpa using h.symm⟩))

/-- Every cell of an updated list of lines is the updated line or stood there before. -/
theorem getElem?_modify_lines (lines : List Line) (d k : Nat) (f : Line → Line) :
    (lines.modify d f)[k]? = if d = k then lines[k]?.map f else lines[k]? := by
  rw [List.getElem?_modify]
  by_cases h : d = k <;> simp [h]

/-- The lines of a reset block are its lines, each reset. -/
theorem resetBlock_lines_eq (s : State) : (resetBlock s).lines = s.lines.map (fun l => Line.atReset l.config) := by
  simp [Function.comp_def]

/-- A clamp lies between its bounds whenever they are in order (00_scope R22). -/
theorem clamp_cases (x lo hi : Word) :
    (F32.gt x lo = true ∧ F32.lt x hi = true ∧ F32.clamp x lo hi = x) ∨
    (F32.gt x lo = true ∧ F32.lt x hi = false ∧ F32.clamp x lo hi = hi) ∨
    (F32.gt x lo = false ∧ F32.clamp x lo hi = lo) := by
  unfold F32.clamp
  cases F32.gt x lo <;> cases F32.lt x hi <;> simp

end Sys2Proof.Machine
end

