-- ==== Sys2Proof/Laws/PerInstr.lean ====
section
/-!
SUPPORT. Statements for all instructions, made per instruction: the word the encoder writes is the opcode table's row
(30_encoding section 4).
-/

namespace Sys2Proof.Laws

/-- The line rows' mask as fields: W, region, d and offset, D. -/
theorem lineMask_fields : lineMask = (1#1 ++ ((7#3 ++ 0#7) ++ BitVec.allOnes 5)) ++ 0#32 := by decide

/-- The global rows' mask as fields: W, region and index, D. -/
theorem globalMask_fields : globalMask = (1#1 ++ (7#3 ++ BitVec.allOnes 12)) ++ 0#32 := by decide

/-- The line rows' mask keeps W, the region and the offset. -/
theorem packTxn_lineMask (w : Bool) (d : LineIx) (off : BitVec 5) (data : Word) :
    packTxn w (lineAddr d off) data &&& lineMask = packTxn w (lineAddr 0#7 off) 0#32 := by
  rw [lineMask_fields]
  unfold packTxn lineAddr
  have hw : BitVec.ofBool w &&& 1#1 = BitVec.ofBool w := by cases w <;> rfl
  have h3 : (1#3 &&& 7#3) = 1#3 := rfl
  erw [BitVec.and_append, BitVec.and_append, BitVec.and_append, BitVec.and_append, hw, h3, BitVec.and_allOnes,
    BitVec.and_zero, BitVec.and_zero]

/-- The global rows' mask keeps W and the address. -/
theorem packTxn_globalMask (w : Bool) (index : BitVec 12) (data : Word) :
    packTxn w (globalAddr index) data &&& globalMask = packTxn w (globalAddr index) 0#32 := by
  rw [globalMask_fields]
  unfold packTxn globalAddr
  have hw : BitVec.ofBool w &&& 1#1 = BitVec.ofBool w := by cases w <;> rfl
  have h3 : (0#3 &&& 7#3) = 0#3 := rfl
  erw [BitVec.and_append, BitVec.and_append, BitVec.and_append, hw, h3, BitVec.and_allOnes, BitVec.and_zero]

/-- The word the encoder writes for an instruction, cut to its row's mask, is its row's match. -/
def EncodeMatchesRow.Statement (i : Instr) : Prop := encode i &&& (opcodeRow i).2 = (opcodeRow i).1

theorem EncodeMatchesRow.nop : EncodeMatchesRow.Statement .nop :=
  by unfold EncodeMatchesRow.Statement; decide

theorem EncodeMatchesRow.step : EncodeMatchesRow.Statement .step :=
  by unfold EncodeMatchesRow.Statement; decide

theorem EncodeMatchesRow.commit : EncodeMatchesRow.Statement .commit :=
  by unfold EncodeMatchesRow.Statement; decide

theorem EncodeMatchesRow.reset : EncodeMatchesRow.Statement .reset :=
  by unfold EncodeMatchesRow.Statement; decide

theorem EncodeMatchesRow.rdCmd : EncodeMatchesRow.Statement .rdCmd :=
  by unfold EncodeMatchesRow.Statement; decide

theorem EncodeMatchesRow.rdStatus : EncodeMatchesRow.Statement .rdStatus :=
  by unfold EncodeMatchesRow.Statement; decide

theorem EncodeMatchesRow.wrStatus (data : Word) : EncodeMatchesRow.Statement (.wrStatus data) :=
  (packTxn_globalMask true _ data).trans rfl

theorem EncodeMatchesRow.rdErraddr : EncodeMatchesRow.Statement .rdErraddr :=
  by unfold EncodeMatchesRow.Statement; decide

theorem EncodeMatchesRow.rdFs : EncodeMatchesRow.Statement .rdFs :=
  by unfold EncodeMatchesRow.Statement; decide

theorem EncodeMatchesRow.rdNlines : EncodeMatchesRow.Statement .rdNlines :=
  by unfold EncodeMatchesRow.Statement; decide

theorem EncodeMatchesRow.rdFrames : EncodeMatchesRow.Statement .rdFrames :=
  by unfold EncodeMatchesRow.Statement; decide

theorem EncodeMatchesRow.wrInL (data : Word) : EncodeMatchesRow.Statement (.wrInL data) :=
  (packTxn_globalMask true _ data).trans rfl

theorem EncodeMatchesRow.rdInL : EncodeMatchesRow.Statement .rdInL :=
  by unfold EncodeMatchesRow.Statement; decide

theorem EncodeMatchesRow.wrInR (data : Word) : EncodeMatchesRow.Statement (.wrInR data) :=
  (packTxn_globalMask true _ data).trans rfl

theorem EncodeMatchesRow.rdInR : EncodeMatchesRow.Statement .rdInR :=
  by unfold EncodeMatchesRow.Statement; decide

theorem EncodeMatchesRow.rdOutL : EncodeMatchesRow.Statement .rdOutL :=
  by unfold EncodeMatchesRow.Statement; decide

theorem EncodeMatchesRow.rdOutR : EncodeMatchesRow.Statement .rdOutR :=
  by unfold EncodeMatchesRow.Statement; decide

theorem EncodeMatchesRow.wrMixStg (data : Word) : EncodeMatchesRow.Statement (.wrMixStg data) :=
  (packTxn_globalMask true _ data).trans rfl

theorem EncodeMatchesRow.rdMixStg : EncodeMatchesRow.Statement .rdMixStg :=
  by unfold EncodeMatchesRow.Statement; decide

theorem EncodeMatchesRow.rdMix : EncodeMatchesRow.Statement .rdMix :=
  by unfold EncodeMatchesRow.Statement; decide

theorem EncodeMatchesRow.wrBaseStg (d : LineIx) (data : Word) : EncodeMatchesRow.Statement (.wrBaseStg d data) :=
  (packTxn_lineMask true d _ data).trans rfl

theorem EncodeMatchesRow.wrDepthStg (d : LineIx) (data : Word) : EncodeMatchesRow.Statement (.wrDepthStg d data) :=
  (packTxn_lineMask true d _ data).trans rfl

theorem EncodeMatchesRow.wrFreqStg (d : LineIx) (data : Word) : EncodeMatchesRow.Statement (.wrFreqStg d data) :=
  (packTxn_lineMask true d _ data).trans rfl

theorem EncodeMatchesRow.wrFbStg (d : LineIx) (data : Word) : EncodeMatchesRow.Statement (.wrFbStg d data) :=
  (packTxn_lineMask true d _ data).trans rfl

theorem EncodeMatchesRow.wrLevelStg (d : LineIx) (data : Word) : EncodeMatchesRow.Statement (.wrLevelStg d data) :=
  (packTxn_lineMask true d _ data).trans rfl

theorem EncodeMatchesRow.wrCfgStg (d : LineIx) (data : Word) : EncodeMatchesRow.Statement (.wrCfgStg d data) :=
  (packTxn_lineMask true d _ data).trans rfl

theorem EncodeMatchesRow.rdBaseStg (d : LineIx) : EncodeMatchesRow.Statement (.rdBaseStg d) :=
  (packTxn_lineMask false d _ _).trans rfl

theorem EncodeMatchesRow.rdDepthStg (d : LineIx) : EncodeMatchesRow.Statement (.rdDepthStg d) :=
  (packTxn_lineMask false d _ _).trans rfl

theorem EncodeMatchesRow.rdFreqStg (d : LineIx) : EncodeMatchesRow.Statement (.rdFreqStg d) :=
  (packTxn_lineMask false d _ _).trans rfl

theorem EncodeMatchesRow.rdFbStg (d : LineIx) : EncodeMatchesRow.Statement (.rdFbStg d) :=
  (packTxn_lineMask false d _ _).trans rfl

theorem EncodeMatchesRow.rdLevelStg (d : LineIx) : EncodeMatchesRow.Statement (.rdLevelStg d) :=
  (packTxn_lineMask false d _ _).trans rfl

theorem EncodeMatchesRow.rdCfgStg (d : LineIx) : EncodeMatchesRow.Statement (.rdCfgStg d) :=
  (packTxn_lineMask false d _ _).trans rfl

theorem EncodeMatchesRow.rdBase (d : LineIx) : EncodeMatchesRow.Statement (.rdBase d) :=
  (packTxn_lineMask false d _ _).trans rfl

theorem EncodeMatchesRow.rdDepth (d : LineIx) : EncodeMatchesRow.Statement (.rdDepth d) :=
  (packTxn_lineMask false d _ _).trans rfl

theorem EncodeMatchesRow.rdFreq (d : LineIx) : EncodeMatchesRow.Statement (.rdFreq d) :=
  (packTxn_lineMask false d _ _).trans rfl

theorem EncodeMatchesRow.rdFb (d : LineIx) : EncodeMatchesRow.Statement (.rdFb d) :=
  (packTxn_lineMask false d _ _).trans rfl

theorem EncodeMatchesRow.rdLevel (d : LineIx) : EncodeMatchesRow.Statement (.rdLevel d) :=
  (packTxn_lineMask false d _ _).trans rfl

theorem EncodeMatchesRow.rdCfg (d : LineIx) : EncodeMatchesRow.Statement (.rdCfg d) :=
  (packTxn_lineMask false d _ _).trans rfl

theorem EncodeMatchesRow.rdPhase (d : LineIx) : EncodeMatchesRow.Statement (.rdPhase d) :=
  (packTxn_lineMask false d _ _).trans rfl

theorem EncodeMatchesRow.rdWptr (d : LineIx) : EncodeMatchesRow.Statement (.rdWptr d) :=
  (packTxn_lineMask false d _ _).trans rfl

theorem EncodeMatchesRow.rdDelay (d : LineIx) : EncodeMatchesRow.Statement (.rdDelay d) :=
  (packTxn_lineMask false d _ _).trans rfl

theorem EncodeMatchesRow.rdLastrd (d : LineIx) : EncodeMatchesRow.Statement (.rdLastrd d) :=
  (packTxn_lineMask false d _ _).trans rfl

theorem EncodeMatchesRow.rdCap (d : LineIx) : EncodeMatchesRow.Statement (.rdCap d) :=
  (packTxn_lineMask false d _ _).trans rfl

theorem EncodeMatchesRow.rdMaxd (d : LineIx) : EncodeMatchesRow.Statement (.rdMaxd d) :=
  (packTxn_lineMask false d _ _).trans rfl

end Sys2Proof.Laws
end

