-- ==== Sys2Proof/Machine/Assembler.lean ====
section
/-!
DEFINITION. The assembler syntax of 30_encoding R107, as parsed lines, and the pseudo-instructions of R108. A line is
one transaction; `RD` and `WR` name any register of R93 and R94, so a line may also stand for a transaction that
raises an error (`WR FS, 1.0`). The characters of a line (spaces, `;` comments) are not modelled (log 15).
-/

namespace Sys2Proof.Machine

/-- The global registers (R93). -/
inductive GlobalReg where
  | cmd | status | erraddr | fs | nlines | frames | inL | inR | outL | outR | mixStg | mix
  deriving DecidableEq, Repr

/-- The line registers (R94). -/
inductive LineReg where
  | baseStg | depthStg | freqStg | fbStg | levelStg | cfgStg
  | base | depth | freq | fb | level | cfg
  | phase | wptr | delay | lastrd | cap | maxd
  deriving DecidableEq, Repr

/-- A register as `<reg>` or `<reg>[<d>]` names it (R107). -/
inductive RegName where
  | global (r : GlobalReg)
  | line (r : LineReg) (d : Nat)
  deriving DecidableEq, Repr

/-- A `<value>` of R107: a raw word `#0x…`, a decimal literal ±num/den, or the two codes of CFG_STG. -/
inductive AsmValue where
  | raw (w : Word)
  | decimal (negative : Bool) (num den : Nat)
  | cfg (c : CfgFields)
  deriving DecidableEq, Repr

/-- One line of assembler text (R107). -/
inductive AsmLine where
  | rd (r : RegName)
  | wr (r : RegName) (v : AsmValue)
  | nop
  | step
  | commit
  | reset
  deriving DecidableEq, Repr

/-- A[11:0] of a global register (R93). -/
def globalRegIndex : GlobalReg → BitVec 12
  | .cmd => 0x000#12
  | .status => 0x001#12
  | .erraddr => 0x002#12
  | .fs => 0x003#12
  | .nlines => 0x004#12
  | .frames => 0x005#12
  | .inL => 0x006#12
  | .inR => 0x007#12
  | .outL => 0x008#12
  | .outR => 0x009#12
  | .mixStg => 0x00A#12
  | .mix => 0x00B#12

/-- A[4:0] of a line register (R94). -/
def lineRegOffset : LineReg → BitVec 5
  | .baseStg => 0x00#5
  | .depthStg => 0x01#5
  | .freqStg => 0x02#5
  | .fbStg => 0x03#5
  | .levelStg => 0x04#5
  | .cfgStg => 0x05#5
  | .base => 0x08#5
  | .depth => 0x09#5
  | .freq => 0x0A#5
  | .fb => 0x0B#5
  | .level => 0x0C#5
  | .cfg => 0x0D#5
  | .phase => 0x10#5
  | .wptr => 0x11#5
  | .delay => 0x12#5
  | .lastrd => 0x13#5
  | .cap => 0x14#5
  | .maxd => 0x15#5

/-- The address of a named register; a line index above 127 does not fit its field (R92). -/
def regAddr : RegName → Option Addr
  | .global r => some (globalAddr (globalRegIndex r))
  | .line r d => if d < 2 ^ 7 then some (lineAddr (BitVec.ofNat 7 d) (lineRegOffset r)) else none

/-- The data word a value stands for: a decimal literal is the nearest binary32 value, ties to even (R107). -/
def asmWord : AsmValue → Word
  | .raw w => w
  | .decimal negative num den => F32.nearest negative num den
  | .cfg c => cfgWord c

/-- The transaction of one line (R107): `NOP`, `STEP`, `COMMIT` and `RESET` are writes of 0 to 3 to CMD. -/
def assemble : AsmLine → Option Txn
  | .rd r => (regAddr r).map (fun a => packTxn false a 0#32)
  | .wr r v => (regAddr r).map (fun a => packTxn true a (asmWord v))
  | .nop => some (packTxn true (globalAddr 0x000#12) 0x0#32)
  | .step => some (packTxn true (globalAddr 0x000#12) 0x1#32)
  | .commit => some (packTxn true (globalAddr 0x000#12) 0x2#32)
  | .reset => some (packTxn true (globalAddr 0x000#12) 0x3#32)

/-! ### Pseudo-instructions (R108), each its expansion in the order written -/

/-- CLRERR. -/
def pseudoClrErr : List Instr := [.wrStatus 0x0000001F#32]

/-- SETMIX v. -/
def pseudoSetMix (v : Word) : List Instr := [.wrMixStg v]

/-- The line tuple of a host's patch (R108). -/
structure LineParams where
  base  : Word
  depth : Word
  freq  : Word
  fb    : Word
  level : Word
  cfg   : CfgFields
  deriving DecidableEq, Repr

/-- SETLINE d, base, depth, freq, fb, level, route, interp. -/
def pseudoSetLine (d : LineIx) (p : LineParams) : List Instr :=
  [.wrBaseStg d p.base, .wrDepthStg d p.depth, .wrFreqStg d p.freq, .wrFbStg d p.fb, .wrLevelStg d p.level,
   .wrCfgStg d (cfgWord p.cfg)]

/-- PROCESS l, r. -/
def pseudoProcess (l r : Word) : List Instr := [.wrInL l, .wrInR r, .step, .rdOutL, .rdOutR]

/-- SETLINE for each tuple in turn, from line d on. -/
def setLinesFrom (d : Nat) : List LineParams → List Instr
  | [] => []
  | p :: rest => pseudoSetLine (BitVec.ofNat 7 d) p ++ setLinesFrom (d + 1) rest

/-- LOADPATCH of a host table of line tuples and a mix value. -/
def pseudoLoadPatch (patch : List LineParams) (mix : Word) : List Instr :=
  setLinesFrom 0 patch ++ pseudoSetMix mix ++ [.commit]

/-- The host issues a list of instructions, in order, after whatever it was going to issue. -/
def hostIssue (is : List Instr) (s : State) : State :=
  { s with inputs := s.inputs ++ is.map (fun i => .transaction (encode i)) }

end Sys2Proof.Machine
end

