-- ==== Sys2Proof/Tests/Slice0.lean ====
section
/-!
SUPPORT. The model's own tests. Expected words and values are written from the tables of 30_encoding section 4, the
examples of 40_register_access and 41_commands, and the vectors of 95_test_vectors, whose section each test names;
none is the model's own answer. The last section meets the hypotheses of each obligation that has some.
-/

namespace Sys2Proof.Tests

open Sys2Proof.Machine Sys2Proof.Claims

/-! ### Helpers -/

/-- One line of configurations T2 and T3 of 95_test_vectors: C_d = 4, MAXD_d = 1.0. -/
def lineT : LineConfig := { cap := 4, maxd := 0x3F800000#32 }

/-- Configuration T2: FS = 4.0, N = 2. -/
def confT2 : Config := { fs := 0x40800000#32, lines := [lineT, lineT] }

/-- Configuration T3: FS = 4.0, N = 1. -/
def confT3 : Config := { fs := 0x40800000#32, lines := [lineT] }

/-- T2 at reset. -/
def fresh : State := State.atReset confT2

/-- The state after an instruction. -/
def after (i : Instr) (s : State) : State :=
  match exec i s with
  | .next t => t
  | _ => s

/-- The state after a step. -/
def afterStep (s : State) : State :=
  match step s with
  | .next t => t
  | _ => s

/-- Every instruction goes on to the state after it. -/
theorem test_exec_goes (i : Instr) (s : State) : exec i s = .next (after i s) := by cases i <;> rfl

/-- The step goes on. -/
def stepGoes (s : State) : Bool :=
  match step s with
  | .next _ => true
  | _ => false

/-- A step that goes on goes on to the state after it. -/
theorem test_step_goes {s : State} (h : stepGoes s = true) : step s = .next (afterStep s) := by
  unfold stepGoes at h
  unfold afterStep
  cases hs : step s with
  | next t => rfl
  | fault r => rw [hs] at h; simp at h
  | refused r => rw [hs] at h; simp at h

/-- What the last read returned. -/
def lastWord (s : State) : Option Word := s.returned.getLast?

/-- The host issues one transaction word. -/
def issue (t : Txn) (s : State) : State := { s with inputs := [.transaction t] }

/-- STATUS, ERRADDR and the returned words after one transaction from reset in T2. -/
def outcome (t : Txn) : Word × Word × List Word :=
  let s := afterStep (issue t fresh)
  (s.status, s.errAddr, s.returned)

/-- The buffer of 95 section 2.5 at WPTR = 0: word 1 old = 1.0, 2 old = 2.0, 3 old = 3.0, the oldest = 4.0. -/
def bufT : Buffer :=
  bufWrite (bufWrite (bufWrite (bufWrite [] 0 0x40800000#32) 1 0x40400000#32) 2 0x40000000#32) 3 0x3F800000#32

/-- A line of T3 with that buffer and every register different. -/
def lineB : Line :=
  { cap := 4, maxd := 0x3F800000#32,
    baseStg := 0x00000001#32, depthStg := 0x00000002#32, freqStg := 0x00000003#32, fbStg := 0x00000004#32,
    levelStg := 0x00000005#32, cfgStg := { route := .center, interp := .linear },
    base := 0x3EC00000#32, depth := 0x00000000#32, freq := 0x3F800000#32, fb := 0x3F000000#32,
    level := 0x3F800000#32, cfg := { route := .right, interp := .allpass },
    phase := 0x00000000#32, wptr := 0, delay := 0x3F000000#32, lastrd := 0x3F800000#32, buf := bufT }

/-- A block of T2 whose line 1 is `lineB` and whose global registers all differ. -/
def busy : State :=
  { fs := 0x40800000#32, rst := false, inputs := [], returned := [], status := 0x0000010A#32,
    errAddr := 0x80000003#32, frames := 0xFFFFFFFF#32, inL := 0x3F800000#32, inR := 0x3F000000#32,
    outL := 0x00000011#32, outR := 0x00000012#32, mixStg := 0x3E800000#32, mix := 0x3F800000#32,
    lines := [Line.atReset lineT, lineB] }

/-- The block of T3 with one line. -/
def oneLine (l : Line) : State := { busy with lines := [l], status := 0#32 }

/-! ### WellFormed refuses an ill-formed term of each check (30_encoding R92, R97) -/

theorem test_wf_refuses_line_beyond_n : Instr.wf 2 (.rdCap 2#7) = false ∧ Instr.wf 2 (.rdCap 1#7) = true := by decide

theorem test_wf_refuses_reserved_route : Instr.wf 2 (.wrCfgStg 1#7 0x00000003#32) = false := by decide

theorem test_wf_refuses_reserved_interp : Instr.wf 2 (.wrCfgStg 1#7 0x00000032#32) = false := by decide

/-! ### Every constructor's word, written out from 30_encoding section 4, decodes to it, and is what it encodes to -/

/-- The word decodes to the instruction on four lines, and the encoder writes the same word. -/
def reads (t : Txn) (i : Instr) : Bool := decode 4 t = .op i && encode i = t

theorem test_decode_commands :
    reads 0x800000000000#48 .nop = true ∧
    reads 0x800000000001#48 .step = true ∧
    reads 0x800000000002#48 .commit = true ∧
    reads 0x800000000003#48 .reset = true := by decide

theorem test_decode_global_reads :
    reads 0x000000000000#48 .rdCmd = true ∧
    reads 0x000100000000#48 .rdStatus = true ∧
    reads 0x000200000000#48 .rdErraddr = true ∧
    reads 0x000300000000#48 .rdFs = true ∧
    reads 0x000400000000#48 .rdNlines = true ∧
    reads 0x000500000000#48 .rdFrames = true ∧
    reads 0x000600000000#48 .rdInL = true ∧
    reads 0x000700000000#48 .rdInR = true ∧
    reads 0x000800000000#48 .rdOutL = true ∧
    reads 0x000900000000#48 .rdOutR = true ∧
    reads 0x000A00000000#48 .rdMixStg = true ∧
    reads 0x000B00000000#48 .rdMix = true := by decide

theorem test_decode_global_writes :
    reads 0x80010000001F#48 (.wrStatus 0x0000001F#32) = true ∧
    reads 0x80063F800000#48 (.wrInL 0x3F800000#32) = true ∧
    reads 0x8007BF000000#48 (.wrInR 0xBF000000#32) = true ∧
    reads 0x800A3FC00000#48 (.wrMixStg 0x3FC00000#32) = true := by decide

theorem test_decode_line_writes :
    reads 0x90203F000000#48 (.wrBaseStg 1#7 0x3F000000#32) = true ∧
    reads 0x90213E800000#48 (.wrDepthStg 1#7 0x3E800000#32) = true ∧
    reads 0x90223F800000#48 (.wrFreqStg 1#7 0x3F800000#32) = true ∧
    reads 0x9023FFC12345#48 (.wrFbStg 1#7 0xFFC12345#32) = true ∧
    reads 0x9024BF800000#48 (.wrLevelStg 1#7 0xBF800000#32) = true ∧
    reads 0x902500000012#48 (.wrCfgStg 1#7 0x00000012#32) = true := by decide

theorem test_decode_staging_reads :
    reads 0x102000000000#48 (.rdBaseStg 1#7) = true ∧
    reads 0x102100000000#48 (.rdDepthStg 1#7) = true ∧
    reads 0x102200000000#48 (.rdFreqStg 1#7) = true ∧
    reads 0x102300000000#48 (.rdFbStg 1#7) = true ∧
    reads 0x102400000000#48 (.rdLevelStg 1#7) = true ∧
    reads 0x102500000000#48 (.rdCfgStg 1#7) = true := by decide

theorem test_decode_active_reads :
    reads 0x104800000000#48 (.rdBase 2#7) = true ∧
    reads 0x104900000000#48 (.rdDepth 2#7) = true ∧
    reads 0x104A00000000#48 (.rdFreq 2#7) = true ∧
    reads 0x104B00000000#48 (.rdFb 2#7) = true ∧
    reads 0x104C00000000#48 (.rdLevel 2#7) = true ∧
    reads 0x104D00000000#48 (.rdCfg 2#7) = true := by decide

theorem test_decode_datapath_reads :
    reads 0x107000000000#48 (.rdPhase 3#7) = true ∧
    reads 0x107100000000#48 (.rdWptr 3#7) = true ∧
    reads 0x107200000000#48 (.rdDelay 3#7) = true ∧
    reads 0x107300000000#48 (.rdLastrd 3#7) = true ∧
    reads 0x107400000000#48 (.rdCap 3#7) = true ∧
    reads 0x107500000000#48 (.rdMaxd 3#7) = true := by decide

/-- The top of the line field, and the table form of the decoder. -/
theorem test_decode_last_line :
    decode 128 0x1FF500000000#48 = .op (.rdMaxd 127#7) ∧
    decodeTableWord 48 0x1FF500000000 = some (.rdMaxd 127#7) ∧
    decodeTableWord 48 0x902500000003 = none := by decide

/-- 95 section 2.1 and 30_encoding R100 to R105: unmapped, read-only and reserved words, and ignored bits. -/
theorem test_decode_errors :
    decode 2 0x200000000000#48 = .error .eaddr ∧ decode 2 0x000C00000000#48 = .error .eaddr ∧
    decode 2 0x900600000005#48 = .error .eaddr ∧ decode 2 0x104000000000#48 = .error .eaddr ∧
    decode 2 0x901400000005#48 = .error .ero ∧ decode 2 0x800500000000#48 = .error .ero ∧
    decode 2 0x80000000000F#48 = .error .ecmd ∧ decode 2 0x90250000003E#48 = .error .efield ∧
    decode 2 0x00003F800000#48 = .op .rdCmd ∧ decode 2 0x800000000011#48 = .op .step := by decide

/-! ### binary32 (00_scope R21 to R25), from the vectors of 95 section 2 -/

/-- 2.3: the increment, and the sums of the phase advance. -/
theorem test_f32_oscillator :
    F32.div 0x3DCCCCCD#32 0x473B8000#32 = 0x360BCF65#32 ∧ F32.div 0x0DA24260#32 0x473B8000#32 = 0x05DD89BA#32 ∧
    F32.add 0x3F7FFFFF#32 0x33000000#32 = 0x3F800000#32 ∧ F32.add 0x3F7FFFFF#32 0x32FFFFFF#32 = 0x3F7FFFFF#32 ∧
    F32.sub 0x3FC00000#32 0x3F800000#32 = 0x3F000000#32 ∧
    F32.mul 0x40C90FDB#32 0x3F400000#32 = 0x4096CBE4#32 := by decide +kernel

/-- 2.6: overflow, a subnormal tie, the default NaN, and a large finite product. -/
theorem test_f32_corners :
    F32.add 0x7F61B1E6#32 0x7F61B1E6#32 = 0x7F800000#32 ∧ F32.mul 0x00000001#32 0x3F000000#32 = 0x00000000#32 ∧
    F32.add 0x7F800000#32 0xFF800000#32 = 0x7FC00000#32 ∧ F32.mul 0x00000000#32 0xFFC12345#32 = 0x7FC00000#32 ∧
    F32.mul 0x40000000#32 0x7E967699#32 = 0x7F167699#32 := by decide +kernel

/-- 2.5, E1A at frame 1181: an underflow keeps its sign, and the sum that follows is +0; and 2.7: Inf × 0. -/
theorem test_f32_zero_signs :
    F32.mul 0x3DE37E6C#32 0x80000001#32 = 0x80000000#32 ∧ F32.add 0x00000000#32 0x80000000#32 = 0x00000000#32 ∧
    F32.add 0x80000000#32 0x80000000#32 = 0x80000000#32 ∧ F32.sub 0x3F800000#32 0x3F800000#32 = 0x00000000#32 ∧
    F32.mul 0x7F800000#32 0x00000000#32 = 0x7FC00000#32 := by decide +kernel

/-- 2.5 and 2.7: quotients, and 1132.8 samples cut at the line's capacity (section 1, E1 and E6). -/
theorem test_f32_reader_and_mixer :
    F32.div 0x3F000000#32 0x3FC00000#32 = 0x3EAAAAAB#32 ∧ F32.div 0x3F19999A#32 0x40400000#32 = 0x3E4CCCCD#32 ∧
    F32.mul 0x3CC154CA#32 0x473B8000#32 = 0x448D999A#32 ∧ F32.rnd 0x448D999A#32 = 1133 ∧
    F32.floor 0x448D999A#32 = 1132 ∧ F32.ofInt 4799 = 0x4595F800#32 ∧
    F32.clamp 0x45960000#32 F32.zero (F32.ofInt 4799) = 0x4595F800#32 := by decide +kernel

/-! ### One instruction on a small state -/

/-- 95 section 2.1 and the examples of 40_register_access section 2. -/
theorem test_global_reads :
    [Instr.rdCmd, .rdStatus, .rdErraddr, .rdFs, .rdNlines, .rdFrames, .rdInL, .rdInR, .rdOutL, .rdOutR, .rdMixStg,
      .rdMix].map (fun i => lastWord (after i busy)) =
    [some 0x00000000#32, some 0x0000010A#32, some 0x80000003#32, some 0x40800000#32, some 0x00000002#32,
      some 0xFFFFFFFF#32, some 0x3F800000#32, some 0x3F000000#32, some 0x00000011#32, some 0x00000012#32,
      some 0x3E800000#32, some 0x3F800000#32] := by decide +kernel

/-- 40_register_access sections 3 to 5, on line 1. -/
theorem test_line_reads :
    [Instr.rdBaseStg 1#7, .rdDepthStg 1#7, .rdFreqStg 1#7, .rdFbStg 1#7, .rdLevelStg 1#7, .rdCfgStg 1#7, .rdBase 1#7,
      .rdDepth 1#7, .rdFreq 1#7, .rdFb 1#7, .rdLevel 1#7, .rdCfg 1#7, .rdPhase 1#7, .rdWptr 1#7, .rdDelay 1#7,
      .rdLastrd 1#7, .rdCap 1#7, .rdMaxd 1#7].map (fun i => lastWord (after i busy)) =
    [some 0x00000001#32, some 0x00000002#32, some 0x00000003#32, some 0x00000004#32, some 0x00000005#32,
      some 0x00000012#32, some 0x3EC00000#32, some 0x00000000#32, some 0x3F800000#32, some 0x3F000000#32,
      some 0x3F800000#32, some 0x00000021#32, some 0x00000000#32, some 0x00000000#32, some 0x3F000000#32,
      some 0x3F800000#32, some 0x00000004#32, some 0x3F800000#32] := by decide +kernel

/-- 40_register_access R123: STATUS = 0x0000010A, a write of 0x1F leaves 0x00000100, and ERRADDR stays. -/
theorem test_wr_status :
    (after (.wrStatus 0x0000001F#32) busy).status = 0x00000100#32 ∧
    (after (.wrStatus 0x0000001F#32) busy).errAddr = 0x80000003#32 ∧
    (after (.wrStatus 0xFFFFFFF7#32) busy).status = 0x00000108#32 := by decide +kernel

/-- 95 section 2.1: a NaN sample is stored unchanged and PEND is not set (R128, R130). -/
theorem test_wr_samples :
    (after (.wrInL 0x7FC00001#32) fresh).inL = 0x7FC00001#32 ∧ (after (.wrInL 0x7FC00001#32) fresh).status = 0#32 ∧
    (after (.wrInR 0xBF000000#32) fresh).inR = 0xBF000000#32 := by decide +kernel

/-- 95 section 1, E5: the MIX_STG clamp. -/
theorem test_wr_mix_stg :
    [0x3FD9999A#32, 0xBE99999A#32, 0x7FC00000#32, 0xFF800000#32, 0x7F800000#32, 0x80000000#32, 0x3E800000#32].map
      (fun d => (after (.wrMixStg d) fresh).mixStg) =
    [0x3F800000#32, 0x00000000#32, 0x00000000#32, 0x00000000#32, 0x3F800000#32, 0x00000000#32, 0x3E800000#32] := by
  decide +kernel

/-- The five staging writes of line 1, from reset. -/
def staged : State :=
  after (.wrLevelStg 1#7 0xBF800000#32) (after (.wrFbStg 1#7 0xFFC12345#32) (after (.wrFreqStg 1#7 0x3F800000#32)
    (after (.wrDepthStg 1#7 0x3E800000#32) (after (.wrBaseStg 1#7 0x3F000000#32) fresh))))

/-- 40_register_access R137 to R141: each staging write reaches its own register of its own line and sets PEND. -/
theorem test_staging_writes :
    staged.lines[0]? = some (Line.atReset lineT) ∧
    staged.lines[1]?.map staging = some (0x3F000000#32, 0x3E800000#32, 0x3F800000#32, 0xFFC12345#32, 0xBF800000#32,
      { route := .left, interp := .round }) ∧
    staged.lines[1]?.map active = some (active (Line.atReset lineT)) ∧ staged.status = 0x00000100#32 :=
  ⟨by decide +kernel, by decide +kernel, by decide +kernel, by decide +kernel⟩

/-- 40_register_access R142: ROUTE=CENTER INTERP=LINEAR is stored, ignored bits are not; a reserved code is EFIELD. -/
theorem test_wr_cfg_stg :
    (after (.wrCfgStg 1#7 0xFFFFFFDE#32) fresh).lines[1]?.map Line.cfgStg =
      some { route := .center, interp := .linear } ∧
    (after (.wrCfgStg 1#7 0x0000003E#32) fresh).status = 0x00000004#32 ∧
    (after (.wrCfgStg 1#7 0x0000003E#32) fresh).errAddr = 0x80001025#32 := by decide +kernel

/-- 95 section 2.2: NOP and COMMIT. -/
theorem test_nop_and_commit :
    after .nop busy = busy ∧
    (after .commit busy).lines[1]?.map active =
      some (0x00000001#32, 0x00000002#32, 0x00000003#32, 0x00000004#32, 0x00000005#32,
        { route := .center, interp := .linear }) ∧
    (after .commit busy).mix = 0x3E800000#32 ∧ (after .commit busy).status = 0x0000000A#32 := by decide +kernel

/-- 95 section 2.2: RESET of any state. -/
theorem test_reset : after .reset busy = fresh := by decide +kernel

/-- 95 section 2.5: the ALLPASS row Ds = 1.5, LASTRD = 1.0 gives y = 3FFFFFFF; with FB = 0.5 and IN_R = 0.5 the word
under the cursor becomes 0.5 + 0.5 × y = 1.5 (rounded to even), OUT_R is y at MIX = 1.0, the phase advances by 0.25 and
FRAMES wraps (2.2). -/
theorem test_step_allpass :
    (after .step (oneLine lineB)).lines.map
      (fun l => (l.phase, l.wptr, l.delay, l.lastrd, (List.range 4).map (bufRead l.buf))) =
      [(0x3E800000#32, 1, 0x3FC00000#32, 0x3FFFFFFF#32,
        [0x3FC00000#32, 0x40400000#32, 0x40000000#32, 0x3F800000#32])] ∧
    (after .step (oneLine lineB)).outR = 0x3FFFFFFF#32 ∧ (after .step (oneLine lineB)).outL = 0x00000000#32 ∧
    (after .step (oneLine lineB)).frames = 0x00000000#32 ∧ (after .step (oneLine lineB)).status = 0#32 := by
  decide +kernel

/-- 95 section 2.5: LINEAR at Ds = 2.75 and ROUND at 1.5 and 2.5; a CENTER line feeds half to each side (2.7). -/
theorem test_step_linear_and_round :
    ([(0x3F300000#32, Interp.linear), (0x3EC00000#32, .round), (0x3F200000#32, .round)].map (fun p =>
      (after .step (oneLine { lineB with base := p.1, cfg := { route := .center, interp := p.2 } })).outL)) =
    [0x3FB00000#32, 0x3F800000#32, 0x3FC00000#32] := by decide +kernel

/-! ### One step of the machine -/

/-- 95 section 2.1: each error's STATUS and ERRADDR, and the 0 an erroneous read returns. -/
theorem test_step_errors :
    outcome 0x000C00000000#48 = (0x00000002#32, 0x0000000C#32, [0x00000000#32]) ∧
    outcome 0x900600000005#48 = (0x00000002#32, 0x80001006#32, []) ∧
    outcome 0x104000000000#48 = (0x00000002#32, 0x00001040#32, [0x00000000#32]) ∧
    outcome 0x901400000005#48 = (0x00000008#32, 0x80001014#32, []) ∧
    outcome 0x80000000000F#48 = (0x00000001#32, 0x80000000#32, []) := by decide +kernel

/-- Log 5: the word placed by withFetchWord is the first instruction after reset, on whatever configuration. -/
theorem test_fetch_word_runs :
    step (State.reset.withFetchWord 48 0x800000000001) = exec .step State.reset ∧
    step (State.reset.withFetchWord 48 0x900000000000) = exec (.wrBaseStg 0#7 0#32) State.reset := ⟨rfl, rfl⟩

/-- 30_encoding R107: `WR FB_STG[1], -0.5` and `WR CFG_STG[1], ROUTE=CENTER INTERP=LINEAR` assemble to their words. -/
theorem test_assemble :
    assemble (.wr (.line .fbStg 1) (.decimal true 1 2)) = some 0x9023BF000000#48 ∧
    assemble (.wr (.line .cfgStg 1) (.cfg { route := .center, interp := .linear })) = some 0x902500000012#48 ∧
    assemble (.rd (.global .frames)) = some 0x000500000000#48 := by decide +kernel

/-! ### Witnesses: for each obligation with hypotheses, a state and operands that meet them together -/

theorem witness_DecodeInvertsEncode :
    Instr.wf 1 .nop = true ∧ Instr.wf 128 (.rdMaxd 127#7) = true ∧ Instr.wf 1 (.wrCfgStg 0#7 0xFFFFFFEE#32) = true := by
  decide

/-- Each check of R99 at the edges of its range, and a word that passes them all. -/
theorem witness_DecodeFollowsTheOrderedChecks :
    firstError 2 0x000B00000000#48 = none ∧ firstError 2 0x000C00000000#48 = some .eaddr ∧
    firstError 2 0x800200000000#48 = some .ero ∧ firstError 2 0x800B00000000#48 = some .ero ∧
    firstError 2 0x800000000003#48 = none ∧ firstError 2 0x800000000004#48 = some .ecmd ∧
    firstError 2 0x103500000000#48 = none ∧ firstError 2 0x104000000000#48 = some .eaddr ∧
    firstError 2 0x103600000000#48 = some .eaddr ∧ firstError 2 0x902800000000#48 = some .ero ∧
    firstError 2 0x902500000003#48 = some .efield ∧ firstError 2 0x902500000030#48 = some .efield ∧
    firstError 2 0x902500000022#48 = none ∧ firstError 2 0x200000000000#48 = some .eaddr := by decide

theorem witness_NoWordMatchesTwoRows :
    0x902500000012#48 &&& (opcodeRow (.wrCfgStg 0#7 0#32)).2 = (opcodeRow (.wrCfgStg 0#7 0#32)).1 ∧
    0x902500000012#48 &&& (opcodeRow (.wrCfgStg 5#7 9#32)).2 = (opcodeRow (.wrCfgStg 5#7 9#32)).1 := by decide

/-- `busy` has every invariant; so R104's last clause, and the statements that assume `Line.Inv`, are not empty. -/
theorem witness_Inv : busy.Inv := by decide +kernel

theorem witness_StepRunsTheDecodedInstruction :
    (issue 0x103200000000#48 busy).inputs = .transaction 0x103200000000#48 :: [] ∧
    (issue 0x103200000000#48 busy).rst = false ∧
    decode (issue 0x103200000000#48 busy).lines.length 0x103200000000#48 = .op (.rdDelay 1#7) := by decide

theorem witness_StepRecordsADecodeError :
    (issue 0x104000000000#48 busy).inputs = .transaction 0x104000000000#48 :: [] ∧
    (issue 0x104000000000#48 busy).rst = false ∧
    decode (issue 0x104000000000#48 busy).lines.length 0x104000000000#48 = .error .eaddr := by decide

/-- The pin driven high, released, and kept low. -/
theorem witness_ResetPinGivesTheResetState :
    ({ busy with inputs := [.rst true] } : State).inputs = .rst true :: [] ∧
    ({ busy with rst := true, inputs := [.rst false] } : State).inputs = .rst false :: [] ∧
    ({ busy with inputs := [.rst false] } : State).inputs = .rst false :: [] := by decide

theorem witness_IdleAndRefusedEvents :
    busy.inputs = [] ∧ (issue 0#48 { busy with rst := true }).inputs = .transaction 0#48 :: [] ∧
    (issue 0#48 { busy with rst := true }).rst = true := by decide

theorem witness_EveryTransactionGoesOn :
    (issue 0xFFFFFFFFFFFF#48 busy).inputs = .transaction 0xFFFFFFFFFFFF#48 :: [] ∧
    (issue 0xFFFFFFFFFFFF#48 busy).rst = false := by decide

theorem witness_LineBeyondNRecordsEaddr :
    (Instr.wrCfgStg 2#7 0x00000003#32).line? = some 2#7 ∧ busy.lines.length ≤ (2#7).toNat := by decide

/-- Each field reserved alone. -/
theorem witness_ReservedCfgCodeRecordsEfield :
    (1#7).toNat < busy.lines.length ∧
    ((0x00000003#32).extractLsb' 0 2).toNat = 3 ∧ ((0x00000030#32).extractLsb' 4 2).toNat = 3 := by decide

/-- A step that adds an error bit. -/
theorem witness_StepAddsAtMostOneError :
    step (issue 0x800000000004#48 fresh) = .next (afterStep (issue 0x800000000004#48 fresh)) ∧
    (afterStep (issue 0x800000000004#48 fresh)).status = 0x00000001#32 :=
  ⟨test_step_goes (by decide +kernel), by decide +kernel⟩

/-- ERRADDR changes by an error, and by RESET. -/
theorem witness_ErrAddrKeepsTheFirstError :
    step (issue 0x800000000004#48 fresh) = .next (afterStep (issue 0x800000000004#48 fresh)) ∧
    (afterStep (issue 0x800000000004#48 fresh)).errAddr ≠ (issue 0x800000000004#48 fresh).errAddr ∧
    step (issue 0x800000000003#48 busy) = .next (afterStep (issue 0x800000000003#48 busy)) ∧
    (afterStep (issue 0x800000000003#48 busy)).errAddr ≠ (issue 0x800000000003#48 busy).errAddr :=
  ⟨test_step_goes (by decide +kernel), by decide +kernel, test_step_goes (by decide +kernel), by decide +kernel⟩

/-- err falls by a write to STATUS. -/
theorem witness_ErrOutputIsTheStickyBits :
    step (issue 0x80010000001F#48 busy) = .next (afterStep (issue 0x80010000001F#48 busy)) ∧
    errOutput (issue 0x80010000001F#48 busy) = true ∧
    errOutput (afterStep (issue 0x80010000001F#48 busy)) = false :=
  ⟨test_step_goes (by decide +kernel), by decide +kernel, by decide +kernel⟩

theorem witness_LineReadsReturnTheirRegister : busy.lines[(1#7).toNat]? = some lineB := rfl

theorem witness_StagingWritesStoreTheirWord : busy.lines[(0#7).toNat]? = some (Line.atReset lineT) := rfl

theorem witness_CfgWriteStoresBothCodes :
    busy.lines[(1#7).toNat]? = some lineB ∧ ((0x00000012#32).extractLsb' 0 2).toNat ≠ 3 ∧
    ((0x00000012#32).extractLsb' 4 2).toNat ≠ 3 := ⟨rfl, by decide, by decide⟩

/-- Stored, refused for its line and refused for its code; COMMIT, RESET and another instruction. -/
theorem witness_PendFollowsStagingWrites :
    [Instr.wrBaseStg 1#7 0#32, .wrBaseStg 2#7 0#32, .wrCfgStg 1#7 0#32, .wrCfgStg 1#7 3#32, .commit, .reset,
      .rdCmd].map (fun i => exec i fresh) =
    [Instr.wrBaseStg 1#7 0#32, .wrBaseStg 2#7 0#32, .wrCfgStg 1#7 0#32, .wrCfgStg 1#7 3#32, .commit, .reset,
      .rdCmd].map (fun i => .next (after i fresh)) := List.map_congr_left fun i _ => test_exec_goes i fresh

/-- FRAMES changes by a STEP and by RESET. -/
theorem witness_FramesCountsSteps :
    step (issue 0x800000000001#48 busy) = .next (afterStep (issue 0x800000000001#48 busy)) ∧
    (afterStep (issue 0x800000000001#48 busy)).frames ≠ (issue 0x800000000001#48 busy).frames ∧
    step (issue 0x800000000003#48 busy) = .next (afterStep (issue 0x800000000003#48 busy)) ∧
    (afterStep (issue 0x800000000003#48 busy)).frames ≠ (issue 0x800000000003#48 busy).frames :=
  ⟨test_step_goes (by decide +kernel), by decide +kernel, test_step_goes (by decide +kernel), by decide +kernel⟩

theorem witness_WriteAccessMatrix :
    exec .step busy = .next (after .step busy) ∧ exec .commit busy = .next (after .commit busy) ∧
    exec (.wrInL 1#32) busy = .next (after (.wrInL 1#32) busy) :=
  ⟨test_exec_goes _ _, test_exec_goes _ _, test_exec_goes _ _⟩

theorem witness_RepeatedWritesAreIdempotent :
    txnWrite (encode (.wrBaseStg 9#7 1#32)) = true ∧
    exec (.wrBaseStg 9#7 1#32) fresh = .next (after (.wrBaseStg 9#7 1#32) fresh) ∧
    after (.wrBaseStg 9#7 1#32) fresh ≠ fresh :=
  ⟨by decide, test_exec_goes _ _, by decide +kernel⟩

theorem witness_StepRunsOneFrame : ∀ l ∈ busy.lines, l.wptr < l.cap := by decide

/-- `busy` with another BASE_STG and another MIX_STG. -/
def restaged : State :=
  { busy with lines := [{ Line.atReset lineT with baseStg := 7#32 }, lineB], mixStg := 0#32 }

/-- Two states that differ in a staging register and in MIX_STG. -/
theorem witness_StepReadsNoStagingRegister :
    ({ restaged with lines := [], mixStg := busy.mixStg } : State) = { busy with lines := [] } ∧
    restaged.lines.map (fun l => (l.config, active l, datapath l)) =
      busy.lines.map (fun l => (l.config, active l, datapath l)) ∧
    exec .step busy = .next (after .step busy) ∧ exec .step restaged = .next (after .step restaged) :=
  ⟨rfl, rfl, test_exec_goes _ _, test_exec_goes _ _⟩

/-- Two states that differ in the other line and in the mixer's registers. -/
theorem witness_LinesAreIndependent :
    let s' : State := { busy with lines := [lineB, lineB], mix := 0#32, frames := 0#32 }
    s'.fs = busy.fs ∧ s'.inL = busy.inL ∧ s'.inR = busy.inR ∧
    busy.lines[1]? = some lineB ∧ s'.lines[1]? = some lineB ∧
    exec .step busy = .next (stepFrame busy) ∧ exec .step s' = .next (stepFrame s') ∧
    (∃ m, (stepFrame busy).lines[1]? = some m) ∧ ∃ m', (stepFrame s').lines[1]? = some m' :=
  ⟨rfl, rfl, rfl, rfl, rfl, rfl, rfl, ⟨_, rfl⟩, ⟨_, rfl⟩⟩

theorem witness_StagingWriteCommutesWithStep :
    (Instr.wrBaseStg 1#7 7#32).line? = some 1#7 ∧ txnWrite (encode (.wrBaseStg 1#7 7#32)) = true ∧
    exec (.wrBaseStg 1#7 7#32) busy = .next (after (.wrBaseStg 1#7 7#32) busy) ∧
    (∃ u, exec .step (after (.wrBaseStg 1#7 7#32) busy) = .next u) ∧
    exec .step busy = .next (stepFrame busy) ∧ ∃ u', exec (.wrBaseStg 1#7 7#32) (stepFrame busy) = .next u' :=
  ⟨rfl, rfl, rfl, ⟨_, rfl⟩, rfl, ⟨_, rfl⟩⟩

/-- A sine with S1 to S3: zero on finite values, a NaN elsewhere. -/
theorem witness_SineHasItsThreeProperties :
    IsSine (fun x => if F32.isFinite x then 0x00000000#32 else 0x7FC00000#32) := by
  refine ⟨by decide, fun x h => ?_, fun x h => ?_⟩ <;> simp only [h] <;> decide

/-- The ends of FS; each clause's FREQ: a NaN, −0, +0, −Inf; just above FS / 2, and +Inf. -/
theorem witness_PhaseIncrementCorners :
    0x00800000 ≤ (0x00800000#32).toNat ∧ (0x7F7FFFFF#32).toNat ≤ 0x7F7FFFFF ∧
    F32.isNaN 0x7FC00000#32 = true ∧ F32.sign 0x80000000#32 = true ∧ F32.isZero 0x00000000#32 = true ∧
    F32.sign 0xFF800000#32 = true ∧
    F32.isNaN 0x40000001#32 = false ∧ F32.key 0x40800000#32 < 2 * F32.key 0x40000001#32 ∧
    F32.isNaN 0x7F800000#32 = false ∧ F32.key 0x7F7FFFFF#32 < 2 * F32.key 0x7F800000#32 := by decide +kernel

/-- PHASE at both ends of [0, 1). -/
theorem witness_PhaseStaysInOneCycle :
    let s : State := { busy with lines := [lineB, { lineB with phase := 0x3F7FFFFF#32 }] }
    (∀ l ∈ s.lines, InHalfOpen l.phase 0x3F800000#32) ∧ exec .step s = .next (stepFrame s) :=
  ⟨by decide +kernel, rfl⟩

/-- C_d at both ends of its range. -/
theorem witness_DelayStaysBelowCapacity :
    let s : State := { busy with lines := [{ lineB with cap := 2 }, { lineB with cap := 2 ^ 24 }] }
    (∀ l ∈ s.lines, 2 ≤ l.cap ∧ l.cap ≤ 2 ^ 24) ∧ exec .step s = .next (stepFrame s) := ⟨by decide, rfl⟩

theorem witness_BufferIndicesAreInRange :
    2 ≤ ({ lineB with cap := 2 } : Line).cap ∧ ({ lineB with cap := 2 ^ 24 } : Line).cap ≤ 2 ^ 24 ∧
    2 ≤ lineB.cap ∧ lineB.cap ≤ 2 ^ 24 := by decide

/-- Ds = 0, and Ds = C_d − 1 for the smallest and the largest C_d. -/
theorem witness_FractionIsExact :
    InClosed 0x00000000#32 (F32.ofInt ((2 : Nat) - 1)) ∧ InClosed 0x3F800000#32 (F32.ofInt (((2 : Nat) : Int) - 1)) ∧
    InClosed 0x4B7FFFFF#32 (F32.ofInt (((2 ^ 24 : Nat) : Int) - 1)) := by decide +kernel

/-- The buffer of the tests is canonical, and has a word written over and a word left. -/
theorem witness_BufferReadsBackItsWrites : Buffer.wf bufT ∧ Buffer.wf [] := by decide +kernel

theorem witness_BufferHoldsTheLastWrites :
    lineB.Inv ∧ exec .step busy = .next (stepFrame busy) ∧ busy.lines[1]? = some lineB ∧
    (∃ m, (stepFrame busy).lines[1]? = some m) ∧ (1 : Int) ≤ 1 ∧ (3 : Int) < lineB.cap :=
  ⟨by decide +kernel, rfl, rfl, ⟨_, rfl⟩, by decide, by decide⟩

/-- Whole-sample delays 0 and C_d − 1, with finite words. -/
theorem witness_WholeSampleDelaysReadOneWord :
    ([0x00000000#32, 0x40400000#32].all fun ds => decide (InClosed ds (F32.ofInt (((4 : Nat) : Int) - 1)) ∧
      F32.key ds = F32.floor ds * 2 ^ 149 ∧ F32.isFinite (old lineB (F32.floor ds)) = true ∧
      F32.isFinite (F32.sub (old lineB (F32.floor ds + 1)) (old lineB (F32.floor ds))) = true ∧
      F32.isFinite (old lineB (F32.floor ds - 1)) = true)) = true ∧ F32.isFinite lineB.lastrd = true := by
  decide +kernel

/-- A line whose oldest word is a NaN, read at Ds = 0. -/
theorem witness_NaNIsWrittenBack :
    let l : Line := { lineB with
      base := 0x00000000#32, cfg := { route := .left, interp := .round }, buf := bufWrite bufT 0 0x7FC00001#32 }
    l.Inv ∧ exec .step (oneLine l) = .next (stepFrame (oneLine l)) ∧ (oneLine l).lines[0]? = some l ∧
    ∃ m, (stepFrame (oneLine l)).lines[0]? = some m ∧ F32.isNaN m.lastrd = true :=
  ⟨by decide +kernel, rfl, rfl, _, rfl, by decide +kernel⟩

/-- An active line that is not CENTER, and an inactive one that is. -/
theorem witness_WetIsTheMeanOfActiveLines :
    let s : State := { busy with
      lines := [lineB, { lineB with level := 0x00000000#32, cfg := { route := .center, interp := .round } }] }
    exec .step s = .next (stepFrame s) ∧ Active lineB ∧ ∀ l ∈ s.lines, Active l → l.cfg.route ≠ .center :=
  ⟨rfl, by unfold Active; decide +kernel, by unfold Active; decide +kernel⟩

theorem witness_ResetBlockPassesInputsDry :
    F32.isFinite 0x3F800000#32 = true ∧ F32.isFinite 0xBF000000#32 = true ∧
    exec .step { State.atReset confT2 with inL := 0x3F800000#32, inR := 0xBF000000#32 } =
      .next (stepFrame { State.atReset confT2 with inL := 0x3F800000#32, inR := 0xBF000000#32 }) :=
  ⟨by decide, by decide, rfl⟩

/-- Finite operands on both sides of the overflow threshold, and divisors of both signs. -/
theorem witness_ArithmeticIsCorrectlyRounded :
    F32.isFinite 0x7F7FFFFF#32 = true ∧ F32.isFinite 0x80000001#32 = true ∧
    |F32.key 0x7F7FFFFF#32 + F32.key 0x80000001#32| < (2 ^ 25 - 1) * 2 ^ 252 * 1 ∧
    (2 ^ 25 - 1) * 2 ^ 252 * 1 ≤ |F32.key 0x7F7FFFFF#32 + F32.key 0x7F7FFFFF#32| ∧
    0 < F32.key 0x7F7FFFFF#32 ∧ F32.key 0x80000001#32 < 0 := by decide +kernel

/-- Exact zero sums and differences, of zeros of both signs and of equal values. -/
theorem witness_ZeroSums :
    F32.isFinite 0x80000000#32 = true ∧ F32.isFinite 0x3F800000#32 = true ∧
    F32.key 0x80000000#32 + F32.key 0x80000000#32 = 0 ∧ F32.key 0x80000000#32 + F32.key 0x00000000#32 = 0 ∧
    F32.key 0x80000000#32 - F32.key 0x00000000#32 = 0 ∧ F32.key 0x3F800000#32 - F32.key 0x3F800000#32 = 0 := by
  decide +kernel

/-- Each clause's operands: an infinity beside a finite value and beside one of its own or of the other sign, beside a
value that is not zero, and the three quotients. -/
theorem witness_InfinitiesAndZeroDivisorsGiveTheirLimits :
    F32.isInf 0x7F800000#32 = true ∧ F32.isInf 0xFF800000#32 = true ∧ F32.isNaN 0x7F7FFFFF#32 = false ∧
    F32.isInf 0x7F7FFFFF#32 = false ∧ F32.isNaN 0x7F800000#32 = false ∧ F32.isNaN 0xFF800000#32 = false ∧
    F32.sign 0x7F800000#32 ≠ F32.sign 0xFF800000#32 ∧ F32.isZero 0x00000001#32 = false ∧
    F32.isNaN 0x00000001#32 = false ∧ F32.isFinite 0x00000001#32 = true ∧ F32.isZero 0x80000000#32 = true ∧
    F32.isFinite 0x80000000#32 = true := by decide

theorem witness_NaNResultsAreTheDefaultNaN :
    F32.sub 0x7F800000#32 0x7F800000#32 ∈ [F32.add 0x7F800000#32 0x7F800000#32, F32.sub 0x7F800000#32 0x7F800000#32,
      F32.mul 0x7F800000#32 0x7F800000#32, F32.div 0x7F800000#32 0x7F800000#32] ∧
    F32.isNaN (F32.sub 0x7F800000#32 0x7F800000#32) = true := by decide +kernel

theorem witness_ClampStaysBetweenItsBounds :
    F32.le 0x00000000#32 0x3F000000#32 = true ∧ F32.le 0x3F800000#32 0x3F800000#32 = true ∧
    F32.isNaN 0x7FC00000#32 = true := by decide

/-- n at both ends of its range, and a finite x. -/
theorem witness_IntegerConversionsAreExact :
    |((2 : Int) ^ 24)| ≤ 2 ^ 24 ∧ |(-(2 : Int) ^ 24)| ≤ 2 ^ 24 ∧ F32.isFinite 0x448D999A#32 = true := by decide

theorem witness_StepKeepsTheInvariants :
    confT2.wf ∧ busy.Inv ∧ step (issue 0x800000000002#48 busy) = .next (afterStep (issue 0x800000000002#48 busy)) :=
  ⟨by decide, by decide +kernel, test_step_goes (by decide +kernel)⟩

theorem witness_StepKeepsTheConfiguration :
    step (issue 0x800000000003#48 busy) = .next (afterStep (issue 0x800000000003#48 busy)) :=
  test_step_goes (by decide +kernel)

end Sys2Proof.Tests
end

section
/-!
The clamp of R22: the order of binary32 values read off their keys, and what the clamp's three cases give.
-/

namespace Sys2Proof.Machine

namespace F32

/-- `<` is the order of the keys, and false of a NaN. -/
theorem lt_iff (a b : Word) : lt a b = true ↔ isNaN a = false ∧ isNaN b = false ∧ key a < key b := by
  simp [lt, and_assoc]

/-- `≤` is the order of the keys, and false of a NaN. -/
theorem le_iff (a b : Word) : le a b = true ↔ isNaN a = false ∧ isNaN b = false ∧ key a ≤ key b := by
  simp [le, and_assoc]

protected theorem le_of_lt {a b : Word} (h : lt a b = true) : le a b = true := by
  obtain ⟨ha, hb, hkey⟩ := (lt_iff a b).1 h
  exact (le_iff a b).2 ⟨ha, hb, hkey.le⟩

theorem le_refl_left {a b : Word} (h : le a b = true) : le a a = true := by
  obtain ⟨ha, -, -⟩ := (le_iff a b).1 h
  exact (le_iff a a).2 ⟨ha, ha, le_rfl⟩

theorem le_refl_right {a b : Word} (h : le a b = true) : le b b = true := by
  obtain ⟨-, hb, -⟩ := (le_iff a b).1 h
  exact (le_iff b b).2 ⟨hb, hb, le_rfl⟩

/-- Nothing is below a NaN, so a NaN is not above the lower bound. -/
theorem gt_of_isNaN {x : Word} (lo : Word) (h : isNaN x = true) : gt x lo = false := by
  simp [gt, lt, h]

/-- The two zeros are equal as numbers. -/
theorem not_negZero_gt_zero : gt 0x80000000#32 0x00000000#32 = false := by decide

/-- What is not above the lower bound is clamped to it. -/
theorem clamp_of_not_gt {x lo : Word} (hi : Word) (h : gt x lo = false) : clamp x lo hi = lo := by
  simp [clamp, h]

end F32

/-- A clamp lies between its bounds when they are in order: the value itself lies strictly between them, and each
bound, being comparable with the other, is no NaN. -/
theorem clamp_between (x : Word) {lo hi : Word} (h : F32.le lo hi = true) :
    F32.le lo (F32.clamp x lo hi) = true ∧ F32.le (F32.clamp x lo hi) hi = true := by
  obtain ⟨hlo, hhi, heq⟩ | ⟨-, -, heq⟩ | ⟨-, heq⟩ := clamp_cases x lo hi <;> rw [heq]
  case inl => exact ⟨F32.le_of_lt hlo, F32.le_of_lt hhi⟩
  case inr.inl => exact ⟨h, F32.le_refl_right h⟩
  case inr.inr => exact ⟨F32.le_refl_left h, h⟩

end Sys2Proof.Machine

namespace Sys2Proof.Proofs

open Sys2Proof.Machine

/-- Settles O50 (R22): the clamp's definition, its value for a NaN and for −0 above +0, and its bounds. -/
theorem clampStaysBetweenItsBounds : Obligations.ClampStaysBetweenItsBounds := by
  intro x lo hi hle
  refine ⟨rfl, fun hx => ?nan, fun hlo hx => ?negZero, clamp_between x hle⟩
  case nan => exact F32.clamp_of_not_gt hi (F32.gt_of_isNaN lo hx)
  case negZero =>
    subst hlo hx
    exact F32.clamp_of_not_gt hi F32.not_negZero_gt_zero

end Sys2Proof.Proofs
end

section
/-!
STATUS.PEND and FRAMES (10_state R59, R39): what each shared operation does to them, and from that every instruction
and every step.
-/

namespace Sys2Proof.Machine

/-! ### PEND after the updates of STATUS -/

@[simp] theorem setStatusBit_pendBit_pend (status : Word) : (setStatusBit pendBit status).getLsbD pendBit = true := by
  rw [setStatusBit_getLsbD (by decide)]; simp

@[simp] theorem clearStatusBit_pendBit_pend (status : Word) :
    (clearStatusBit pendBit status).getLsbD pendBit = false := by
  rw [clearStatusBit_getLsbD (by decide)]; simp

/-- NONFIN and the decode errors are other bits than PEND. -/
theorem setStatusBit_pend_of_ne {b : Nat} (hb : b < 32) (hne : pendBit ≠ b) (status : Word) :
    (setStatusBit b status).getLsbD pendBit = status.getLsbD pendBit := by
  rw [setStatusBit_getLsbD hb]; simp [hne]

@[simp] theorem setStatusBit_errorBit_pend (k : ErrorKind) (status : Word) :
    (setStatusBit (errorBit k) status).getLsbD pendBit = status.getLsbD pendBit := by
  have hk := errorBit_lt k
  exact setStatusBit_pend_of_ne (by omega) (by unfold pendBit; omega) status

@[simp] theorem clearSticky_pend (status data : Word) :
    (clearSticky status data).getLsbD pendBit = status.getLsbD pendBit := by
  rw [clearSticky_getLsbD]; simp [pendBit]

/-! ### PEND after the shared operations -/

/-- Of STATUS a STEP changes at most NONFIN (R181). -/
theorem stepFrame_status_cases (s : State) :
    (stepFrame s).status = setStatusBit nonfinBit s.status ∨ (stepFrame s).status = s.status :=
  ite_eq_or_eq _ _ _

@[simp] theorem stepFrame_pend (s : State) : (stepFrame s).status.getLsbD pendBit = s.status.getLsbD pendBit := by
  obtain h | h := stepFrame_status_cases s <;> rw [h]
  exact setStatusBit_pend_of_ne (by decide) (by decide) s.status

@[simp] theorem readLineReg_pend (off : BitVec 5) (d : LineIx) (value : Line → Word) (s : State) :
    (readLineReg off d value s).status.getLsbD pendBit = s.status.getLsbD pendBit := by
  obtain ⟨l, -, h⟩ | ⟨-, h⟩ := readLineReg_cases off d value s <;> simp [h]

@[simp] theorem writeLineReg_pend (off : BitVec 5) (d : LineIx) (update : Line → Line) (s : State) :
    (writeLineReg off d update s).status.getLsbD pendBit =
      (s.status.getLsbD pendBit || decide (d.toNat < s.lines.length)) := by
  obtain ⟨hd, h⟩ | ⟨hd, h⟩ := writeLineReg_cases off d update s
  · simp [h, hd]
  · simp [h, Nat.not_lt.2 hd]

/-- WR.CFG_STG checks the line index, then the two codes; it stores both fields and sets PEND, or records the one
error of the first check that fails (R99, R142). -/
theorem execWrCfgStg_cases {d : LineIx} {data : Word} {s t : State} (h : execWrCfgStg d data s = .next t) :
    (d.toNat < s.lines.length ∧ dataRoute data ≠ 3 ∧ dataInterp data ≠ 3 ∧ ∃ c, cfgOfData data = some c ∧
      t = setPend { s with lines := s.lines.modify d.toNat (fun l => { l with cfgStg := c }) }) ∨
    (d.toNat < s.lines.length ∧ (dataRoute data = 3 ∨ dataInterp data = 3) ∧
      t = raiseError .efield true (lineAddr d 0x05#5) s) ∨
    (s.lines.length ≤ d.toNat ∧ t = raiseError .eaddr true (lineAddr d 0x05#5) s) := by
  unfold execWrCfgStg at h
  by_cases hres : dataRoute data = 3 ∨ dataInterp data = 3
  case pos =>
    rw [cfgOfData_reserved hres] at h
    by_cases hd : d.toNat < s.lines.length
    · exact .inr (.inl ⟨hd, hres, by simpa [hd] using h.symm⟩)
    · exact .inr (.inr ⟨Nat.not_lt.1 hd, by simpa [hd] using h.symm⟩)
  case neg =>
    obtain ⟨hroute, hinterp⟩ := not_or.1 hres
    have hr4 := dataRoute_lt data
    have hi4 := dataInterp_lt data
    obtain ⟨c, hc, -, -⟩ := cfgOfData_legal (data := data) (by omega) (by omega)
    rw [hc] at h
    cases h
    obtain ⟨hd, ht⟩ | ⟨hd, ht⟩ := writeLineReg_cases 0x05#5 d (fun l => { l with cfgStg := c }) s
    · exact .inl ⟨hd, hroute, hinterp, c, hc, ht⟩
    · exact .inr (.inr ⟨hd, ht⟩)

theorem execWrCfgStg_pend {d : LineIx} {data : Word} {s t : State} (h : execWrCfgStg d data s = .next t) :
    t.status.getLsbD pendBit = (s.status.getLsbD pendBit ||
      decide (d.toNat < s.lines.length ∧ dataRoute data ≠ 3 ∧ dataInterp data ≠ 3)) := by
  obtain ⟨hd, hroute, hinterp, c, -, rfl⟩ | ⟨-, hres, rfl⟩ | ⟨hd, rfl⟩ := execWrCfgStg_cases h
  · simp [hd, hroute, hinterp]
  · obtain hres | hres := hres <;> simp [hres]
  · simp [Nat.not_lt.2 hd]

/-! ### FRAMES -/

@[simp] theorem readLineReg_frames (off : BitVec 5) (d : LineIx) (value : Line → Word) (s : State) :
    (readLineReg off d value s).frames = s.frames := by
  obtain ⟨l, -, h⟩ | ⟨-, h⟩ := readLineReg_cases off d value s <;> simp [h]

@[simp] theorem writeLineReg_frames (off : BitVec 5) (d : LineIx) (update : Line → Line) (s : State) :
    (writeLineReg off d update s).frames = s.frames := by
  obtain ⟨-, h⟩ | ⟨-, h⟩ := writeLineReg_cases off d update s <;> simp [h]

theorem execWrCfgStg_frames {d : LineIx} {data : Word} {s t : State} (h : execWrCfgStg d data s = .next t) :
    t.frames = s.frames := by
  obtain ⟨-, -, -, c, -, rfl⟩ | ⟨-, -, rfl⟩ | ⟨-, rfl⟩ := execWrCfgStg_cases h <;> rfl

/-- Only STEP and RESET write FRAMES: every other instruction is one of the operations above, which keep it. -/
theorem exec_frames_of_ne {i : Instr} {s t : State} (h : exec i s = .next t) (hstep : i ≠ .step)
    (hreset : i ≠ .reset) : t.frames = s.frames := by
  cases i with
  | step => exact absurd rfl hstep
  | reset => exact absurd rfl hreset
  | wrCfgStg d data => exact execWrCfgStg_frames h
  | wrBaseStg d data | wrDepthStg d data | wrFreqStg d data | wrFbStg d data | wrLevelStg d data =>
    cases h; exact writeLineReg_frames ..
  | nop | commit | wrStatus data | wrInL data | wrInR data | wrMixStg data => cases h; rfl
  | rdCmd | rdStatus | rdErraddr | rdFs | rdNlines | rdFrames | rdInL | rdInR | rdOutL | rdOutR | rdMixStg | rdMix =>
    cases h; rfl
  | _ => cases h; exact readLineReg_frames ..

/-- The reset input changes FRAMES only to 0. -/
theorem driveRst_frames (level : Bool) (s : State) :
    (driveRst level s).frames = 0#32 ∨ (driveRst level s).frames = s.frames := by
  unfold driveRst
  split
  · exact .inl rfl
  · exact .inr rfl

end Sys2Proof.Machine

namespace Sys2Proof.Proofs

open Sys2Proof.Machine

/-- Settles O23 (R59): the commands and the staging writes one by one; no other instruction touches PEND. -/
theorem pendFollowsStagingWrites : Obligations.PendFollowsStagingWrites := by
  refine ⟨rfl, fun i s t h => ?_⟩
  cases i with
  | commit => cases h; exact clearStatusBit_pendBit_pend s.status
  | reset => cases h; simp
  | step => cases h; exact stepFrame_pend s
  | wrStatus data => cases h; exact clearSticky_pend s.status data
  | wrMixStg data => cases h; exact setStatusBit_pendBit_pend s.status
  | wrBaseStg d data | wrDepthStg d data | wrFreqStg d data | wrFbStg d data | wrLevelStg d data =>
    cases h; exact writeLineReg_pend ..
  | wrCfgStg d data => exact execWrCfgStg_pend h
  | nop | wrInL data | wrInR data => cases h; rfl
  | rdCmd | rdStatus | rdErraddr | rdFs | rdNlines | rdFrames | rdInL | rdInR | rdOutL | rdOutR | rdMixStg | rdMix =>
    cases h; rfl
  | _ => cases h; exact readLineReg_pend ..

/-- Settles O24 (R39): each instruction, and then each way a step can go on. -/
theorem framesCountsSteps : Obligations.FramesCountsSteps := by
  refine ⟨rfl, fun n data => decode_packTxn_globalWrite n 0x005#12 data, fun i s t h => ?exec,
    fun s t h hne => ?step⟩
  case exec =>
    split
    · cases h; exact BitVec.eq_of_toNat_eq (by simp)
    · cases h; rfl
    · next hstep hreset => exact exec_frames_of_ne h hstep hreset
  case step =>
    obtain ⟨-, rfl⟩ | ⟨level, rest, hin, rfl⟩ | ⟨w, rest, i, hin, -, hdec, hexec⟩ | ⟨w, rest, k, -, -, -, rfl⟩ :=
      step_cases h
    · exact absurd rfl hne
    · obtain hzero | hkept := driveRst_frames level (takeEvent rest s)
      · exact ⟨_, rest, hin, .inr ⟨hzero, .inl ⟨level, rfl⟩⟩⟩
      · exact absurd hkept hne
    · by_cases hstep : i = .step
      · subst hstep
        cases hexec
        exact ⟨_, rest, hin, .inl ⟨rfl, w, rfl, hdec⟩⟩
      by_cases hreset : i = .reset
      · subst hreset
        cases hexec
        exact ⟨_, rest, hin, .inr ⟨rfl, .inr ⟨w, rfl, hdec⟩⟩⟩
      exact absurd (exec_frames_of_ne hexec hstep hreset) hne
    · exact absurd rfl hne

end Sys2Proof.Proofs
end

section
/-!
The ordered checks of 30_encoding R99 on the words of each region, what the decoder answers in each of its tables, and
the bits it ignores (R104, R105).
-/

namespace Sys2Proof

open Sys2Proof.Machine Sys2Proof.Claims

/-! ### Words and their parts -/

/-- The bitwise and of two words, part by part (R90). -/
theorem packTxn_and (w w' : Bool) (a a' : Addr) (data data' : Word) :
    packTxn w a data &&& packTxn w' a' data' = packTxn (w && w') (a &&& a') (data &&& data') := by
  apply BitVec.eq_of_getLsbD_eq
  intro i hi
  simp only [BitVec.getLsbD_and, packTxn_getLsbD]
  split
  · rfl
  split
  · rfl
  · cases i == 47 <;> rfl

/-- The mask of a read, and of a global register, keeps W and A. -/
theorem packTxn_and_globalMask (w : Bool) (a : Addr) (data : Word) :
    packTxn w a data &&& globalMask = packTxn w a 0#32 := by
  have hmask : globalMask = packTxn true (BitVec.allOnes 15) 0#32 := by decide
  rw [hmask, packTxn_and, Bool.and_true, BitVec.and_allOnes, BitVec.and_zero]

/-- The mask of a command keeps W, A and D[3:0]. -/
theorem packTxn_and_commandMask (w : Bool) (a : Addr) (data : Word) :
    packTxn w a data &&& commandMask = packTxn w a (data &&& 0x0000000F#32) := by
  have hmask : commandMask = packTxn true (BitVec.allOnes 15) 0x0000000F#32 := by decide
  rw [hmask, packTxn_and, Bool.and_true, BitVec.and_allOnes]

/-- A field inside the address of a word. -/
theorem extractLsb'_txnAddr (t : Txn) {i len : Nat} (h : i + len ≤ 15) :
    t.extractLsb' (32 + i) len = (txnAddr t).extractLsb' i len := by
  apply BitVec.eq_of_getLsbD_eq
  intro j hj
  simp [txnAddr, BitVec.getLsbD_extractLsb', show i + j < 15 by omega, Nat.add_assoc]

/-- A field inside the data of a word. -/
theorem extractLsb'_txnData (t : Txn) {i len : Nat} (h : i + len ≤ 32) :
    t.extractLsb' i len = (txnData t).extractLsb' i len := by
  apply BitVec.eq_of_getLsbD_eq
  intro j hj
  simp [txnData, BitVec.getLsbD_extractLsb', show i + j < 32 by omega]

/-- Every word is a global one, a line one, or in a region that is unmapped (R91). -/
theorem txn_cases (t : Txn) :
    (∃ w index data, t = packTxn w (globalAddr index) data) ∨
    (∃ w d off data, t = packTxn w (lineAddr d off) data) ∨
    (addrRegion (txnAddr t) ≠ 0 ∧ addrRegion (txnAddr t) ≠ 1) := by
  by_cases h0 : addrRegion (txnAddr t) = 0
  · exact .inl ⟨_, _, _, by rw [globalAddr_fields h0, packTxn_fields]⟩
  by_cases h1 : addrRegion (txnAddr t) = 1
  · exact .inr (.inl ⟨_, _, _, _, by rw [lineAddr_fields h1, packTxn_fields]⟩)
  · exact .inr (.inr ⟨h0, h1⟩)

/-! ### The ordered checks, region by region -/

/-- The global register indices that are read-only (R93, R101). -/
abbrev ReadOnlyIndex (index : BitVec 12) : Prop :=
  index.toNat ∈ [0x002, 0x003, 0x004, 0x005, 0x008, 0x009, 0x00B]

/-- The line register offsets that are unmapped (R94, R100). -/
abbrev UnmappedOffset (off : BitVec 5) : Prop := off.toNat ∈ [0x06, 0x07, 0x0E, 0x0F] ∨ off.toNat ≥ 0x16

theorem ReadOnlyIndex.le {index : BitVec 12} (h : ReadOnlyIndex index) : index.toNat ≤ 0x00B := by
  simp only [ReadOnlyIndex, List.mem_cons, List.not_mem_nil, or_false] at h
  omega

theorem not_unmappedOffset_of_lt {off : BitVec 5} (h : off.toNat < 0x06) : ¬UnmappedOffset off := by
  simp only [UnmappedOffset, List.mem_cons, List.not_mem_nil, or_false]
  omega

theorem firstError_packTxn_global (n : Nat) (w : Bool) (index : BitVec 12) (data : Word) :
    firstError n (packTxn w (globalAddr index) data) =
      if index.toNat > 0x00B then some .eaddr
      else if w = true ∧ ReadOnlyIndex index then some .ero
      else if w = true ∧ index.toNat = 0x000 ∧ dataOpcode data ≥ 4 then some .ecmd
      else none := by
  generalize ht : packTxn w (globalAddr index) data = t
  have hw : t.getLsbD 47 = w := by rw [← ht]; exact txnWrite_packTxn ..
  have hregion : (t.extractLsb' 44 3).toNat = 0 := by
    rw [extractLsb'_txnAddr t (i := 12) (by decide), ← ht, txnAddr_packTxn]; exact addrRegion_globalAddr index
  have hindex : (t.extractLsb' 32 12).toNat = index.toNat := by
    rw [extractLsb'_txnAddr t (i := 0) (by decide), ← ht, txnAddr_packTxn]; exact addrIndex_globalAddr index
  have hopcode : (t.extractLsb' 0 4).toNat = dataOpcode data := by
    rw [extractLsb'_txnData t (by decide), ← ht, txnData_packTxn]; rfl
  simp only [firstError, hw, hregion, hindex, hopcode, if_true]

theorem firstError_packTxn_line (n : Nat) (w : Bool) (d : LineIx) (off : BitVec 5) (data : Word) :
    firstError n (packTxn w (lineAddr d off) data) =
      if d.toNat ≥ n ∨ UnmappedOffset off then some .eaddr
      else if w = true ∧ off.toNat ≥ 0x08 then some .ero
      else if w = true ∧ off.toNat = 0x05 ∧ (dataRoute data = 3 ∨ dataInterp data = 3) then some .efield
      else none := by
  generalize ht : packTxn w (lineAddr d off) data = t
  have hw : t.getLsbD 47 = w := by rw [← ht]; exact txnWrite_packTxn ..
  have hregion : (t.extractLsb' 44 3).toNat = 1 := by
    rw [extractLsb'_txnAddr t (i := 12) (by decide), ← ht, txnAddr_packTxn]; exact addrRegion_lineAddr d off
  have hline : (t.extractLsb' 37 7).toNat = d.toNat := by
    rw [extractLsb'_txnAddr t (i := 5) (by decide), ← ht, txnAddr_packTxn]
    exact congrArg BitVec.toNat (addrLine_lineAddr d off)
  have hoff : (t.extractLsb' 32 5).toNat = off.toNat := by
    rw [extractLsb'_txnAddr t (i := 0) (by decide), ← ht, txnAddr_packTxn]; exact addrOffset_lineAddr d off
  have hroute : (t.extractLsb' 0 2).toNat = dataRoute data := by
    rw [extractLsb'_txnData t (by decide), ← ht, txnData_packTxn]; rfl
  have hinterp : (t.extractLsb' 4 2).toNat = dataInterp data := by
    rw [extractLsb'_txnData t (by decide), ← ht, txnData_packTxn]; rfl
  simp only [firstError, hw, hregion, hline, hoff, hroute, hinterp, Nat.one_ne_zero, if_true, if_false]

theorem firstError_of_unmapped_region (n : Nat) {t : Txn} (h0 : addrRegion (txnAddr t) ≠ 0)
    (h1 : addrRegion (txnAddr t) ≠ 1) : firstError n t = some .eaddr := by
  have hregion : (t.extractLsb' 44 3).toNat = addrRegion (txnAddr t) := by
    rw [extractLsb'_txnAddr t (i := 12) (by decide)]; rfl
  simp only [firstError, hregion, h0, h1, if_false]

theorem decode_of_unmapped_region (n : Nat) {t : Txn} (h0 : addrRegion (txnAddr t) ≠ 0)
    (h1 : addrRegion (txnAddr t) ≠ 1) : decode n t = .error .eaddr := by
  simp [decode]

/-! ### Which bits of an operation's word count -/

theorem encode_matchesRow (i : Instr) : encode i &&& (opcodeRow i).2 = (opcodeRow i).1 := by
  open Laws.EncodeMatchesRow in
  cases i
  exacts [nop, step, commit, reset, rdCmd, rdStatus, wrStatus _, rdErraddr, rdFs, rdNlines, rdFrames, wrInL _, rdInL,
    wrInR _, rdInR, rdOutL, rdOutR, wrMixStg _, rdMixStg, rdMix, wrBaseStg _ _, wrDepthStg _ _, wrFreqStg _ _,
    wrFbStg _ _, wrLevelStg _ _, wrCfgStg _ _, rdBaseStg _, rdDepthStg _, rdFreqStg _, rdFbStg _, rdLevelStg _,
    rdCfgStg _, rdBase _, rdDepth _, rdFreq _, rdFb _, rdLevel _, rdCfg _, rdPhase _, rdWptr _, rdDelay _,
    rdLastrd _, rdCap _, rdMaxd _]

/-- The opcode table has three masks. -/
theorem opcodeRow_mask_cases (i : Instr) :
    (opcodeRow i).2 = commandMask ∨ (opcodeRow i).2 = globalMask ∨ (opcodeRow i).2 = lineMask := by
  cases i <;> simp [opcodeRow]

/-- Every row fixes W as the encoder writes it. -/
theorem opcodeRow_write (i : Instr) : (opcodeRow i).1.getLsbD 47 = txnWrite (encode i) := by
  have hmask : (opcodeRow i).2.getLsbD 47 = true := by
    obtain h | h | h := opcodeRow_mask_cases i <;> rw [h] <;> decide
  rw [← encode_matchesRow, BitVec.getLsbD_and, hmask, Bool.and_true, txnWrite]

/-- The row of an operation looks at bits that count only. -/
theorem meaningfulBits_and_mask (i : Instr) : meaningfulBits i &&& (opcodeRow i).2 = (opcodeRow i).2 := by
  cases i <;> simp [meaningfulBits, opcodeRow, commandMask, globalMask, lineMask]

/-- A word that agrees with an operation's encoding on the bits that count matches its row of the opcode table. -/
theorem matchesRow_of_agrees {t : Txn} {i : Instr} (h : t &&& meaningfulBits i = encode i &&& meaningfulBits i) :
    t &&& (opcodeRow i).2 = (opcodeRow i).1 := by
  calc t &&& (opcodeRow i).2
      = t &&& meaningfulBits i &&& (opcodeRow i).2 := by rw [BitVec.and_assoc, meaningfulBits_and_mask]
    _ = encode i &&& (opcodeRow i).2 := by rw [h, BitVec.and_assoc, meaningfulBits_and_mask]
    _ = (opcodeRow i).1 := encode_matchesRow i

/-- All of D is ignored on a read (R105). -/
theorem agrees_of_read {i : Instr} {a : Addr} (h : encode i = packTxn false a 0#32) (data : Word) :
    packTxn false a data &&& meaningfulBits i = encode i &&& meaningfulBits i := by
  have hmeaningful : meaningfulBits i = globalMask := by
    have hread : (opcodeRow i).1.getLsbD 47 = false := by rw [opcodeRow_write, h, txnWrite_packTxn]
    rw [meaningfulBits, if_pos hread]; rfl
  rw [hmeaningful, h, packTxn_and_globalMask, packTxn_and_globalMask]

/-- Of a command's data D[3:0] alone counts (R104). -/
theorem agrees_of_command {i : Instr} {data : Word} (hrow : (opcodeRow i).2 = commandMask)
    (h : encode i = encodeGlobalWrite 0x000#12 (data &&& 0x0000000F#32)) :
    encodeGlobalWrite 0x000#12 data &&& meaningfulBits i = encode i &&& meaningfulBits i := by
  have hmeaningful : meaningfulBits i = commandMask := by
    have hwrite : ¬(opcodeRow i).1.getLsbD 47 = false := by
      rw [opcodeRow_write, h, encodeGlobalWrite, txnWrite_packTxn]; decide
    rw [meaningfulBits, if_neg hwrite, if_pos hrow]
  rw [hmeaningful, h, encodeGlobalWrite, encodeGlobalWrite, packTxn_and_commandMask, packTxn_and_commandMask,
    BitVec.and_assoc, BitVec.and_self]

/-! ### What the decoder answers in each of its tables -/

theorem wf_of_line {n : Nat} {i : Instr} {d : LineIx} (hline : i.line? = some d) (hd : d.toNat < n)
    (hdata : i.dataOk = true) : i.wf n = true := by
  simp [Instr.wf, Instr.lineOk, hline, hd, hdata]

/-- A global read is the operation that encodes it, or of an index that is unmapped (R93, R100). -/
theorem decodeGlobalRead_cases (n : Nat) (index : BitVec 12) :
    (index.toNat > 0x00B ∧ decodeGlobalRead index.toNat = .error .eaddr) ∨
    (index.toNat ≤ 0x00B ∧ ∃ i, decodeGlobalRead index.toNat = .op i ∧ i.wf n = true ∧
      encode i = encodeGlobalRead index) := by
  unfold decodeGlobalRead
  split
  case h_13 =>
    refine .inl ⟨?_, rfl⟩
    simp only [imp_false] at *
    omega
  all_goals
    next h => exact .inr ⟨by omega, _, rfl, rfl, congrArg encodeGlobalRead (BitVec.eq_of_toNat_eq h.symm)⟩

/-- A write to CMD is one of the four commands, or reserved (R96, R102). -/
theorem decodeCommand_cases (n : Nat) (data : Word) :
    (dataOpcode data ≥ 4 ∧ decodeCommand data = .error .ecmd) ∨
    (dataOpcode data < 4 ∧ ∃ i, decodeCommand data = .op i ∧ i.wf n = true ∧ (opcodeRow i).2 = commandMask ∧
      encode i = encodeGlobalWrite 0x000#12 (data &&& 0x0000000F#32)) := by
  have hdata : data &&& 0x0000000F#32 = BitVec.ofNat 32 (dataOpcode data) := by
    apply BitVec.eq_of_toNat_eq
    simp [dataOpcode, Nat.and_two_pow_sub_one_eq_mod data.toNat 4]
    omega
  unfold decodeCommand
  split
  case h_5 =>
    refine .inl ⟨?_, rfl⟩
    simp only [imp_false] at *
    omega
  all_goals next h => exact .inr ⟨by omega, _, rfl, rfl, rfl, by rw [hdata, h]; rfl⟩

/-- A global write of an index other than CMD's is the operation that encodes it, or of an index that is unmapped or
read-only (R93, R100, R101). -/
theorem decodeGlobalWrite_cases (n : Nat) {index : BitVec 12} (hcmd : index.toNat ≠ 0x000) (data : Word) :
    (index.toNat > 0x00B ∧ decodeGlobalWrite index.toNat data = .error .eaddr) ∨
    (ReadOnlyIndex index ∧ decodeGlobalWrite index.toNat data = .error .ero) ∨
    (index.toNat ≤ 0x00B ∧ ¬ReadOnlyIndex index ∧ ∃ i, decodeGlobalWrite index.toNat data = .op i ∧ i.wf n = true ∧
      encode i = encodeGlobalWrite index data) := by
  unfold decodeGlobalWrite
  split
  case h_1 h => exact absurd h hcmd
  case h_2 h | h_7 h | h_8 h | h_11 h =>
    exact .inr (.inr ⟨by omega, by simp [ReadOnlyIndex, h], _, rfl, rfl,
      congrArg (encodeGlobalWrite · data) (BitVec.eq_of_toNat_eq h.symm)⟩)
  case h_13 =>
    refine .inl ⟨?_, rfl⟩
    simp only [imp_false] at *
    omega
  all_goals next h => exact .inr (.inl ⟨by simp [ReadOnlyIndex, h], rfl⟩)

/-- A read of a line that exists is the operation that encodes it, or of an offset that is unmapped (R94, R100). -/
theorem decodeLineRead_cases {n : Nat} {d : LineIx} (hd : d.toNat < n) (off : BitVec 5) :
    (UnmappedOffset off ∧ decodeLineRead d off.toNat = .error .eaddr) ∨
    (¬UnmappedOffset off ∧ ∃ i, decodeLineRead d off.toNat = .op i ∧ i.wf n = true ∧
      encode i = encodeLineRead d off) := by
  unfold decodeLineRead
  split
  case h_19 =>
    refine .inl ⟨?_, rfl⟩
    simp only [UnmappedOffset, List.mem_cons, List.not_mem_nil, or_false, imp_false] at *
    omega
  all_goals
    next h =>
      exact .inr ⟨by simp [UnmappedOffset, h], _, rfl, wf_of_line rfl hd rfl,
        congrArg (encodeLineRead d) (BitVec.eq_of_toNat_eq h.symm)⟩

/-- A write of CFG_STG is the operation that encodes it, or holds a reserved code (R97, R103). -/
theorem decodeCfgWrite_cases {n : Nat} {d : LineIx} (hd : d.toNat < n) (data : Word) :
    ((dataRoute data = 3 ∨ dataInterp data = 3) ∧ decodeCfgWrite d data = .error .efield) ∨
    (¬(dataRoute data = 3 ∨ dataInterp data = 3) ∧ ∃ i, decodeCfgWrite d data = .op i ∧ i.wf n = true ∧
      encode i = encodeLineWrite d 0x05#5 data) := by
  by_cases hreserved : dataRoute data = 3 ∨ dataInterp data = 3
  · exact .inl ⟨hreserved, if_pos hreserved⟩
  · have hlegal : cfgDataLegal data = true := by
      obtain ⟨hroute, hinterp⟩ := not_or.1 hreserved
      have hroute' : dataRoute data < 3 := by have := dataRoute_lt data; omega
      have hinterp' : dataInterp data < 3 := by have := dataInterp_lt data; omega
      simpa [cfgDataLegal] using ⟨hroute', hinterp'⟩
    exact .inr ⟨hreserved, _, if_neg hreserved, wf_of_line rfl hd hlegal, rfl⟩

/-- A write of another register of a line that exists is the operation that encodes it, or of an offset that is
unmapped or read-only (R94, R100, R101). -/
theorem decodeLineWrite_cases {n : Nat} {d : LineIx} (hd : d.toNat < n) {off : BitVec 5} (hcfg : off.toNat ≠ 0x05)
    (data : Word) :
    (UnmappedOffset off ∧ decodeLineWrite d off.toNat data = .error .eaddr) ∨
    (¬UnmappedOffset off ∧ off.toNat ≥ 0x08 ∧ decodeLineWrite d off.toNat data = .error .ero) ∨
    (off.toNat < 0x05 ∧ ∃ i, decodeLineWrite d off.toNat data = .op i ∧ i.wf n = true ∧
      encode i = encodeLineWrite d off data) := by
  unfold decodeLineWrite
  split
  case h_1 h | h_2 h | h_3 h | h_4 h | h_5 h =>
    exact .inr (.inr ⟨by omega, _, rfl, wf_of_line rfl hd rfl,
      congrArg (encodeLineWrite d · data) (BitVec.eq_of_toNat_eq h.symm)⟩)
  case h_6 h => exact absurd h hcfg
  case h_19 =>
    refine .inl ⟨?_, rfl⟩
    simp only [UnmappedOffset, List.mem_cons, List.not_mem_nil, or_false, imp_false] at *
    omega
  all_goals next h => exact .inr (.inl ⟨by simp [UnmappedOffset, h], by omega, rfl⟩)

/-! ### The decoder and the ordered checks -/

/-- What R99 asks of the decoder's answer to the word t on a block of n lines: an error is the first that the ordered
checks give, and an operation passes them and is read from the bits of t that are not ignored. -/
def FollowsChecks (n : Nat) (t : Txn) : Decoded → Prop
  | .error k => firstError n t = some k
  | .op i => firstError n t = none ∧ i.wf n = true ∧ t &&& meaningfulBits i = encode i &&& meaningfulBits i

theorem followsChecks_globalRead (n : Nat) (index : BitVec 12) (data : Word) :
    FollowsChecks n (packTxn false (globalAddr index) data) (decodeGlobalRead index.toNat) := by
  have hfirst := firstError_packTxn_global n false index data
  obtain ⟨hidx, hdec⟩ | ⟨hidx, i, hdec, hwf, henc⟩ := decodeGlobalRead_cases n index <;> rw [hdec]
  · exact hfirst.trans (if_pos hidx)
  · exact ⟨hfirst.trans (by simp [hidx]), hwf, agrees_of_read henc data⟩

theorem followsChecks_command (n : Nat) (data : Word) :
    FollowsChecks n (packTxn true (globalAddr 0x000#12) data) (decodeCommand data) := by
  have hfirst := firstError_packTxn_global n true 0x000#12 data
  obtain ⟨hop, hdec⟩ | ⟨hop, i, hdec, hwf, hrow, henc⟩ := decodeCommand_cases n data <;> rw [hdec]
  · exact hfirst.trans (by simp [hop])
  · exact ⟨hfirst.trans (by simp [hop]), hwf, agrees_of_command hrow henc⟩

theorem followsChecks_globalWrite (n : Nat) (index : BitVec 12) (data : Word) :
    FollowsChecks n (packTxn true (globalAddr index) data) (decodeGlobalWrite index.toNat data) := by
  by_cases hcmd : index.toNat = 0x000
  · obtain rfl : index = 0x000#12 := BitVec.eq_of_toNat_eq hcmd
    exact followsChecks_command n data
  have hfirst := firstError_packTxn_global n true index data
  obtain ⟨hidx, hdec⟩ | ⟨hro, hdec⟩ | ⟨hidx, hrw, i, hdec, hwf, henc⟩ := decodeGlobalWrite_cases n hcmd data <;>
    rw [hdec]
  · exact hfirst.trans (if_pos hidx)
  · exact hfirst.trans (by rw [if_neg (Nat.not_lt.2 hro.le), if_pos ⟨rfl, hro⟩])
  · have hpass : firstError n (packTxn true (globalAddr index) data) = none := by
      rw [hfirst, if_neg (by omega), if_neg (fun h => hrw h.2), if_neg (fun h => hcmd h.2.1)]
    exact ⟨hpass, hwf, by rw [henc]; rfl⟩

section line
variable {n : Nat} {d : LineIx} (hd : d.toNat < n)
include hd

theorem followsChecks_lineRead (off : BitVec 5) (data : Word) :
    FollowsChecks n (packTxn false (lineAddr d off) data) (decodeLineRead d off.toNat) := by
  have hfirst := firstError_packTxn_line n false d off data
  obtain ⟨hoff, hdec⟩ | ⟨hoff, i, hdec, hwf, henc⟩ := decodeLineRead_cases hd off <;> rw [hdec]
  · exact hfirst.trans (if_pos (.inr hoff))
  · have hmapped := not_or.2 ⟨Nat.not_le.2 hd, hoff⟩
    exact ⟨hfirst.trans (by rw [if_neg hmapped]; simp), hwf, agrees_of_read henc data⟩

theorem followsChecks_cfgWrite (data : Word) :
    FollowsChecks n (packTxn true (lineAddr d 0x05#5) data) (decodeCfgWrite d data) := by
  have hfirst : firstError n (packTxn true (lineAddr d 0x05#5) data) =
      if dataRoute data = 3 ∨ dataInterp data = 3 then some .efield else none := by
    rw [firstError_packTxn_line]; simp [Nat.not_le.2 hd]
  obtain ⟨hcode, hdec⟩ | ⟨hcode, i, hdec, hwf, henc⟩ := decodeCfgWrite_cases hd data <;> rw [hdec]
  · exact hfirst.trans (if_pos hcode)
  · exact ⟨hfirst.trans (if_neg hcode), hwf, by rw [henc]; rfl⟩

theorem followsChecks_lineWrite (off : BitVec 5) (data : Word) :
    FollowsChecks n (packTxn true (lineAddr d off) data) (decodeLineWrite d off.toNat data) := by
  by_cases hcfg : off.toNat = 0x05
  · obtain rfl : off = 0x05#5 := BitVec.eq_of_toNat_eq hcfg
    exact followsChecks_cfgWrite hd data
  have hfirst := firstError_packTxn_line n true d off data
  have hline := Nat.not_le.2 hd
  obtain ⟨hoff, hdec⟩ | ⟨hoff, hro, hdec⟩ | ⟨hoff, i, hdec, hwf, henc⟩ := decodeLineWrite_cases hd hcfg data <;>
    rw [hdec]
  · exact hfirst.trans (if_pos (.inr hoff))
  · exact hfirst.trans (by rw [if_neg (not_or.2 ⟨hline, hoff⟩), if_pos ⟨rfl, hro⟩])
  · have hmapped := not_unmappedOffset_of_lt (Nat.lt_succ_of_lt hoff)
    have hpass : firstError n (packTxn true (lineAddr d off) data) = none := by
      rw [hfirst, if_neg (not_or.2 ⟨hline, hmapped⟩), if_neg (by omega), if_neg (fun h => hcfg h.2.1)]
    exact ⟨hpass, hwf, by rw [henc]; rfl⟩

end line

/-- The decoder's answer to every word is the one the ordered checks ask for (R99). -/
theorem followsChecks_decode (n : Nat) (t : Txn) : FollowsChecks n t (decode n t) := by
  obtain ⟨w, index, data, rfl⟩ | ⟨w, d, off, data, rfl⟩ | ⟨hne0, hne1⟩ := txn_cases t
  case inl =>
    cases w with
    | false => rw [decode_packTxn_globalRead]; exact followsChecks_globalRead n index data
    | true => rw [decode_packTxn_globalWrite]; exact followsChecks_globalWrite n index data
  case inr.inl =>
    by_cases hd : n ≤ d.toNat
    · have hdec : decode n (packTxn w (lineAddr d off) data) = .error .eaddr := by
        cases w <;> simp [decode_packTxn_lineRead, decode_packTxn_lineWrite, hd]
      rw [hdec]
      exact (firstError_packTxn_line n w d off data).trans (if_pos (.inl hd))
    · cases w with
      | false => rw [decode_packTxn_lineRead, if_neg hd]; exact followsChecks_lineRead (Nat.not_le.1 hd) off data
      | true => rw [decode_packTxn_lineWrite, if_neg hd]; exact followsChecks_lineWrite (Nat.not_le.1 hd) off data
  case inr.inr =>
    rw [decode_of_unmapped_region n hne0 hne1]
    exact firstError_of_unmapped_region n hne0 hne1

end Sys2Proof

namespace Sys2Proof.Proofs

open Sys2Proof.Claims

/-- Settles O2 (R99): the decoder's answer, error or operation, follows the ordered checks; an operation's row is
matched because it looks at bits that count only. -/
theorem decodeFollowsTheOrderedChecks : Obligations.DecodeFollowsTheOrderedChecks := by
  intro n t
  have hfollows := followsChecks_decode n t
  cases hdec : decode n t with
  | error k =>
    rw [hdec] at hfollows
    have hfirst : firstError n t = some k := hfollows
    exact ⟨fun k' hk' => by rw [hfirst] at hk'; cases hk'; rfl, fun hnone => by simp [hfirst] at hnone⟩
  | op i =>
    rw [hdec] at hfollows
    obtain ⟨hfirst, hwf, hagrees⟩ := hfollows
    exact ⟨fun k hk => by simp [hfirst] at hk, fun _ => ⟨i, rfl, hwf, matchesRow_of_agrees hagrees, hagrees⟩⟩

end Sys2Proof.Proofs
end

section
/-!
The bits of a transaction word that are ignored (30_encoding R104, R105), and the reserved bits of the words read.
-/

namespace Sys2Proof.Machine

/-! ### Masked data holds the same fields -/

theorem dataOpcode_and_0x0F (data : Word) : dataOpcode (data &&& 0x0000000F#32) = dataOpcode data := by
  have hfield : (data &&& 0x0000000F#32).extractLsb' 0 4 = data.extractLsb' 0 4 := by
    rw [BitVec.extractLsb'_and]; exact BitVec.and_allOnes
  rw [dataOpcode, hfield, dataOpcode]

theorem dataRoute_and_0x33 (data : Word) : dataRoute (data &&& 0x00000033#32) = dataRoute data := by
  have hfield : (data &&& 0x00000033#32).extractLsb' 0 2 = data.extractLsb' 0 2 := by
    rw [BitVec.extractLsb'_and]; exact BitVec.and_allOnes
  rw [dataRoute, hfield, dataRoute]

theorem dataInterp_and_0x33 (data : Word) : dataInterp (data &&& 0x00000033#32) = dataInterp data := by
  have hfield : (data &&& 0x00000033#32).extractLsb' 4 2 = data.extractLsb' 4 2 := by
    rw [BitVec.extractLsb'_and]; exact BitVec.and_allOnes
  rw [dataInterp, hfield, dataInterp]

theorem clearSticky_and_0x1F (status data : Word) :
    clearSticky status (data &&& 0x0000001F#32) = clearSticky status data := by
  rw [clearSticky, clearSticky, stickyMask, BitVec.and_assoc, BitVec.and_self]

/-- WR.CFG_STG reads the two fields of its data only (R97, R142). -/
theorem execWrCfgStg_congr (d : LineIx) {data data' : Word} (hroute : dataRoute data = dataRoute data')
    (hinterp : dataInterp data = dataInterp data') (s : State) : execWrCfgStg d data s = execWrCfgStg d data' s := by
  have hfields : cfgOfData data = cfgOfData data' := by rw [cfgOfData, hroute, hinterp, cfgOfData]
  rw [execWrCfgStg, hfields, execWrCfgStg]

/-! ### Running a transaction -/

theorem runTxn_of_op {t : Txn} {s : State} {i : Instr} (h : decode s.lines.length t = .op i) :
    runTxn t s = exec i s := by
  rw [runTxn, h]

/-- Two words with the same direction and address that decode alike have the same outcome: an error records no D
(60_exceptions R301). -/
theorem runTxn_packTxn_congr {w : Bool} {a : Addr} {data data' : Word} {s : State}
    (h : decode s.lines.length (packTxn w a data) = decode s.lines.length (packTxn w a data')) :
    runTxn (packTxn w a data) s = runTxn (packTxn w a data') s := by
  simp only [runTxn, h, txnWrite_packTxn, txnAddr_packTxn]

theorem runTxn_command (data : Word) (s : State) :
    runTxn (packTxn true 0x0000#15 data) s = runTxn (packTxn true 0x0000#15 (data &&& 0x0000000F#32)) s := by
  have hdecode (data : Word) : decode s.lines.length (packTxn true 0x0000#15 data) = decodeCommand data :=
    decode_packTxn_globalWrite s.lines.length 0x000#12 data
  refine runTxn_packTxn_congr ?_
  rw [hdecode, hdecode, decodeCommand, decodeCommand, dataOpcode_and_0x0F]

theorem runTxn_wrStatus (data : Word) (s : State) :
    runTxn (packTxn true 0x0001#15 data) s = runTxn (packTxn true 0x0001#15 (data &&& 0x0000001F#32)) s := by
  have hrun (data : Word) : runTxn (packTxn true 0x0001#15 data) s = execWrStatus data s :=
    runTxn_of_op (decode_packTxn_globalWrite s.lines.length 0x001#12 data)
  rw [hrun, hrun, execWrStatus, execWrStatus, clearSticky_and_0x1F]

/-- A CFG_STG write is refused or stored by the two fields of its data only; the line index is checked first. -/
theorem runTxn_wrCfgStg (d : LineIx) (data : Word) (s : State) :
    runTxn (packTxn true (lineAddr d 0x05#5) data) s =
      runTxn (packTxn true (lineAddr d 0x05#5) (data &&& 0x00000033#32)) s := by
  have hroute := dataRoute_and_0x33 data
  have hinterp := dataInterp_and_0x33 data
  have hdecode (data : Word) : decode s.lines.length (packTxn true (lineAddr d 0x05#5) data) =
      if s.lines.length ≤ d.toNat then .error .eaddr else decodeCfgWrite d data :=
    decode_packTxn_lineWrite s.lines.length d 0x05#5 data
  by_cases hd : s.lines.length ≤ d.toNat
  · refine runTxn_packTxn_congr ?_
    rw [hdecode, hdecode, if_pos hd, if_pos hd]
  by_cases hreserved : dataRoute data = 3 ∨ dataInterp data = 3
  · refine runTxn_packTxn_congr ?_
    rw [hdecode, hdecode, if_neg hd, if_neg hd, decodeCfgWrite, decodeCfgWrite, hroute, hinterp, if_pos hreserved,
      if_pos hreserved]
  · have hrun (data' : Word) (h : ¬(dataRoute data' = 3 ∨ dataInterp data' = 3)) :
        runTxn (packTxn true (lineAddr d 0x05#5) data') s = execWrCfgStg d data' s :=
      runTxn_of_op (by rw [hdecode, if_neg hd, decodeCfgWrite, if_neg h])
    rw [hrun data hreserved, hrun _ (by rwa [hroute, hinterp]), execWrCfgStg_congr d hroute hinterp]

theorem runTxn_read (a : Addr) (data : Word) (s : State) :
    runTxn (packTxn false a data) s = runTxn (packTxn false a 0x00000000#32) s :=
  runTxn_packTxn_congr (by simp [decode])

/-! ### The words read -/

/-- STATUS is read as its six bits, the reserved ones 0 (R35, R98). -/
theorem statusWord_reserved (status : Word) : statusWord status &&& 0xFFFFFEE0#32 = 0#32 := by
  unfold statusWord
  generalize status.getLsbD pendBit = pend, status.getLsbD nonfinBit = nonfin, status.getLsbD (errorBit .ero) = ero,
    status.getLsbD (errorBit .efield) = efield, status.getLsbD (errorBit .eaddr) = eaddr,
    status.getLsbD (errorBit .ecmd) = ecmd
  decide +revert

/-- The codes of ROUTE and INTERP stay in their own fields (R45, R97). -/
theorem cfgWord_reserved (c : CfgFields) : cfgWord c &&& 0xFFFFFFCC#32 = 0#32 := by
  obtain ⟨route, interp⟩ := c
  cases route <;> cases interp <;> decide

end Sys2Proof.Machine

namespace Sys2Proof.Proofs

open Sys2Proof.Machine

/-- Settles O4 (R104, R105): the ignored bits of the three writes and of every read, and the reserved bits of the words
read; those of ERRADDR are part of the invariants. -/
theorem ignoredBitsChangeNothing : Obligations.IgnoredBitsChangeNothing := by
  refine ⟨fun s data => ⟨runTxn_command data s, runTxn_wrStatus data s, fun d => runTxn_wrCfgStg d data s,
    fun a => runTxn_read a data s⟩, fun s => statusWord_reserved s.status, cfgWord_reserved, ?_⟩
  rintro s ⟨-, -, -, -, -, herrAddr⟩
  exact herrAddr

end Sys2Proof.Proofs
end

section
/-!
The register writes with an effect of their own (40_register_access): the W1C write of STATUS (R123), and the clamped
write of MIX_STG (R134), for which the clamp of R22 is written with its upper bound tested first.
-/

namespace Sys2Proof.Machine

namespace F32

theorem le_of_not_lt {a b : Word} (ha : isNaN a = false) (hb : isNaN b = false) (h : lt b a = false) :
    le a b = true := by
  refine (le_iff a b).2 ⟨ha, hb, Int.not_lt.1 fun hkey => ?_⟩
  simp [(lt_iff b a).2 ⟨hb, ha, hkey⟩] at h

theorem not_le_of_lt {a b : Word} (h : lt a b = true) : le b a = false := by
  obtain ⟨-, -, hlt⟩ := (lt_iff a b).1 h
  refine Bool.eq_false_iff.2 fun hle => ?_
  obtain ⟨-, -, hge⟩ := (le_iff b a).1 hle
  exact Int.not_lt.2 hge hlt

protected theorem lt_of_lt_of_le {a b c : Word} (hab : lt a b = true) (hbc : le b c = true) : lt a c = true := by
  obtain ⟨ha, -, hkab⟩ := (lt_iff a b).1 hab
  obtain ⟨-, hc, hkbc⟩ := (le_iff b c).1 hbc
  exact (lt_iff a c).2 ⟨ha, hc, lt_of_lt_of_le hkab hkbc⟩

end F32

/-- The clamp between bounds strictly in order, its cases told apart by the upper bound first. A NaN is neither at least
the upper bound nor above the lower one, so it falls to the lower bound. -/
theorem clamp_eq_ite (x : Word) {lo hi : Word} (h : F32.lt lo hi = true) :
    F32.clamp x lo hi = if F32.ge x hi = true then hi else if F32.gt x lo = true then x else lo := by
  obtain ⟨hgt, hlt, heq⟩ | ⟨hgt, hnlt, heq⟩ | ⟨hngt, heq⟩ := clamp_cases x lo hi <;> rw [heq]
  case inl =>
    have hge : F32.ge x hi = false := F32.not_le_of_lt hlt
    simp [hge, hgt]
  case inr.inl =>
    obtain ⟨-, hx, -⟩ := (F32.lt_iff lo x).1 hgt
    obtain ⟨-, hhi, -⟩ := (F32.lt_iff lo hi).1 h
    have hge : F32.ge x hi = true := F32.le_of_not_lt hhi hx hnlt
    rw [if_pos hge]
  case inr.inr =>
    have hge : F32.ge x hi ≠ true := fun hle => by
      have hgt : F32.gt x lo = true := F32.lt_of_lt_of_le h hle
      simp [hngt] at hgt
    simp [hge, hngt]

theorem F32.zero_lt_one : F32.lt F32.zero F32.one = true := by decide

end Sys2Proof.Machine

namespace Sys2Proof.Proofs

open Sys2Proof.Machine

/-- Settles O21 (R123): WR.STATUS clears exactly the sticky bits written 1, and nothing else changes. -/
theorem statusWriteClearsWrittenOnes : Obligations.StatusWriteClearsWrittenOnes := by
  refine fun n s data => ⟨decode_packTxn_globalWrite n 0x001#12 data, clearSticky s.status data, rfl, fun b => ?_⟩
  rw [clearSticky_getLsbD, Bool.and_comm (data.getLsbD b), decide_eq_decide.2 Nat.lt_succ_iff]

/-- Settles O22 (R134): WR.MIX_STG stores the value clamped into [0, 1] and sets PEND. -/
theorem mixWriteStoresTheClampedValue : Obligations.MixWriteStoresTheClampedValue := by
  refine fun n s data => ⟨decode_packTxn_globalWrite n 0x00A#12 data, ?_⟩
  have hexec : exec (.wrMixStg data) s =
      .next (setPend { s with mixStg := F32.clamp data F32.zero F32.one }) := rfl
  rw [hexec, clamp_eq_ite data F32.zero_lt_one]
  rfl

end Sys2Proof.Proofs
end

section
/-!
The commands (41_commands): how a CMD write decodes, whatever its ignored bits hold; what a STEP makes of one line, of the
two channels and of STATUS, in the spec's own procedures; and that a STEP commutes with wiping the staging registers.
-/

namespace Sys2Proof

open Sys2Proof.Machine

/-! ### Decoding a CMD write -/

theorem dataOpcode_append (ignored : BitVec 28) (op : BitVec 4) : dataOpcode (ignored ++ op) = op.toNat := by
  rw [dataOpcode, BitVec.extractLsb'_append_eq_of_add_le (by decide), BitVec.extractLsb'_eq_self]

/-- A CMD write is decoded by D[3:0] alone (R96, R104). -/
theorem decode_packTxn_command (n : Nat) (ignored : BitVec 28) (op : BitVec 4) :
    decode n (packTxn true 0x0000#15 (ignored ++ op)) = decodeCommand (0#28 ++ op) := by
  have hregion : decode n (packTxn true 0x0000#15 (ignored ++ op)) = decodeCommand (ignored ++ op) :=
    decode_packTxn_globalWrite n 0x000#12 (ignored ++ op)
  rw [hregion, decodeCommand, dataOpcode_append, decodeCommand, dataOpcode_append]

end Sys2Proof

namespace Sys2Proof.Machine

open Sys2Proof.Claims

/-! ### One line's work in a STEP -/

theorem oscAdvance_eq_advanced (fs : Word) (l : Line) : oscAdvance fs l = advanced fs l := rfl

theorem stepDelay_eq_samples (fs : Word) (l : Line) : stepDelay fs l = samples fs l := rfl

/-- The three reads of R227 to R229 are the three cases of the spec's read. -/
theorem readDelayed_eq_delayed (l : Line) (ds : Word) : readDelayed l ds = delayed l ds := by
  unfold readDelayed delayed
  cases l.cfg.interp with
  | round => rfl
  | linear => rfl
  | allpass => rfl

theorem stepRead_eq_delayed (fs : Word) (l : Line) : stepRead fs l = delayed l (samples fs l) :=
  readDelayed_eq_delayed l (samples fs l)

theorem routedInput_eq_routed (inL inR : Word) (l : Line) : routedInput inL inR l = routed inL inR l := by
  unfold routedInput routed
  cases l.cfg.route with
  | left => rfl
  | right => rfl
  | center => rfl

theorem stepWrite_eq_written (fs inL inR : Word) (l : Line) : stepWrite fs inL inR l = written fs inL inR l := by
  rw [stepWrite, feedbackValue, routedInput_eq_routed, stepRead_eq_delayed, written]

/-- A cursor in range is its own index (R225). -/
theorem bufIndex_zero {l : Line} (h : l.wptr < l.cap) : bufIndex l 0 = l.wptr := by
  unfold bufIndex
  rw [Int.sub_zero, ← Int.natCast_mod, Int.toNat_natCast, Nat.mod_eq_of_lt h]

/-- One line's frame in the spec's procedures, where the cursor is in range. -/
theorem stepLine_eq_of_wptr_lt {l : Line} (fs inL inR : Word) (h : l.wptr < l.cap) :
    stepLine fs inL inR l = { l with
      phase := advanced fs l
      delay := samples fs l
      lastrd := delayed l (samples fs l)
      buf := bufWrite l.buf l.wptr (written fs inL inR l)
      wptr := (l.wptr + 1) % l.cap } := by
  rw [stepLine, oscAdvance_eq_advanced, stepDelay_eq_samples, stepRead_eq_delayed, stepWrite_eq_written, writeDelay,
    bufIndex_zero h, nextCursor]

/-! ### The two channels -/

/-- The mixer reads the delayed sample this STEP has just written (R271). -/
theorem contribution_stepLine (fs inL inR : Word) (l : Line) :
    contribution (stepLine fs inL inR l) = contrib fs l := by
  rw [contribution, stepLine_lastrd, stepLine_level, stepRead_eq_delayed, contrib]

theorem channel_cons (fs : Word) (own : Route) (l : Line) (rest : List Line) (acc : Word × Nat) :
    channel fs own (l :: rest) acc = channel fs own rest (channel fs own [l] acc) := by
  simp only [channel]
  split_ifs <;> rfl

/-- One line's turn in the accumulation is its turn in each channel: a CENTER line adds to both (R272). -/
theorem mixLine_stepLine (fs inL inR : Word) (m : MixState) (l : Line) :
    ((mixLine m (stepLine fs inL inR l)).sumL, (mixLine m (stepLine fs inL inR l)).kL) =
      channel fs .left [l] (m.sumL, m.kL) ∧
    ((mixLine m (stepLine fs inL inR l)).sumR, (mixLine m (stepLine fs inL inR l)).kR) =
      channel fs .right [l] (m.sumR, m.kR) := by
  by_cases hactive : F32.gt l.level 0x00000000#32 = true
  case neg => simp [mixLine, lineActive, channel, hactive, F32.zero]
  case pos =>
    cases hroute : l.cfg.route <;>
      simp [mixLine, lineActive, channel, hactive, F32.zero, hroute, contribution_stepLine, mixLeft, mixRight, F32.half]

/-- The accumulation over the lines after their frames is the spec's sum and count of each channel. -/
theorem foldl_mixLine_stepLine (fs inL inR : Word) (lines : List Line) (m : MixState) :
    let r := (lines.map (stepLine fs inL inR)).foldl mixLine m
    (r.sumL, r.kL) = channel fs .left lines (m.sumL, m.kL) ∧
    (r.sumR, r.kR) = channel fs .right lines (m.sumR, m.kR) := by
  induction lines generalizing m with
  | nil => exact ⟨rfl, rfl⟩
  | cons l rest ih =>
    obtain ⟨hleft, hright⟩ := mixLine_stepLine fs inL inR m l
    rw [channel_cons fs .left, channel_cons fs .right, ← hleft, ← hright]
    exact ih _

/-- A channel's output from its sum and count (R273, R274). -/
theorem blend_wetValue_eq_out (s : State) {own : Route} (dry : Word) {sum : Word} {k : Nat}
    (h : (sum, k) = channel s.fs own s.lines (0x00000000#32, 0)) :
    blend dry (wetValue sum k) s.mix = out s own dry := by
  have hwet : wetValue sum k = wet (sum, k) := rfl
  rw [hwet, h, out]
  rfl

theorem stepFrame_outL (s : State) : (stepFrame s).outL = out s .left s.inL := by
  obtain ⟨hleft, -⟩ := foldl_mixLine_stepLine s.fs s.inL s.inR s.lines mixStart
  exact blend_wetValue_eq_out s s.inL hleft

theorem stepFrame_outR (s : State) : (stepFrame s).outR = out s .right s.inR := by
  obtain ⟨-, hright⟩ := foldl_mixLine_stepLine s.fs s.inL s.inR s.lines mixStart
  exact blend_wetValue_eq_out s s.inR hright

/-! ### The whole frame -/

theorem stepWritesNonFinite_iff (s : State) :
    stepWritesNonFinite s = true ↔ ∃ l ∈ s.lines, F32.isFinite (written s.fs s.inL s.inR l) = false := by
  simp [stepWritesNonFinite, stepWrite_eq_written]

/-- NONFIN is set exactly when a written value or an output is not finite (R254). -/
theorem stepFrame_status (s : State) :
    (stepFrame s).status =
      if (∃ l ∈ s.lines, F32.isFinite (written s.fs s.inL s.inR l) = false) ∨
          F32.isFinite (out s .left s.inL) = false ∨ F32.isFinite (out s .right s.inR) = false then
        s.status ||| 0x00000010#32
      else s.status := by
  have hstatus : (stepFrame s).status =
      if (stepWritesNonFinite s || !F32.isFinite (stepFrame s).outL || !F32.isFinite (stepFrame s).outR) = true then
        setStatusBit nonfinBit s.status
      else s.status := rfl
  rw [hstatus, stepFrame_outL, stepFrame_outR]
  refine ite_congr (propext ?_) (fun _ => rfl) fun _ => rfl
  rw [Bool.or_eq_true, Bool.or_eq_true, stepWritesNonFinite_iff, Bool.not_eq_true', Bool.not_eq_true', or_assoc]

/-- A STEP writes the lines, the outputs, FRAMES and STATUS only (R58, R181). -/
theorem stepFrame_frame (s : State) :
    stepFrame s = { s with
      lines := (stepFrame s).lines, outL := (stepFrame s).outL, outR := (stepFrame s).outR
      frames := s.frames + 1, status := (stepFrame s).status } := rfl

theorem exec_step (s : State) : exec .step s = .next (stepFrame s) := rfl

/-! ### Wiping the staging registers -/

/-- The line with its staging registers at their reset values; nothing else of it changes. -/
def clearLineStaging (l : Line) : Line :=
  { l with baseStg := 0#32, depthStg := 0#32, freqStg := 0#32, fbStg := 0#32, levelStg := 0#32,
           cfgStg := { route := .left, interp := .round } }

/-- The state with every staging register and MIX_STG at their reset values; nothing else of it changes. -/
def clearStaging (s : State) : State := { s with lines := s.lines.map clearLineStaging, mixStg := 0#32 }

/-- What a line holds besides its staging registers: its constants, its active registers and what a STEP writes. -/
def exceptStaging (l : Line) :
    LineConfig × (Word × Word × Word × Word × Word × CfgFields) × (Word × Nat × Word × Word × Buffer) :=
  (l.config, active l, datapath l)

/-- Two lines agree once wiped exactly when they agree in all but their staging registers. -/
theorem clearLineStaging_eq_iff (l l' : Line) :
    clearLineStaging l = clearLineStaging l' ↔ exceptStaging l = exceptStaging l' := by
  simp only [clearLineStaging, exceptStaging, Line.config, active, datapath, Line.mk.injEq, LineConfig.mk.injEq,
    Prod.mk.injEq, true_and, and_assoc]

theorem map_clearLineStaging_eq_iff (lines lines' : List Line) :
    lines.map clearLineStaging = lines'.map clearLineStaging ↔
      lines.map exceptStaging = lines'.map exceptStaging := by
  simp only [← List.forall₂_eq_eq_eq, List.forall₂_map_left_iff, List.forall₂_map_right_iff, clearLineStaging_eq_iff]

/-- Two states agree once wiped exactly when they agree in all but the staging registers and MIX_STG. -/
theorem clearStaging_eq_iff (s s' : State) :
    clearStaging s' = clearStaging s ↔
      { s' with lines := [], mixStg := s.mixStg } = { s with lines := [] } ∧
      s'.lines.map exceptStaging = s.lines.map exceptStaging := by
  rw [← map_clearLineStaging_eq_iff]
  simp only [clearStaging, State.mk.injEq, true_and, and_true, and_assoc]

/-- A line's work in a STEP neither reads nor writes its staging registers. -/
theorem stepLine_clearLineStaging (fs inL inR : Word) (l : Line) :
    stepLine fs inL inR (clearLineStaging l) = clearLineStaging (stepLine fs inL inR l) := rfl

theorem map_stepLine_clearLineStaging (fs inL inR : Word) (lines : List Line) :
    (lines.map clearLineStaging).map (stepLine fs inL inR) =
      (lines.map (stepLine fs inL inR)).map clearLineStaging := by
  simp only [List.map_map, Function.comp_def, stepLine_clearLineStaging]

theorem mixLine_clearLineStaging (m : MixState) (l : Line) : mixLine m (clearLineStaging l) = mixLine m l := rfl

theorem mixLines_clearLineStaging (lines : List Line) : mixLines (lines.map clearLineStaging) = mixLines lines := by
  simp only [mixLines, List.foldl_map, mixLine_clearLineStaging]

theorem stepWritesNonFinite_clearStaging (s : State) :
    stepWritesNonFinite (clearStaging s) = stepWritesNonFinite s := List.any_map ..

/-- A STEP commutes with wiping the staging registers (R188). -/
theorem stepFrame_clearStaging (s : State) : stepFrame (clearStaging s) = clearStaging (stepFrame s) := by
  rw [stepFrame, stepFrame, stepWritesNonFinite_clearStaging]
  simp only [clearStaging, map_stepLine_clearLineStaging, mixLines_clearLineStaging]

end Sys2Proof.Machine

namespace Sys2Proof.Proofs

open Sys2Proof.Machine

/-- Settles O27 (R182). -/
theorem nopChangesNothing : Obligations.NopChangesNothing := fun n _ ignored =>
  ⟨decode_packTxn_command n ignored 0x0#4, rfl⟩

/-- Settles O28 (R183): the copies are those of `commitAll`, and PEND is STATUS bit 8. -/
theorem commitCopiesEveryStagingRegister : Obligations.CommitCopiesEveryStagingRegister := by
  refine fun n s ignored => ⟨decode_packTxn_command n ignored 0x2#4, ?_⟩
  have hpend : clearStatusBit pendBit s.status = s.status &&& 0xFFFFFEFF#32 := rfl
  rw [← hpend]
  rfl

/-- Settles O30 (R181): every line's frame, the two outputs and STATUS in the spec's procedures, and nothing else. -/
theorem stepRunsOneFrame : Obligations.StepRunsOneFrame := by
  refine fun n s ignored hcursors => ⟨decode_packTxn_command n ignored 0x1#4, ?_⟩
  have hlines := List.map_congr_left fun l hl => stepLine_eq_of_wptr_lt s.fs s.inL s.inR (hcursors l hl)
  rw [exec_step, stepFrame_frame, stepFrame_lines, hlines, stepFrame_outL, stepFrame_outR, stepFrame_status]

/-- Settles O31 (R188): states that agree once their staging registers are wiped do so after a STEP. -/
theorem stepReadsNoStagingRegister : Obligations.StepReadsNoStagingRegister := by
  intro s s' t t' hrest hlines hs hs'
  have hwiped : clearStaging s' = clearStaging s := (clearStaging_eq_iff s s').2 ⟨hrest, hlines⟩
  cases hs
  cases hs'
  refine (clearStaging_eq_iff _ _).1 ?_
  rw [← stepFrame_clearStaging, hwiped, stepFrame_clearStaging]

end Sys2Proof.Proofs
end

section
/-!
The phase increment (42_modulation_bank R201): what dividing by a positive finite value such as FS gives, and where the
clamp into [0, 0.5] sends that quotient.
-/

namespace Sys2Proof.Machine

namespace F32

/-! ### The key's sign, and the order of the values of one sign -/

theorem key_nonpos_of_sign {w : Word} (h : sign w = true) : key w ≤ 0 := by
  simp [key, h]

theorem key_of_sign_false {w : Word} (h : sign w = false) : key w = units w := by
  simp [key, h]

theorem units_of_isZero {w : Word} (h : isZero w = true) : units w = 0 := by
  have hmag : magnitude w = 0 := of_decide_eq_true h
  rw [units_eq_unitsOf, hmag, unitsOf_zero]

theorem key_of_isZero {w : Word} (h : isZero w = true) : key w = 0 := by
  simp [key, units_of_isZero h]

theorem sign_of_key_pos {w : Word} (h : 0 < key w) : sign w = false :=
  Bool.eq_false_iff.2 fun hsign => h.not_ge (key_nonpos_of_sign hsign)

theorem isZero_of_key_pos {w : Word} (h : 0 < key w) : isZero w = false :=
  Bool.eq_false_iff.2 fun hzero => h.ne' (key_of_isZero hzero)

theorem not_gt_zero_of_key_nonpos {w : Word} (h : key w ≤ 0) : gt w zero = false := by
  refine Bool.eq_false_iff.2 fun hgt => ?_
  obtain ⟨-, -, hkey⟩ := (lt_iff zero w).1 hgt
  exact hkey.not_ge h

/-- Among the values of positive sign, the order is that of the magnitude bits. -/
theorem le_of_magnitude_le {a b : Word} (ha : sign a = false) (hb : sign b = false) (hnan : isNaN b = false)
    (h : magnitude a ≤ magnitude b) : le a b = true := by
  refine (le_iff a b).2 ⟨Bool.eq_false_iff.2 fun hanan => ?_, hnan, ?_⟩
  · have hbnan : isNaN b = true := (isNaN_iff b).2 (Nat.lt_of_lt_of_le ((isNaN_iff a).1 hanan) h)
    simp [hnan] at hbnan
  · rw [key_of_sign_false ha, key_of_sign_false hb, units_eq_unitsOf, units_eq_unitsOf]
    exact_mod_cast unitsOf_strictMono.monotone h

@[simp] theorem magnitude_round (negative : Bool) (num den : Nat) :
    magnitude (F32.round negative num den) = roundMag num den :=
  magnitude_pack negative (roundMag_lt num den)

/-! ### Division by a positive finite value -/

/-- A NaN gives the default NaN, an infinity is left as it is, and a finite value gives the rounded quotient with the
dividend's own sign. -/
theorem div_of_pos (a : Word) {b : Word} (hfin : isFinite b = true) (hpos : 0 < key b) :
    (isNaN a = true ∧ div a b = defaultNaN) ∨
    (isInf a = true ∧ div a b = a) ∨
    (isNaN a = false ∧ div a b = F32.round (sign a) (units a * 2 ^ 149) (units b)) := by
  have hsign : sign b = false := sign_of_key_pos hpos
  have hzero : isZero b = false := isZero_of_key_pos hpos
  obtain ⟨-, -, hb⟩ | ⟨-, -, hb⟩ | ⟨hbnan, hbinf, -⟩ := class_cases b
  · simp [hfin] at hb
  · simp [hfin] at hb
  obtain ⟨hnan, -, -⟩ | ⟨hnan, hinf, -⟩ | ⟨hnan, hinf, -⟩ := class_cases a
  · exact .inl ⟨hnan, by simp [div, hnan]⟩
  · refine .inr (.inl ⟨hinf, ?_⟩)
    have hpack : pack (sign a) infMagnitude = a := by rw [← (isInf_iff a).1 hinf, pack_fields]
    simp [div, hnan, hbnan, hinf, hbinf, hzero, hsign, hpack]
  · exact .inr (.inr ⟨hnan, by simp [div, hnan, hbnan, hinf, hbinf, hzero, hsign]⟩)

/-- The quotient of a NaN, a negative value or a zero is not above zero. -/
theorem not_gt_zero_div {a b : Word} (hfin : isFinite b = true) (hpos : 0 < key b)
    (ha : isNaN a = true ∨ sign a = true ∨ isZero a = true) : gt (div a b) zero = false := by
  have hkey : key b = units b := key_of_sign_false (sign_of_key_pos hpos)
  obtain ⟨-, heq⟩ | ⟨-, heq⟩ | ⟨hnan, heq⟩ := div_of_pos a hfin hpos <;> rw [heq]
  case inl => exact gt_of_isNaN zero (by decide)
  case inr.inl =>
    obtain hnan | hneg | hzero := ha
    · exact gt_of_isNaN zero hnan
    · exact not_gt_zero_of_key_nonpos (key_nonpos_of_sign hneg)
    · exact not_gt_zero_of_key_nonpos (key_of_isZero hzero).le
  case inr.inr =>
    obtain hanan | hneg | hzero := ha
    · simp [hnan] at hanan
    · exact not_gt_zero_of_key_nonpos (key_nonpos_of_sign (by rw [sign_round, hneg]))
    · have hmag : roundMag (units a * 2 ^ 149) (units b) = 0 :=
        roundMag_exact (by omega) (by decide) (by simp [units_of_isZero hzero])
      refine not_gt_zero_of_key_nonpos (key_of_isZero (decide_eq_true ?_)).le
      rw [magnitude_round, hmag]

/-- The quotient of a value above half the divisor is at least 0.5: the exact quotient is, and rounding does not cross
a binary32 value. -/
theorem half_le_div {a b : Word} (hfin : isFinite b = true) (hpos : 0 < key b) (hnan : isNaN a = false)
    (habove : key b < 2 * key a) : le half (div a b) = true := by
  have hsign : sign a = false := sign_of_key_pos (by omega)
  obtain ⟨hanan, -⟩ | ⟨hinf, heq⟩ | ⟨-, heq⟩ := div_of_pos a hfin hpos
  case inl => simp [hnan] at hanan
  case inr.inl =>
    rw [heq]
    refine le_of_magnitude_le (by decide) hsign hnan ?_
    rw [(isInf_iff a).1 hinf]
    decide
  case inr.inr =>
    rw [heq]
    refine le_of_magnitude_le (by decide) (by rw [sign_round, hsign]) (isNaN_round _ _ _) ?_
    rw [magnitude_round]
    have hkeyA : key a = units a := key_of_sign_false hsign
    have hkeyB : key b = units b := key_of_sign_false (sign_of_key_pos hpos)
    have hhalf : unitsOf (magnitude half) = 2 ^ 148 := by decide
    exact le_roundMag (by omega) (by decide) (by rw [hhalf]; omega)

end F32

/-! ### The clamp from +0.0 -/

/-- A clamp whose lower bound is +0.0 does not answer −0. -/
theorem clamp_zero_ne_negZero (x : Word) {hi : Word} (h : hi ≠ 0x80000000#32) :
    F32.clamp x F32.zero hi ≠ 0x80000000#32 := by
  obtain ⟨hgt, -, heq⟩ | ⟨-, -, heq⟩ | ⟨-, heq⟩ := clamp_cases x F32.zero hi <;> rw [heq]
  case inl =>
    rintro rfl
    exact Bool.eq_false_iff.1 F32.not_negZero_gt_zero hgt
  case inr.inl => exact h
  case inr.inr => decide

/-- A clamp between +0.0 and a bound of at least that lies in the closed interval, not a NaN and not −0. -/
theorem clamp_zero_inClosed (x : Word) {hi : Word} (hle : F32.le F32.zero hi = true) (h : hi ≠ 0x80000000#32) :
    InClosed (F32.clamp x F32.zero hi) hi := by
  obtain ⟨hlo, hhi⟩ := clamp_between x hle
  exact ⟨hlo, hhi, clamp_zero_ne_negZero x h⟩

theorem clamp_of_ge {x lo hi : Word} (h : F32.lt lo hi = true) (hge : F32.ge x hi = true) : F32.clamp x lo hi = hi := by
  rw [clamp_eq_ite x h, if_pos hge]

theorem F32.zero_lt_half : F32.lt F32.zero F32.half = true := by decide

/-- An admissible FS, a positive normal number (R10), is finite and above zero. -/
theorem admissible_fs {fs : Word} (hlo : 0x00800000 ≤ fs.toNat) (hhi : fs.toNat ≤ 0x7F7FFFFF) :
    F32.isFinite fs = true ∧ 0 < F32.key fs := by
  have hmag : F32.magnitude fs = fs.toNat := Nat.mod_eq_of_lt (by omega)
  have hsign : F32.sign fs = false := BitVec.msb_eq_false_iff_two_mul_lt.2 (by omega)
  refine ⟨(F32.isFinite_iff fs).2 (by rw [hmag]; unfold F32.infMagnitude; omega), ?_⟩
  have hpos : F32.unitsOf 0 < F32.unitsOf fs.toNat := F32.unitsOf_strictMono (by omega)
  rw [F32.key_of_sign_false hsign, F32.units_eq_unitsOf, hmag]
  exact_mod_cast hpos

end Sys2Proof.Machine

namespace Sys2Proof.Proofs

open Sys2Proof.Machine

/-- Settles O36 (R201): the increment is the clamped quotient, in [0, 0.5], with its corner cases. -/
theorem phaseIncrementCorners : Obligations.PhaseIncrementCorners := by
  intro fs l hlo hhi
  obtain ⟨hfin, hpos⟩ := admissible_fs hlo hhi
  refine ⟨rfl, ?inClosed, fun hfreq => ?stopped, fun hnan habove => ?fastest⟩
  case inClosed => exact clamp_zero_inClosed _ (F32.le_of_lt F32.zero_lt_half) (by decide)
  case stopped => exact F32.clamp_of_not_gt F32.half (F32.not_gt_zero_div hfin hpos hfreq)
  case fastest => exact clamp_of_ge F32.zero_lt_half (F32.half_le_div hfin hpos hnan habove)

end Sys2Proof.Proofs
end

section
/-!
The output pin err (60_exceptions R310): it is STATUS[4:0] ≠ 0, and how each instruction updates STATUS, from which
every step but a write to STATUS and a reset keeps it high.
-/

namespace Sys2Proof.Machine

/-! ### The pin -/

theorem errOutput_iff (s : State) : errOutput s = true ↔ s.status &&& stickyMask ≠ 0#32 := bne_iff_ne

/-- The mask of the sticky bits cuts out STATUS[4:0] (R35). -/
theorem and_stickyMask_eq_zero_iff (status : Word) :
    status &&& stickyMask = 0#32 ↔ status.extractLsb' 0 5 = 0#5 := by
  have hmask : status.toNat &&& 31 = status.toNat % 32 := Nat.and_two_pow_sub_one_eq_mod status.toNat 5
  simp [← BitVec.toNat_inj, stickyMask, hmask]

/-! ### The sticky bits after the updates of STATUS -/

/-- Setting a bit clears none. -/
theorem setStatusBit_sticky_ne_zero (b : Nat) {status : Word} (h : status &&& stickyMask ≠ 0#32) :
    setStatusBit b status &&& stickyMask ≠ 0#32 := by
  intro hzero
  rw [setStatusBit, BitVec.and_or_distrib_right, BitVec.or_eq_zero_iff] at hzero
  obtain ⟨hstatus, -⟩ := hzero
  exact h hstatus

/-- PEND is no sticky bit. -/
theorem clearStatusBit_pendBit_sticky (status : Word) :
    clearStatusBit pendBit status &&& stickyMask = status &&& stickyMask := by
  have hmask : ~~~(bitWord pendBit) &&& stickyMask = stickyMask := by decide
  rw [clearStatusBit, BitVec.and_assoc, hmask]

/-! ### How an instruction updates STATUS -/

/-- A line read sets at most EADDR. -/
theorem readLineReg_status_cases (off : BitVec 5) (d : LineIx) (value : Line → Word) (s : State) :
    (readLineReg off d value s).status = s.status ∨
    ∃ b, (readLineReg off d value s).status = setStatusBit b s.status := by
  obtain ⟨l, -, h⟩ | ⟨-, h⟩ := readLineReg_cases off d value s <;> rw [h]
  · exact .inl rfl
  · exact .inr ⟨_, rfl⟩

/-- A line write sets PEND or EADDR. -/
theorem writeLineReg_status (off : BitVec 5) (d : LineIx) (update : Line → Line) (s : State) :
    ∃ b, (writeLineReg off d update s).status = setStatusBit b s.status := by
  obtain ⟨-, h⟩ | ⟨-, h⟩ := writeLineReg_cases off d update s <;> rw [h] <;> exact ⟨_, rfl⟩

/-- WR.CFG_STG sets PEND, EFIELD or EADDR. -/
theorem execWrCfgStg_status {d : LineIx} {data : Word} {s t : State} (h : execWrCfgStg d data s = .next t) :
    ∃ b, t.status = setStatusBit b s.status := by
  obtain ⟨-, -, -, c, -, rfl⟩ | ⟨-, -, rfl⟩ | ⟨-, rfl⟩ := execWrCfgStg_cases h <;> exact ⟨_, rfl⟩

/-- Every instruction but WR.STATUS and RESET leaves STATUS as it is, sets one bit of it, or clears PEND. -/
theorem exec_status_cases {i : Instr} {s t : State} (h : exec i s = .next t) :
    i = .reset ∨ (∃ data, i = .wrStatus data) ∨
    t.status = s.status ∨ (∃ b, t.status = setStatusBit b s.status) ∨
    t.status = clearStatusBit pendBit s.status := by
  cases i with
  | reset => exact .inl rfl
  | wrStatus data => exact .inr (.inl ⟨data, rfl⟩)
  | commit => cases h; exact .inr (.inr (.inr (.inr rfl)))
  | step =>
    cases h
    obtain hset | hkept := stepFrame_status_cases s
    · exact .inr (.inr (.inr (.inl ⟨nonfinBit, hset⟩)))
    · exact .inr (.inr (.inl hkept))
  | wrMixStg data => cases h; exact .inr (.inr (.inr (.inl ⟨pendBit, rfl⟩)))
  | wrBaseStg d data | wrDepthStg d data | wrFreqStg d data | wrFbStg d data | wrLevelStg d data =>
    cases h; exact .inr (.inr (.inr (.inl (writeLineReg_status ..))))
  | wrCfgStg d data => exact .inr (.inr (.inr (.inl (execWrCfgStg_status h))))
  | nop | wrInL data | wrInR data => cases h; exact .inr (.inr (.inl rfl))
  | rdCmd | rdStatus | rdErraddr | rdFs | rdNlines | rdFrames | rdInL | rdInR | rdOutL | rdOutR | rdMixStg | rdMix =>
    cases h; exact .inr (.inr (.inl rfl))
  | _ =>
    cases h
    exact .inr (.inr ((readLineReg_status_cases ..).imp_right .inl))

/-! ### err stays high -/

/-- An instruction over which err falls is RESET or WR.STATUS. -/
theorem exec_errOutput_falls {i : Instr} {s t : State} (h : exec i s = .next t) (hhigh : errOutput s = true)
    (hlow : errOutput t = false) : i = .reset ∨ ∃ data, i = .wrStatus data := by
  have hs : s.status &&& stickyMask ≠ 0#32 := (errOutput_iff s).1 hhigh
  have ht : ¬t.status &&& stickyMask ≠ 0#32 := by rw [← errOutput_iff, hlow]; exact Bool.false_ne_true
  obtain hreset | hwrite | hkept | ⟨b, hset⟩ | hpend := exec_status_cases h
  · exact .inl hreset
  · exact .inr hwrite
  · exact absurd (by rwa [hkept]) ht
  · exact absurd (by rw [hset]; exact setStatusBit_sticky_ne_zero b hs) ht
  · exact absurd (by rwa [hpend, clearStatusBit_pendBit_sticky]) ht

/-- Recording an error raises err or leaves it high (R301). -/
theorem raiseError_errOutput (k : ErrorKind) (write : Bool) (a : Addr) {s : State} (h : errOutput s = true) :
    errOutput (raiseError k write a s) = true := by
  rw [errOutput_iff] at h ⊢
  exact setStatusBit_sticky_ne_zero (errorBit k) h

end Sys2Proof.Machine

namespace Sys2Proof.Proofs

open Sys2Proof.Machine

/-- Settles O15 (R310): the level of err, and then each way a step can go on. -/
theorem errOutputIsTheStickyBits : Obligations.ErrOutputIsTheStickyBits := by
  refine ⟨fun s => ?level, fun s t h hhigh hlow => ?falls⟩
  case level => exact (errOutput_iff s).trans (and_stickyMask_eq_zero_iff s.status).not
  case falls =>
    obtain ⟨-, rfl⟩ | ⟨level, rest, hin, -⟩ | ⟨w, rest, i, hin, -, hdec, hexec⟩ | ⟨w, rest, k, -, -, -, rfl⟩ :=
      step_cases h
    · simp [hhigh] at hlow
    · exact ⟨_, rest, hin, .inl ⟨level, rfl⟩⟩
    · obtain rfl | ⟨data, rfl⟩ := exec_errOutput_falls hexec hhigh hlow
      · exact ⟨_, rest, hin, .inr ⟨w, rfl, .inl hdec⟩⟩
      · exact ⟨_, rest, hin, .inr ⟨w, rfl, .inr ⟨data, hdec⟩⟩⟩
    · have hkept := raiseError_errOutput k (txnWrite w) (txnAddr w) (s := takeEvent rest s) hhigh
      simp [hkept] at hlow

end Sys2Proof.Proofs
end

section
/-!
The encoder's words decode back (30_encoding sections 1 to 4), and the rows of the opcode table are disjoint.
-/

namespace Sys2Proof

/-! ### Decoding an encoded word -/

/-- A line operation that passes the decoder's checks names a line of the block (R92). -/
theorem not_le_of_wf {n : Nat} {i : Instr} {d : LineIx} (hline : i.line? = some d) (h : i.wf n = true) :
    ¬n ≤ d.toNat := by
  simp only [Instr.wf, Instr.lineOk, hline, Bool.and_eq_true, decide_eq_true_eq] at h
  obtain ⟨hlt, -⟩ := h
  exact Nat.not_le.2 hlt

/-- The data of a CFG_STG write that passes the decoder's checks holds no reserved code (R97). -/
theorem not_reserved_of_wf {n : Nat} {d : LineIx} {data : Word} (h : (Instr.wrCfgStg d data).wf n = true) :
    ¬(dataRoute data = 3 ∨ dataInterp data = 3) := by
  simp only [Instr.wf, Instr.dataOk, cfgDataLegal, Bool.and_eq_true, decide_eq_true_eq] at h
  obtain ⟨-, hroute, hinterp⟩ := h
  exact not_or.2 ⟨Nat.ne_of_lt hroute, Nat.ne_of_lt hinterp⟩

/-- The decoder reads every instruction that passes its checks from the word the encoder writes: the region, the
direction and the index or offset select the row, and the line check of the line region passes. -/
theorem decode_encode {n : Nat} {i : Instr} (h : i.wf n = true) : decode n (encode i) = .op i := by
  cases i with
  | nop | step | commit | reset => exact decode_packTxn_globalWrite n 0x000#12 _
  | wrStatus data | wrInL data | wrInR data | wrMixStg data => exact decode_packTxn_globalWrite n _ data
  | rdCmd | rdStatus | rdErraddr | rdFs | rdNlines | rdFrames | rdInL | rdInR | rdOutL | rdOutR | rdMixStg | rdMix =>
    exact decode_packTxn_globalRead n _ 0#32
  | wrBaseStg d data | wrDepthStg d data | wrFreqStg d data | wrFbStg d data | wrLevelStg d data =>
    exact (decode_packTxn_lineWrite n d _ data).trans (if_neg (not_le_of_wf rfl h))
  | wrCfgStg d data =>
    have hline : decode n (encode (.wrCfgStg d data)) = decodeCfgWrite d data :=
      (decode_packTxn_lineWrite n d 0x05#5 data).trans (if_neg (not_le_of_wf rfl h))
    rw [hline, decodeCfgWrite, if_neg (not_reserved_of_wf h)]
  | _ d => exact (decode_packTxn_lineRead n d _ 0#32).trans (if_neg (not_le_of_wf rfl h))

/-! ### The rows of the opcode table -/

/-- One instruction of each row of the opcode table, its operands 0. -/
def rowInstrs : List Instr :=
  [.nop, .step, .commit, .reset, .rdCmd, .rdStatus, .wrStatus 0, .rdErraddr, .rdFs, .rdNlines, .rdFrames, .wrInL 0,
   .rdInL, .wrInR 0, .rdInR, .rdOutL, .rdOutR, .wrMixStg 0, .rdMixStg, .rdMix, .wrBaseStg 0 0, .wrDepthStg 0 0,
   .wrFreqStg 0 0, .wrFbStg 0 0, .wrLevelStg 0 0, .wrCfgStg 0 0, .rdBaseStg 0, .rdDepthStg 0, .rdFreqStg 0, .rdFbStg 0,
   .rdLevelStg 0, .rdCfgStg 0, .rdBase 0, .rdDepth 0, .rdFreq 0, .rdFb 0, .rdLevel 0, .rdCfg 0, .rdPhase 0, .rdWptr 0,
   .rdDelay 0, .rdLastrd 0, .rdCap 0, .rdMaxd 0]

/-- An instruction's row does not depend on its operands. -/
theorem exists_rowInstr (i : Instr) : ∃ r ∈ rowInstrs, r.ctorIdx = i.ctorIdx ∧ opcodeRow r = opcodeRow i := by
  have hlt : i.ctorIdx < rowInstrs.length := by cases i <;> exact Nat.le_of_ble_eq_true rfl
  refine ⟨rowInstrs[i.ctorIdx], List.getElem_mem hlt, ?_⟩
  cases i <;> exact ⟨rfl, rfl⟩

/-- Any two different rows of the table differ on the bits that both masks keep. -/
theorem rowInstrs_disjoint : ∀ r ∈ rowInstrs, ∀ q ∈ rowInstrs,
    (opcodeRow r).1 &&& (opcodeRow q).2 = (opcodeRow q).1 &&& (opcodeRow r).2 → r.ctorIdx = q.ctorIdx := by
  decide +kernel

/-- Two rows that one word matches agree on the bits that both masks keep. -/
theorem rows_agree_of_match {t : Txn} {i j : Instr} (hi : t &&& (opcodeRow i).2 = (opcodeRow i).1)
    (hj : t &&& (opcodeRow j).2 = (opcodeRow j).1) :
    (opcodeRow i).1 &&& (opcodeRow j).2 = (opcodeRow j).1 &&& (opcodeRow i).2 := by
  rw [← hi, ← hj, BitVec.and_assoc, BitVec.and_assoc, BitVec.and_comm (opcodeRow i).2]

end Sys2Proof

namespace Sys2Proof.Proofs

/-- Settles O1 (30_encoding sections 1 to 4). -/
theorem decodeInvertsEncode : Obligations.DecodeInvertsEncode := fun _ _ h => decode_encode h

/-- Settles O3: two rows that one word matches agree on their common bits, which only one row's instructions do. -/
theorem noWordMatchesTwoRows : Obligations.NoWordMatchesTwoRows := by
  intro t i j hi hj
  obtain ⟨r, hr, hri, hrow⟩ := exists_rowInstr i
  obtain ⟨q, hq, hqj, hqow⟩ := exists_rowInstr j
  have hagree := rows_agree_of_match hi hj
  rw [← hrow, ← hqow] at hagree
  rw [← hri, ← hqj]
  exact rowInstrs_disjoint r hr q hq hagree

/-- Settles O5: each sample word is a closed term that the decoder evaluates. -/
theorem sampleWordsDecode : Obligations.SampleWordsDecode := by
  unfold Obligations.SampleWordsDecode
  decide

end Sys2Proof.Proofs
end

section
/-!
binary32 arithmetic (00_scope section 5): each operation on finite values as one rounding of the exact result, which
values are representable and so rounded exactly, and that the rounded value is the nearest one.
-/

namespace Sys2Proof.Machine.F32

/-! ### Classes of values and their keys -/

theorem isNaN_of_isFinite {w : Word} (h : isFinite w = true) : isNaN w = false := by
  obtain ⟨-, -, hw⟩ | ⟨hw, -, -⟩ | ⟨hw, -, -⟩ := class_cases w
  · simp [h] at hw
  · exact hw
  · exact hw

theorem isInf_of_isFinite {w : Word} (h : isFinite w = true) : isInf w = false := by
  obtain ⟨-, hw, -⟩ | ⟨-, -, hw⟩ | ⟨-, hw, -⟩ := class_cases w
  · exact hw
  · simp [h] at hw
  · exact hw

theorem natAbs_key (w : Word) : (key w).natAbs = units w := by
  cases hs : sign w <;> simp [key, hs]

theorem units_eq_zero_iff (w : Word) : units w = 0 ↔ magnitude w = 0 := by
  rw [units_eq_unitsOf]
  exact unitsOf_strictMono.injective.eq_iff' unitsOf_zero

theorem isZero_iff_key (w : Word) : isZero w = true ↔ key w = 0 := by
  rw [← Int.natAbs_eq_zero, natAbs_key, units_eq_zero_iff]
  exact decide_eq_true_iff

theorem isZero_of_key_ne_zero {w : Word} (h : key w ≠ 0) : isZero w = false :=
  Bool.eq_false_iff.2 fun hzero => h ((isZero_iff_key w).1 hzero)

theorem units_pos_of_key_ne_zero {w : Word} (h : key w ≠ 0) : 0 < units w := by
  rw [← natAbs_key]; exact Int.natAbs_pos.2 h

theorem unitsOf_infMagnitude : unitsOf infMagnitude = 2 ^ 277 := by decide +kernel

theorem lt_infMagnitude_iff (m : Nat) : m < infMagnitude ↔ unitsOf m < 2 ^ 277 := by
  rw [← unitsOf_infMagnitude, unitsOf_strictMono.lt_iff_lt]

/-- A value is finite when its key lies below that of the infinities. -/
theorem isFinite_iff_units (w : Word) : isFinite w = true ↔ units w < 2 ^ 277 := by
  rw [isFinite_iff, lt_infMagnitude_iff, units_eq_unitsOf]

/-- Two values with the same key that is not 0 are the same word; only the two zeros share a key. -/
theorem eq_of_key_eq {a b : Word} (h : key a = key b) (hne : key a ≠ 0) : a = b := by
  have hmag : magnitude a = magnitude b := by
    apply unitsOf_strictMono.injective
    rw [← units_eq_unitsOf, ← units_eq_unitsOf, ← natAbs_key, ← natAbs_key, h]
  have hsign : sign a = sign b := by
    have hunits : units a = units b := by rw [← natAbs_key, ← natAbs_key, h]
    cases ha : sign a <;> cases hb : sign b <;> simp [key, ha, hb, hunits] at h hne ⊢ <;> omega
  rw [← pack_fields a, ← pack_fields b, hmag, hsign]

/-- A word of positive sign is not −0. -/
theorem ne_negZero_of_sign {w : Word} (h : sign w = false) : w ≠ 0x80000000#32 := by
  rintro rfl
  exact absurd h (by decide)

/-- A value that is at least +0.0 and not −0 has the positive sign. -/
theorem sign_of_key_nonneg {w : Word} (h : 0 ≤ key w) (hne : w ≠ 0x80000000#32) : sign w = false := by
  refine Bool.eq_false_iff.2 fun hs => hne ?_
  have hmag : magnitude w = 0 := (units_eq_zero_iff w).1 (by simp [key, hs] at h; exact h)
  rw [← pack_fields w, hs, hmag]
  rfl

/-! ### Rounded values -/

theorem key_round (negative : Bool) (num den : Nat) :
    key (F32.round negative num den) =
      if negative then -(unitsOf (roundMag num den) : Int) else unitsOf (roundMag num den) :=
  key_pack negative (roundMag_lt num den)

theorem isFinite_round (negative : Bool) (num den : Nat) :
    isFinite (F32.round negative num den) = true ↔ roundMag num den < infMagnitude := by
  rw [isFinite_iff, magnitude_round]

theorem roundMag_zero {den : Nat} (hd : 0 < den) : roundMag 0 den = 0 :=
  roundMag_exact hd (by decide) (by simp)

/-- The sum of finite values is the exact sum rounded once; a zero sum is negative only of two negative zeros. -/
theorem add_eq_round {a b : Word} (ha : isFinite a = true) (hb : isFinite b = true) :
    add a b = F32.round (if key a + key b = 0 then sign a && sign b else decide (key a + key b < 0))
      (key a + key b).natAbs 1 := by
  simp only [add, isNaN_of_isFinite ha, isNaN_of_isFinite hb, isInf_of_isFinite ha, isInf_of_isFinite hb,
    Bool.or_self, Bool.false_eq_true, if_false]
  split
  · next hzero => rw [hzero, Int.natAbs_zero, F32.round, roundMag_zero one_pos]
  · rfl

/-- The product of finite values is the exact product rounded once, with the exclusive or of the signs. -/
theorem mul_eq_round {a b : Word} (ha : isFinite a = true) (hb : isFinite b = true) :
    mul a b = F32.round (sign a != sign b) (units a * units b) (2 ^ 149) := by
  simp [mul, isNaN_of_isFinite ha, isNaN_of_isFinite hb, isInf_of_isFinite ha, isInf_of_isFinite hb]

/-- The quotient of finite values by one that is not zero is the exact quotient rounded once, with the exclusive or of
the signs. -/
theorem div_eq_round {a b : Word} (ha : isFinite a = true) (hb : isFinite b = true) (hzero : isZero b = false) :
    div a b = F32.round (sign a != sign b) (units a * 2 ^ 149) (units b) := by
  simp [div, isNaN_of_isFinite ha, isNaN_of_isFinite hb, isInf_of_isFinite ha, isInf_of_isFinite hb, hzero]

/-! ### Representable values -/

/-- The number n of units of 2^−149 is the magnitude of a finite binary32 value: 24 significant bits, below 2^128. -/
def Representable (n : Nat) : Prop := n < 2 ^ 277 ∧ ∃ k e, k ≤ 2 ^ 24 ∧ n = k * 2 ^ e

theorem two_pow_lt_of_lt {e : Nat} (h : e < 277) : 2 ^ e < 2 ^ 277 := by
  gcongr
  exact Nat.one_lt_two

/-- At most 24 significant bits fit: the significand is doubled until it fills them or no bit is left below it. -/
theorem exists_unitsOf_eq (e : Nat) {k : Nat} (hk : k ≤ 2 ^ 24) : ∃ m, unitsOf m = k * 2 ^ e := by
  induction e generalizing k with
  | zero => exact ⟨k, by simpa using unitsOf_significand hk (.inl rfl)⟩
  | succ e ih =>
    by_cases hfull : 2 ^ 23 ≤ k
    · exact ⟨_, unitsOf_significand hk (.inr hfull)⟩
    · obtain ⟨m, hm⟩ := ih (k := 2 * k) (by omega)
      exact ⟨m, by rw [hm]; ring⟩

/-- What is representable is not changed by rounding. -/
theorem unitsOf_roundMag_of_representable {n den : Nat} (hd : 0 < den) (h : Representable n) :
    roundMag (n * den) den < infMagnitude ∧ unitsOf (roundMag (n * den) den) = n := by
  obtain ⟨hlt, k, e, hk, rfl⟩ := h
  obtain ⟨m, hm⟩ := exists_unitsOf_eq e hk
  have hfin : m < infMagnitude := (lt_infMagnitude_iff m).2 (by rw [hm]; exact hlt)
  have hround : roundMag (k * 2 ^ e * den) den = m := roundMag_exact hd hfin (by rw [hm])
  exact ⟨hround ▸ hfin, hround ▸ hm⟩

/-- The value of a word as a significand of 24 bits and a power of two. -/
theorem units_eq_significand (w : Word) : ∃ k e, k ≤ 2 ^ 24 ∧ units w = k * 2 ^ e := by
  have hfrac : fraction w < 2 ^ 23 := Nat.mod_lt _ (by norm_num)
  unfold units
  split
  · exact ⟨fraction w, 0, by omega, by simp⟩
  · exact ⟨2 ^ 23 + fraction w, exponent w - 1, by omega, rfl⟩

theorem representable_units {w : Word} (h : isFinite w = true) : Representable (units w) :=
  ⟨(isFinite_iff_units w).1 h, units_eq_significand w⟩

/-- The part of a value below 1.0 is representable: it has no bit that the value itself has not. -/
theorem representable_units_mod (w : Word) : Representable (units w % 2 ^ 149) := by
  have hlt : units w % 2 ^ 149 < 2 ^ 149 := Nat.mod_lt _ (by positivity)
  refine ⟨hlt.trans (two_pow_lt_of_lt (by decide)), ?_⟩
  obtain ⟨k, e, hk, hw⟩ := units_eq_significand w
  by_cases he : e ≤ 149
  · refine ⟨k % 2 ^ (149 - e), e, (Nat.mod_le _ _).trans hk, ?_⟩
    rw [hw, ← Nat.mul_mod_mul_right, ← Nat.pow_add, Nat.sub_add_cancel he]
  · refine ⟨0, 0, by norm_num, ?_⟩
    have hdvd : 2 ^ 149 ∣ units w := hw ▸ Dvd.dvd.mul_left (Nat.pow_dvd_pow 2 (by omega)) k
    rw [Nat.mod_eq_zero_of_dvd hdvd, Nat.zero_mul]

/-- A sum that is representable is exact. -/
theorem add_exact {a b : Word} (ha : isFinite a = true) (hb : isFinite b = true)
    (h : Representable (key a + key b).natAbs) : isFinite (add a b) = true ∧ key (add a b) = key a + key b := by
  obtain ⟨hfin, hunits⟩ := unitsOf_roundMag_of_representable one_pos h
  rw [Nat.mul_one] at hfin hunits
  rw [add_eq_round ha hb]
  refine ⟨(isFinite_round _ _ _).2 hfin, ?_⟩
  rw [key_round, hunits]
  by_cases hzero : key a + key b = 0
  · simp [hzero]
  · simp only [hzero, if_false, decide_eq_true_eq]
    split <;> omega

/-- A sum with a zero is exact. -/
theorem add_zero_exact {a z : Word} (ha : isFinite a = true) (hz : isFinite z = true) (hzero : key z = 0) :
    isFinite (add a z) = true ∧ key (add a z) = key a := by
  have hsum : key a + key z = key a := by rw [hzero, Int.add_zero]
  have hexact := add_exact ha hz (by rw [hsum, natAbs_key]; exact representable_units ha)
  rwa [hsum] at hexact

/-- A product with a zero is a zero. -/
theorem mul_zero_exact {a z : Word} (ha : isFinite a = true) (hz : isFinite z = true) (hzero : key z = 0) :
    isFinite (mul a z) = true ∧ key (mul a z) = 0 := by
  have hunits : units z = 0 := by rw [← natAbs_key, hzero, Int.natAbs_zero]
  have hround : roundMag (units a * units z) (2 ^ 149) = 0 := by
    rw [hunits, Nat.mul_zero, roundMag_zero (by positivity)]
  rw [mul_eq_round ha hz]
  exact ⟨(isFinite_round _ _ _).2 (by rw [hround]; decide), by rw [key_round, hround]; simp⟩

/-! ### Integers -/

theorem ofInt_exact {n : Int} (h : |n| ≤ 2 ^ 24) : isFinite (ofInt n) = true ∧ key (ofInt n) = n * 2 ^ 149 := by
  have hn : n.natAbs ≤ 2 ^ 24 := by rw [Int.abs_eq_natAbs] at h; omega
  have hlt : n.natAbs * 2 ^ 149 < 2 ^ 277 :=
    calc n.natAbs * 2 ^ 149 ≤ 2 ^ 24 * 2 ^ 149 := Nat.mul_le_mul_right _ hn
      _ = 2 ^ 173 := (Nat.pow_add ..).symm
      _ < 2 ^ 277 := two_pow_lt_of_lt (by decide)
  have hrep : Representable (n.natAbs * 2 ^ 149) := ⟨hlt, n.natAbs, 149, hn, rfl⟩
  obtain ⟨hfin, hunits⟩ := unitsOf_roundMag_of_representable one_pos hrep
  rw [Nat.mul_one] at hfin hunits
  refine ⟨(isFinite_round _ _ _).2 hfin, ?_⟩
  rw [ofInt, key_round, hunits]
  simp only [decide_eq_true_eq]
  split <;> omega

theorem floor_bounds (x : Word) : floor x * 2 ^ 149 ≤ key x ∧ key x < (floor x + 1) * 2 ^ 149 := by
  unfold floor; omega

theorem rnd_bounds (x : Word) :
    2 * rnd x * 2 ^ 149 ≤ 2 * key x + 2 ^ 149 ∧ 2 * key x + 2 ^ 149 < 2 * (rnd x + 1) * 2 ^ 149 := by
  unfold rnd; omega

/-! ### The distance of a value from an exact result, and the nearest value -/

/-- A value with the sign of the exact result is as far from it as their magnitudes are apart. -/
theorem abs_key_sub_of_sign_eq {c : Word} {num : Int} (den : Nat) (h : num ≠ 0 → (sign c = true ↔ num < 0)) :
    |key c * den - num| = |((units c : Int) * den) - num.natAbs| := by
  by_cases hnum : num = 0
  · subst hnum
    cases hs : sign c <;> simp [key, hs]
  · have hsign := h hnum
    cases hs : sign c
    · have hnum' : (num.natAbs : Int) = num := by simp [hs] at hsign; omega
      rw [hnum']; simp [key, hs]
    · have hnum' : (num.natAbs : Int) = -num := by simp [hs] at hsign; omega
      rw [hnum', ← abs_neg]; simp [key, hs]; ring_nf

/-- A value with the other sign than the exact result is as far from it as their magnitudes together. -/
theorem abs_key_sub_of_sign_ne {c : Word} {num : Int} (den : Nat) (hne : num ≠ 0) (h : ¬(sign c = true ↔ num < 0)) :
    |key c * den - num| = (units c : Int) * den + num.natAbs := by
  have hpos : (0 : Int) ≤ (units c : Int) * den := by positivity
  cases hs : sign c
  · have hnum : num < 0 := by simpa [hs] using h
    have hkey : key c * den - num = (units c : Int) * den + num.natAbs := by
      simp only [key, hs, Bool.false_eq_true, if_false]; omega
    rw [hkey, abs_of_nonneg (by omega)]
  · have hnum : 0 < num := by simp [hs] at h; omega
    have hkey : key c * den - num = -((units c : Int) * den + num.natAbs) := by
      simp only [key, hs, if_true, Int.neg_mul]; omega
    rw [hkey, abs_neg, abs_of_nonneg (by omega)]

theorem getLsbD_zero_round {negative : Bool} {num den : Nat} (h : roundMag num den % 2 = 0) :
    (F32.round negative num den).getLsbD 0 = false := by
  have hlt := roundMag_lt num den
  rw [F32.round, pack, BitVec.getLsbD_ofNat, Nat.testBit_zero]
  cases negative <;> simp <;> omega

end Sys2Proof.Machine.F32
end

section
/-!
What 00_scope section 5 takes from IEEE 754 (log 1): correct rounding, when an operation gives a NaN, the operations
with infinities and zero divisors, and the conversions between integers and binary32.
-/

namespace Sys2Proof.Machine.F32

open Sys2Proof.Claims

/-! ### Correct rounding -/

section nearest
variable {negative : Bool} {num : Int} {den : Nat} (hsign : num ≠ 0 → (negative = true ↔ num < 0))
include hsign

/-- The distance of the rounded value from the exact one is that of their magnitudes. -/
theorem abs_key_round_sub :
    |key (F32.round negative num.natAbs den) * den - num| =
      |((unitsOf (roundMag num.natAbs den) : Int) * den) - num.natAbs| := by
  rw [abs_key_sub_of_sign_eq den (by rwa [sign_round]), units_eq_unitsOf, magnitude_round]

variable (hd : 0 < den)
include hd

/-- Below the overflow threshold the rounded value is the nearest one. A candidate with the sign of the exact value is
compared by its magnitude; one with the other sign is no nearer than 0 is. -/
theorem isNearest_round (hlt : |num| < (2 ^ 25 - 1) * 2 ^ 252 * den) :
    IsNearest (F32.round negative num.natAbs den) num den := by
  have hlt' : num.natAbs < (2 ^ 25 - 1) * 2 ^ 252 * den := by
    rw [Int.abs_eq_natAbs] at hlt; omega
  obtain ⟨hfin, hnear⟩ := roundMag_nearest hd hlt'
  refine ⟨(isFinite_round _ _ _).2 hfin, fun c _ => ?_⟩
  rw [abs_key_round_sub hsign]
  by_cases hc : num ≠ 0 → (sign c = true ↔ num < 0)
  case pos =>
    rw [abs_key_sub_of_sign_eq den hc, units_eq_unitsOf]
    obtain ⟨hle, htie⟩ := hnear (magnitude c)
    refine ⟨hle, fun heq hne => getLsbD_zero_round (htie heq fun hmag => hne ?_)⟩
    have hunits : units c = unitsOf (roundMag num.natAbs den) := by rw [units_eq_unitsOf, hmag]
    by_cases hnum : num = 0
    · subst hnum
      have hzero : units c = 0 := by rw [hunits, Int.natAbs_zero, roundMag_zero hd, unitsOf_zero]
      rw [key_round, ← hunits, key, hzero]
      simp
    · have hsigns : sign c = negative := Bool.eq_iff_iff.2 ((hc hnum).trans (hsign hnum).symm)
      rw [key_round, ← hunits, key, hsigns]
  case neg =>
    obtain ⟨hnum, hother⟩ := Classical.not_imp.1 hc
    rw [abs_key_sub_of_sign_ne den hnum hother]
    obtain ⟨hle, htie⟩ := hnear 0
    have hzero : |((unitsOf 0 : Int) * den) - num.natAbs| = num.natAbs := by simp
    rw [hzero] at hle htie
    have hpos : (0 : Int) ≤ (units c : Int) * den := by positivity
    refine ⟨by omega, fun heq hne => getLsbD_zero_round (htie (by omega) fun hmag => hne ?_)⟩
    have hcden : (units c : Int) * den = 0 := by omega
    have hcunits : units c = 0 := by
      have hden : (den : Int) ≠ 0 := by omega
      exact_mod_cast (mul_eq_zero.1 hcden).resolve_right hden
    rw [key_round, ← hmag, key, hcunits]
    simp

/-- One rounding is correct: to nearest, ties to even, with the sign of the exact value, and to infinity from the
overflow threshold on. -/
theorem rounds_round : Rounds (F32.round negative num.natAbs den) num den := by
  refine ⟨fun hlt => ⟨isNearest_round hsign hd hlt, fun hnum => by rw [sign_round, hsign hnum]⟩, fun hge => ?_⟩
  have hge' : (2 ^ 25 - 1) * 2 ^ 252 * den ≤ num.natAbs := by
    rw [Int.abs_eq_natAbs] at hge; omega
  have hnum : num ≠ 0 := by
    rintro rfl
    have hpos : 0 < (2 ^ 25 - 1) * 2 ^ 252 * den := by positivity
    simp only [Int.natAbs_zero] at hge'
    omega
  rw [F32.round, roundMag_overflow hd hge']
  by_cases hneg : num < 0
  · rw [(hsign hnum).2 hneg, if_pos hneg]; rfl
  · rw [Bool.eq_false_iff.2 fun h => hneg ((hsign hnum).1 h), if_neg hneg]; rfl

end nearest

theorem rounds_add {a b : Word} (ha : isFinite a = true) (hb : isFinite b = true) :
    Rounds (add a b) (key a + key b) 1 := by
  rw [add_eq_round ha hb]
  exact rounds_round (fun hne => by simp [hne]) one_pos

theorem add_of_key_eq_zero {a b : Word} (ha : isFinite a = true) (hb : isFinite b = true)
    (h : key a + key b = 0) : add a b = signedZero (sign a && sign b) := by
  rw [add_eq_round ha hb, h, Int.natAbs_zero, if_pos rfl, F32.round, roundMag_zero one_pos]
  cases sign a && sign b <;> rfl

/-- The sign of a product of keys. -/
theorem bne_sign_iff_of_ne {a b : Word} (h : key a * key b ≠ 0) :
    (sign a != sign b) = true ↔ key a * key b < 0 := by
  have hpos : 0 < (units a : Int) * units b := by
    exact_mod_cast Nat.mul_pos (units_pos_of_key_ne_zero (left_ne_zero_of_mul h))
      (units_pos_of_key_ne_zero (right_ne_zero_of_mul h))
  cases hsa : sign a <;> cases hsb : sign b <;> simp [key, hsa, hsb, hpos, hpos.le]

theorem rounds_mul {a b : Word} (ha : isFinite a = true) (hb : isFinite b = true) :
    Rounds (mul a b) (key a * key b) (2 ^ 149) := by
  have hmag : (key a * key b).natAbs = units a * units b := by rw [Int.natAbs_mul, natAbs_key, natAbs_key]
  rw [mul_eq_round ha hb, ← hmag]
  exact_mod_cast rounds_round bne_sign_iff_of_ne (by positivity : 0 < 2 ^ 149)

theorem sign_mul {a b : Word} (ha : isFinite a = true) (hb : isFinite b = true) :
    sign (mul a b) = (sign a ^^ sign b) := by
  rw [mul_eq_round ha hb, sign_round]

/-- A quotient is rounded correctly whatever the divisor's sign; `num / den` is written with a positive `den`. -/
theorem rounds_div {a b : Word} {num : Int} (ha : isFinite a = true) (hb : isFinite b = true) (hne : key b ≠ 0)
    (hnum : num.natAbs = units a * 2 ^ 149) (hsign : num < 0 ↔ key a * key b < 0) :
    Rounds (div a b) num (units b) := by
  rw [div_eq_round ha hb (isZero_of_key_ne_zero hne), ← hnum]
  refine rounds_round (fun hnz => ?_) (units_pos_of_key_ne_zero hne)
  have hua : key a ≠ 0 := by
    intro h
    have hzero : units a = 0 := by rw [← natAbs_key, h, Int.natAbs_zero]
    rw [hzero, Nat.zero_mul] at hnum
    exact hnz (Int.natAbs_eq_zero.1 hnum)
  rw [hsign, bne_sign_iff_of_ne (mul_ne_zero hua hne)]

theorem sign_div {a b : Word} (ha : isFinite a = true) (hb : isFinite b = true) (hne : key b ≠ 0) :
    sign (div a b) = (sign a ^^ sign b) := by
  rw [div_eq_round ha hb (isZero_of_key_ne_zero hne), sign_round]

/-! ### NaN results -/

theorem isNaN_defaultNaN : isNaN defaultNaN = true := by decide

theorem isNaN_pack_infMagnitude (negative : Bool) : isNaN (pack negative infMagnitude) = false := by
  cases negative <;> decide

theorem isNaN_pack_zero (negative : Bool) : isNaN (pack negative 0) = false := by
  cases negative <;> decide

/-- The result r is the default NaN when the operation has no other result, and else no NaN. -/
def DefaultNaNIff (r : Word) (noResult : Prop) : Prop :=
  noResult ∧ r = defaultNaN ∨ ¬noResult ∧ isNaN r = false

theorem DefaultNaNIff.isNaN_iff {r : Word} {noResult : Prop} (h : DefaultNaNIff r noResult) :
    isNaN r = true ↔ noResult := by
  obtain ⟨hno, rfl⟩ | ⟨hyes, hr⟩ := h
  · exact iff_of_true isNaN_defaultNaN hno
  · exact iff_of_false (by simp [hr]) hyes

theorem DefaultNaNIff.eq {r : Word} {noResult : Prop} (h : DefaultNaNIff r noResult) (hnan : isNaN r = true) :
    r = defaultNaN := by
  obtain ⟨-, hr⟩ | ⟨-, hr⟩ := h
  · exact hr
  · simp [hnan] at hr

/-- A sum has no result of a NaN, and of two infinities of opposite signs. -/
theorem defaultNaNIff_add (a b : Word) : DefaultNaNIff (add a b)
    (isNaN a = true ∨ isNaN b = true ∨ (isInf a = true ∧ isInf b = true ∧ sign a ≠ sign b)) := by
  unfold DefaultNaNIff
  obtain ⟨ha, ha', -⟩ | ⟨ha, ha', -⟩ | ⟨ha, ha', hfa⟩ := class_cases a
  · simp [add, ha]
  · obtain ⟨hb, hb', -⟩ | ⟨hb, hb', -⟩ | ⟨hb, hb', -⟩ := class_cases b
    · simp [add, hb]
    · by_cases hs : sign a = sign b <;> simp [add, ha, ha', hb, hb', hs]
    · simp [add, ha, ha', hb, hb']
  · obtain ⟨hb, hb', -⟩ | ⟨hb, hb', -⟩ | ⟨hb, hb', hfb⟩ := class_cases b
    · simp [add, hb]
    · simp [add, ha, ha', hb, hb']
    · simp [add_eq_round hfa hfb, ha, ha', hb]

theorem defaultNaNIff_sub (a b : Word) : DefaultNaNIff (sub a b)
    (isNaN a = true ∨ isNaN b = true ∨ (isInf a = true ∧ isInf b = true ∧ sign a = sign b)) := by
  have h := defaultNaNIff_add a (neg b)
  rw [isNaN_neg, isInf_neg, sign_neg, Bool.ne_not] at h
  exact h

/-- A product has no result of a NaN, and of a zero and an infinity. -/
theorem defaultNaNIff_mul (a b : Word) : DefaultNaNIff (mul a b)
    (isNaN a = true ∨ isNaN b = true ∨
      (isInf a = true ∧ isZero b = true) ∨ (isZero a = true ∧ isInf b = true)) := by
  unfold DefaultNaNIff mul
  by_cases hnan : isNaN a = true ∨ isNaN b = true
  · obtain h | h := hnan <;> simp [h]
  obtain ⟨ha, hb⟩ := not_or.1 hnan
  by_cases hinv : (isInf a = true ∧ isZero b = true) ∨ (isZero a = true ∧ isInf b = true)
  · simp [ha, hb, hinv]
  · right
    refine ⟨by simp [ha, hb, hinv], ?_⟩
    by_cases hinf : isInf a = true ∨ isInf b = true <;> simp [ha, hb, hinv, hinf, isNaN_pack_infMagnitude]

/-- A quotient has no result of a NaN, of two infinities and of two zeros. -/
theorem defaultNaNIff_div (a b : Word) : DefaultNaNIff (div a b)
    (isNaN a = true ∨ isNaN b = true ∨
      (isInf a = true ∧ isInf b = true) ∨ (isZero a = true ∧ isZero b = true)) := by
  unfold DefaultNaNIff div
  by_cases hnan : isNaN a = true ∨ isNaN b = true
  · obtain h | h := hnan <;> simp [h]
  obtain ⟨ha, hb⟩ := not_or.1 hnan
  by_cases hinv : (isInf a = true ∧ isInf b = true) ∨ (isZero a = true ∧ isZero b = true)
  · simp [ha, hb, hinv]
  · right
    refine ⟨by simp [ha, hb, hinv], ?_⟩
    by_cases hlim : isInf a = true ∨ isZero b = true
    · simp [ha, hb, hinv, hlim, isNaN_pack_infMagnitude]
    · obtain ⟨hia, hzb⟩ := not_or.1 hlim
      by_cases hinf : isInf b = true <;> simp [ha, hb, hia, hzb, hinf, isNaN_pack_zero]

/-! ### Infinities and zero divisors -/

theorem pack_sign_of_isInf {w : Word} (h : isInf w = true) : pack (sign w) infMagnitude = w := by
  rw [← (isInf_iff w).1 h, pack_fields]

theorem infinity_eq_pack (negative : Bool) : infinity negative = pack negative infMagnitude := by
  cases negative <;> rfl

theorem signedZero_eq_pack (negative : Bool) : signedZero negative = pack negative 0 := by
  cases negative <;> rfl

theorem isNaN_of_isInf {w : Word} (h : isInf w = true) : isNaN w = false := by
  obtain ⟨-, hw, -⟩ | ⟨hw, -, -⟩ | ⟨-, hw, -⟩ := class_cases w
  · simp [h] at hw
  · exact hw
  · simp [h] at hw

theorem isZero_of_isInf {w : Word} (h : isInf w = true) : isZero w = false := by
  refine Bool.eq_false_iff.2 fun hzero => ?_
  have hmag : magnitude w = 0 := of_decide_eq_true hzero
  rw [(isInf_iff w).1 h] at hmag
  exact absurd hmag (by decide)

theorem isFinite_of_isZero {w : Word} (h : isZero w = true) : isFinite w = true := by
  have hmag : magnitude w = 0 := of_decide_eq_true h
  rw [isFinite_iff, hmag]
  decide

section limits
variable {a b : Word}

theorem add_of_isInf_left (ha : isInf a = true) (hb : isNaN b = false) (hs : isInf b = true → sign a = sign b) :
    add a b = a := by
  have hvalid : ¬(isInf b = true ∧ sign a ≠ sign b) := fun h => h.2 (hs h.1)
  simpa [add, ha, isNaN_of_isInf ha, hb] using fun hinf hne => absurd (hs hinf) hne

theorem add_of_isInf_right (hb : isInf b = true) (ha : isNaN a = false) (hs : isInf a = true → sign a = sign b) :
    add a b = b := by
  cases hinf : isInf a
  · simp [add, hinf, hb, isNaN_of_isInf hb, ha]
  · have heq : a = b := by rw [← pack_sign_of_isInf hinf, ← pack_sign_of_isInf hb, hs hinf]
    rw [add_of_isInf_left hinf (isNaN_of_isInf hb) fun _ => hs hinf, heq]

theorem mul_of_isInf (hinf : isInf a = true ∨ isInf b = true) (ha : isNaN a = false) (hb : isNaN b = false)
    (hza : isZero a = false) (hzb : isZero b = false) : mul a b = infinity (sign a ^^ sign b) := by
  rw [infinity_eq_pack]
  simp [mul, ha, hb, hza, hzb, hinf]

theorem div_of_isInf_left (ha : isInf a = true) (hb : isFinite b = true) :
    div a b = infinity (sign a ^^ sign b) := by
  rw [infinity_eq_pack]
  simp [div, ha, isNaN_of_isInf ha, isZero_of_isInf ha, isNaN_of_isFinite hb, isInf_of_isFinite hb]

theorem div_of_isZero_right (ha : isFinite a = true) (hza : isZero a = false) (hb : isZero b = true) :
    div a b = infinity (sign a ^^ sign b) := by
  have hfb := isFinite_of_isZero hb
  rw [infinity_eq_pack]
  simp [div, hb, hza, isNaN_of_isFinite ha, isInf_of_isFinite ha, isNaN_of_isFinite hfb]

theorem div_of_isInf_right (ha : isFinite a = true) (hb : isInf b = true) :
    div a b = signedZero (sign a ^^ sign b) := by
  rw [signedZero_eq_pack]
  simp [div, hb, isNaN_of_isInf hb, isZero_of_isInf hb, isNaN_of_isFinite ha, isInf_of_isFinite ha]

end limits

end Sys2Proof.Machine.F32

namespace Sys2Proof.Proofs

open Sys2Proof.Machine Sys2Proof.Machine.F32

/-- Settles O47: a difference is the sum with the sign of b inverted. -/
theorem sumsAreCorrectlyRounded : Obligations.SumsAreCorrectlyRounded := by
  intro a b ha hb
  have hb' : isFinite (neg b) = true := by rwa [isFinite_neg]
  have hkey : key a - key b = key a + key (neg b) := by rw [key_neg, Int.sub_eq_add_neg]
  rw [hkey]
  refine ⟨rounds_add ha hb, add_of_key_eq_zero ha hb, rounds_add ha hb', fun hzero => ?_⟩
  rw [sub, add_of_key_eq_zero ha hb' hzero, sign_neg]

/-- Settles O48: a quotient's exact value is written over the divisor's magnitude. -/
theorem productsAndQuotientsAreCorrectlyRounded : Obligations.ProductsAndQuotientsAreCorrectlyRounded := by
  intro a b ha hb
  have hmag : (key a * 2 ^ 149).natAbs = units a * 2 ^ 149 := by rw [Int.natAbs_mul, natAbs_key]; rfl
  refine ⟨rounds_mul ha hb, sign_mul ha hb, fun hpos => ?positive, fun hneg => ?negative, sign_div ha hb⟩
  case positive =>
    have hden : (units b : Int) = key b := by have := natAbs_key b; omega
    rw [← hden]
    refine rounds_div ha hb hpos.ne' hmag ?_
    simp [mul_neg_iff, hpos, hpos.not_gt]
  case negative =>
    have hden : (units b : Int) = -key b := by have := natAbs_key b; omega
    rw [← hden]
    refine rounds_div ha hb hneg.ne (by rw [Int.natAbs_neg, hmag]) ?_
    simp [mul_neg_iff, hneg, hneg.not_gt]

/-- Settles O49: each operation's invalid cases, one by one. -/
theorem nanResultsAreTheDefaultNaN : Obligations.NaNResultsAreTheDefaultNaN := by
  refine ⟨fun a b r hr hnan => ?_, fun a b => ⟨(defaultNaNIff_add a b).isNaN_iff, (defaultNaNIff_sub a b).isNaN_iff,
    (defaultNaNIff_mul a b).isNaN_iff, (defaultNaNIff_div a b).isNaN_iff⟩⟩
  simp only [List.mem_cons, List.not_mem_nil, or_false] at hr
  obtain rfl | rfl | rfl | rfl := hr
  · exact (defaultNaNIff_add a b).eq hnan
  · exact (defaultNaNIff_sub a b).eq hnan
  · exact (defaultNaNIff_mul a b).eq hnan
  · exact (defaultNaNIff_div a b).eq hnan

/-- Settles O51. -/
theorem integerConversionsAreExact : Obligations.IntegerConversionsAreExact := by
  refine ⟨fun n hn => ofInt_exact hn, fun x _ => ?_⟩
  obtain ⟨hfloor, hfloor'⟩ := floor_bounds x
  exact ⟨hfloor, hfloor', rnd_bounds x⟩

/-- Settles O55: a difference is the sum with the sign of b inverted, and an infinity's inverse is the other one. -/
theorem infinitiesAndZeroDivisorsGiveTheirLimits : Obligations.InfinitiesAndZeroDivisorsGiveTheirLimits := by
  intro a b
  refine ⟨add_of_isInf_left, fun hb ha hs => add_of_isInf_right hb ha hs, fun ha hb hs => ?subLeft,
    fun hb ha hs => ?subRight, fun ha hb hzb => ?mulLeft, fun hb ha hza => ?mulRight, div_of_isInf_left,
    div_of_isZero_right, div_of_isInf_right⟩
  case subLeft =>
    exact add_of_isInf_left ha (by rwa [isNaN_neg]) fun hinf => by
      rw [isInf_neg] at hinf; rw [sign_neg, Bool.eq_not]; exact hs hinf
  case subRight =>
    have hb' : isInf (neg b) = true := by rwa [isInf_neg]
    have hsub : sub a b = neg b := add_of_isInf_right hb' ha fun hinf => by
      rw [sign_neg, Bool.eq_not]; exact hs hinf
    rw [hsub, infinity_eq_pack, ← sign_neg, pack_sign_of_isInf hb']
  case mulLeft => exact mul_of_isInf (.inl ha) (isNaN_of_isInf ha) hb (isZero_of_isInf ha) hzb
  case mulRight => exact mul_of_isInf (.inr hb) ha (isNaN_of_isInf hb) hza (isZero_of_isInf hb)

end Sys2Proof.Proofs
end

section
/-!
Values in an interval from +0.0: read off sign, finiteness and key; the whole and the fractional part of such a value;
and from these the phase, the delay length and the reads at a whole-sample delay (42_modulation_bank, 43_delay_reader).
-/

namespace Sys2Proof.Machine

namespace F32

@[simp] theorem key_zero : key zero = 0 := by decide

@[simp] theorem key_one : key one = 2 ^ 149 := by decide +kernel

@[simp] theorem key_minusOne : key minusOne = -2 ^ 149 := by decide +kernel

@[simp] theorem key_half : key half = 2 ^ 148 := by decide +kernel

/-! ### Intervals from +0.0 -/

theorem isFinite_of_key_le {x hi : Word} (hx : sign x = false) (hhi : isFinite hi = true) (h : key x ≤ key hi) :
    isFinite x = true := by
  rw [isFinite_iff_units] at hhi ⊢
  have hkey := key_of_sign_false hx
  have hunits := natAbs_key hi
  omega

end F32

theorem inClosed_iff {x hi : Word} (hhi : F32.isFinite hi = true) :
    InClosed x hi ↔ F32.isFinite x = true ∧ F32.sign x = false ∧ F32.key x ≤ F32.key hi := by
  have hnan := F32.isNaN_of_isFinite hhi
  refine ⟨fun ⟨hlo, hle, hne⟩ => ?_, fun ⟨hfin, hsign, hkey⟩ => ⟨?_, ?_, F32.ne_negZero_of_sign hsign⟩⟩
  · obtain ⟨-, -, hpos⟩ := (F32.le_iff _ _).1 hlo
    obtain ⟨-, -, hkey⟩ := (F32.le_iff _ _).1 hle
    have hsign := F32.sign_of_key_nonneg (by rwa [F32.key_zero] at hpos) hne
    exact ⟨F32.isFinite_of_key_le hsign hhi hkey, hsign, hkey⟩
  · refine (F32.le_iff _ _).2 ⟨by decide, F32.isNaN_of_isFinite hfin, ?_⟩
    rw [F32.key_zero, F32.key_of_sign_false hsign]
    exact Int.natCast_nonneg _
  · exact (F32.le_iff _ _).2 ⟨F32.isNaN_of_isFinite hfin, hnan, hkey⟩

theorem inHalfOpen_iff {x hi : Word} (hhi : F32.isFinite hi = true) :
    InHalfOpen x hi ↔ F32.isFinite x = true ∧ F32.sign x = false ∧ F32.key x < F32.key hi := by
  constructor
  · rintro ⟨hlo, hlt, hne⟩
    obtain ⟨hfin, hsign, -⟩ := (inClosed_iff hhi).1 ⟨hlo, F32.le_of_lt hlt, hne⟩
    obtain ⟨-, -, hkey⟩ := (F32.lt_iff _ _).1 hlt
    exact ⟨hfin, hsign, hkey⟩
  · rintro ⟨hfin, hsign, hkey⟩
    obtain ⟨hlo, -, hne⟩ := (inClosed_iff hhi).2 ⟨hfin, hsign, hkey.le⟩
    exact ⟨hlo, (F32.lt_iff _ _).2 ⟨F32.isNaN_of_isFinite hfin, F32.isNaN_of_isFinite hhi, hkey⟩, hne⟩

namespace F32

/-! ### Sums of values that are not negative -/

theorem sign_add_of_nonneg {a b : Word} (ha : isFinite a = true) (hb : isFinite b = true) (hsa : sign a = false)
    (h : 0 ≤ key a + key b) : sign (add a b) = false := by
  rw [add_eq_round ha hb, sign_round, hsa]
  split
  · rfl
  · simp [h]

/-- Rounding a sum does not cross a finite value c. -/
theorem key_add_le {a b c : Word} (ha : isFinite a = true) (hb : isFinite b = true) (hc : isFinite c = true)
    (hnonneg : 0 ≤ key a + key b) (h : key a + key b ≤ key c) :
    isFinite (add a b) = true ∧ key (add a b) ≤ key c := by
  have hsc : key c = unitsOf (magnitude c) := by
    have hunits := natAbs_key c
    rw [← units_eq_unitsOf]
    omega
  have hround : roundMag (key a + key b).natAbs 1 ≤ magnitude c :=
    roundMag_le_of_le one_pos ((isFinite_iff c).1 hc) (by omega)
  have hunits : unitsOf (roundMag (key a + key b).natAbs 1) ≤ unitsOf (magnitude c) :=
    unitsOf_strictMono.monotone hround
  rw [add_eq_round ha hb]
  refine ⟨(isFinite_round _ _ _).2 (hround.trans_lt ((isFinite_iff c).1 hc)), ?_⟩
  rw [key_round, hsc]
  split <;> omega

/-! ### The whole and the fractional part -/

/-- The difference of a value and its whole part is exact, and has the positive sign (R203, R233). -/
theorem sub_wholePart {x b : Word} (hx : isFinite x = true) (hsx : sign x = false) (hb : isFinite b = true)
    (hkey : key b = floor x * 2 ^ 149) :
    isFinite (sub x b) = true ∧ sign (sub x b) = false ∧ key (sub x b) = key x - floor x * 2 ^ 149 := by
  have hb' : isFinite (neg b) = true := by rwa [isFinite_neg]
  have hsum : key x + key (neg b) = ((units x % 2 ^ 149 : Nat) : Int) := by
    rw [key_neg, hkey, floor, key_of_sign_false hsx]
    omega
  have hrep : Representable (key x + key (neg b)).natAbs := by
    rw [hsum, Int.natAbs_natCast]; exact representable_units_mod x
  obtain ⟨hfin, hexact⟩ := add_exact hx hb' hrep
  refine ⟨hfin, sign_add_of_nonneg hx hb' hsx (by rw [hsum]; exact Int.natCast_nonneg _), ?_⟩
  rw [sub, hexact, key_neg, hkey, Int.sub_eq_add_neg]

end F32

/-- The fractional part lies in [0, 1). -/
theorem inHalfOpen_sub_wholePart {x b : Word} (hx : F32.isFinite x = true) (hsx : F32.sign x = false)
    (hb : F32.isFinite b = true) (hkey : F32.key b = F32.floor x * 2 ^ 149) : InHalfOpen (F32.sub x b) F32.one := by
  obtain ⟨hfin, hsign, hdiff⟩ := F32.sub_wholePart hx hsx hb hkey
  obtain ⟨-, hlt⟩ := F32.floor_bounds x
  refine (inHalfOpen_iff (by decide)).2 ⟨hfin, hsign, ?_⟩
  rw [hdiff, F32.key_one]
  omega

/-! ### The phase (R203) -/

theorem inClosed_phaseIncrement (fs : Word) (l : Line) : InClosed (phaseIncrement fs l) F32.half :=
  clamp_zero_inClosed _ (F32.le_of_lt F32.zero_lt_half) (by decide)

/-- The advance keeps the phase in one cycle: the sum is at most 1.5, and from 1.0 on its whole part is 1. -/
theorem inHalfOpen_oscAdvance (fs : Word) {l : Line} (h : InHalfOpen l.phase F32.one) :
    InHalfOpen (oscAdvance fs l) F32.one := by
  obtain ⟨hfin, hsign, hlt⟩ := (inHalfOpen_iff (by decide)).1 h
  obtain ⟨hfinc, hsinc, hle⟩ := (inClosed_iff (by decide)).1 (inClosed_phaseIncrement fs l)
  have hkey := F32.key_of_sign_false hsign
  have hkinc := F32.key_of_sign_false hsinc
  have hnonneg : 0 ≤ F32.key l.phase + F32.key (phaseIncrement fs l) := by omega
  have hmax : F32.key 0x3FC00000#32 = 3 * 2 ^ 148 := by decide +kernel
  rw [F32.key_one] at hlt
  rw [F32.key_half] at hle
  obtain ⟨hfp, hp⟩ := F32.key_add_le hfin hfinc (c := 0x3FC00000#32) (by decide) hnonneg (by rw [hmax]; omega)
  have hsp := F32.sign_add_of_nonneg hfin hfinc hsign hnonneg
  rw [hmax] at hp
  simp only [oscAdvance]
  split
  · next hge =>
    obtain ⟨-, -, hone⟩ := (F32.le_iff _ _).1 hge
    rw [F32.key_one] at hone
    have hfloor : F32.floor (F32.add l.phase (phaseIncrement fs l)) = 1 := by unfold F32.floor; omega
    exact inHalfOpen_sub_wholePart hfp hsp (by decide) (by rw [hfloor, F32.key_one, Int.one_mul])
  · next hge =>
    refine (inHalfOpen_iff (by decide)).2 ⟨hfp, hsp, Int.not_le.1 fun hkey => hge ?_⟩
    exact (F32.le_iff _ _).2 ⟨by decide, F32.isNaN_of_isFinite hfp, hkey⟩

/-! ### The delay length (R223) -/

section capacity
variable {cap : Nat} (hlo : 2 ≤ cap) (hhi : cap ≤ 2 ^ 24)
include hlo hhi

/-- C_d − 1 as a binary32 value is exact and positive. -/
theorem ofInt_cap_sub_one :
    F32.isFinite (F32.ofInt ((cap : Int) - 1)) = true ∧
    F32.key (F32.ofInt ((cap : Int) - 1)) = ((cap : Int) - 1) * 2 ^ 149 ∧
    F32.sign (F32.ofInt ((cap : Int) - 1)) = false := by
  obtain ⟨hfin, hkey⟩ := F32.ofInt_exact (n := (cap : Int) - 1) (by rw [abs_of_nonneg] <;> omega)
  exact ⟨hfin, hkey, F32.sign_of_key_pos (by rw [hkey]; omega)⟩

/-- A value in [0, C_d − 1] is finite and of positive sign, and its key lies between those of the bounds. -/
theorem bounds_of_inClosed_cap {x : Word} (h : InClosed x (F32.ofInt ((cap : Int) - 1))) :
    F32.isFinite x = true ∧ F32.sign x = false ∧ 0 ≤ F32.key x ∧ F32.key x ≤ ((cap : Int) - 1) * 2 ^ 149 := by
  obtain ⟨hfin, hkey, -⟩ := ofInt_cap_sub_one hlo hhi
  obtain ⟨hfx, hsx, hle⟩ := (inClosed_iff hfin).1 h
  rw [hkey] at hle
  exact ⟨hfx, hsx, by rw [F32.key_of_sign_false hsx]; exact Int.natCast_nonneg _, hle⟩

/-- The whole part of a value in [0, C_d − 1] is exact in binary32. -/
theorem ofInt_floor_exact {x : Word} (h : InClosed x (F32.ofInt ((cap : Int) - 1))) :
    F32.isFinite (F32.ofInt (F32.floor x)) = true ∧
    F32.key (F32.ofInt (F32.floor x)) = F32.floor x * 2 ^ 149 := by
  obtain ⟨-, -, hnonneg, hle⟩ := bounds_of_inClosed_cap hlo hhi h
  refine F32.ofInt_exact ?_
  unfold F32.floor
  rw [abs_of_nonneg] <;> omega

/-- The fraction of a delay length is exact (R233). -/
theorem fraction_exact {x : Word} (h : InClosed x (F32.ofInt ((cap : Int) - 1))) :
    F32.key (F32.sub x (F32.ofInt (F32.floor x))) = F32.key x - F32.floor x * 2 ^ 149 ∧
    InHalfOpen (F32.sub x (F32.ofInt (F32.floor x))) F32.one := by
  obtain ⟨hfx, hsx, -, -⟩ := bounds_of_inClosed_cap hlo hhi h
  obtain ⟨hfin, hkey⟩ := ofInt_floor_exact hlo hhi h
  obtain ⟨-, -, hexact⟩ := F32.sub_wholePart hfx hsx hfin hkey
  exact ⟨hexact, inHalfOpen_sub_wholePart hfx hsx hfin hkey⟩

end capacity

/-- The delay length of a STEP is clamped into [0, C_d − 1], whatever the parameters hold (R223). -/
theorem inClosed_stepDelay (fs : Word) {l : Line} (hlo : 2 ≤ l.cap) (hhi : l.cap ≤ 2 ^ 24) :
    InClosed (stepDelay fs l) (F32.ofInt ((l.cap : Int) - 1)) := by
  obtain ⟨hfin, hkey, hsign⟩ := ofInt_cap_sub_one hlo hhi
  refine clamp_zero_inClosed _ ?_ (F32.ne_negZero_of_sign hsign)
  exact (F32.le_iff _ _).2 ⟨by decide, F32.isNaN_of_isFinite hfin, by rw [hkey, F32.key_zero]; omega⟩

theorem bufIndex_lt {l : Line} (h : 0 < l.cap) (k : Int) : bufIndex l k < l.cap := by
  have hpos : (0 : Int) < l.cap := by omega
  have hnonneg := Int.emod_nonneg ((l.wptr : Int) - k) hpos.ne'
  have hlt := Int.emod_lt_of_pos ((l.wptr : Int) - k) hpos
  unfold bufIndex
  omega

/-! ### The reads at a whole-sample delay (R228, R229) -/

namespace F32

theorem numEq_of_key_eq {a b : Word} (ha : isFinite a = true) (hb : isFinite b = true) (h : key a = key b) :
    numEq a b = true := by
  simp [numEq, isNaN_of_isFinite ha, isNaN_of_isFinite hb, h]

theorem zero_add_exact {z a : Word} (hz : isFinite z = true) (ha : isFinite a = true) (hzero : key z = 0) :
    isFinite (add z a) = true ∧ key (add z a) = key a := by
  have hsum : key z + key a = key a := by rw [hzero, Int.zero_add]
  have hexact := add_exact hz ha (by rw [hsum, natAbs_key]; exact representable_units ha)
  rwa [hsum] at hexact

theorem sub_zero_exact {a z : Word} (ha : isFinite a = true) (hz : isFinite z = true) (hzero : key z = 0) :
    isFinite (sub a z) = true ∧ key (sub a z) = key a :=
  add_zero_exact ha (by rwa [isFinite_neg]) (by rw [key_neg, hzero, Int.neg_zero])

theorem zero_mul_exact {z a : Word} (hz : isFinite z = true) (ha : isFinite a = true) (hzero : key z = 0) :
    isFinite (mul z a) = true ∧ key (mul z a) = 0 := by
  have hcomm : mul z a = mul a z := by
    rw [mul_eq_round hz ha, mul_eq_round ha hz, Nat.mul_comm, bne_comm]
  rw [hcomm]
  exact mul_zero_exact ha hz hzero

end F32

theorem bufBack_eq_old (l : Line) (k : Int) : bufBack l k = Claims.old l k := rfl

/-- A LINEAR read with a zero fraction is the word i STEPs old, where the difference to the next is finite. -/
theorem readLinear_of_fraction_zero {l : Line} {ds : Word}
    (hf : F32.isFinite (F32.sub ds (F32.ofInt (F32.floor ds))) = true)
    (hzero : F32.key (F32.sub ds (F32.ofInt (F32.floor ds))) = 0)
    (ha : F32.isFinite (bufBack l (F32.floor ds)) = true)
    (hdiff : F32.isFinite (F32.sub (bufBack l (F32.floor ds + 1)) (bufBack l (F32.floor ds))) = true) :
    F32.numEq (readLinear l ds) (bufBack l (F32.floor ds)) = true := by
  obtain ⟨hfin, hkey⟩ := F32.mul_zero_exact hdiff hf hzero
  obtain ⟨hfin', hkey'⟩ := F32.add_zero_exact ha hfin hkey
  exact F32.numEq_of_key_eq hfin' ha hkey'

/-- The all-pass coefficient of the fraction 1.0 is +0.0. -/
theorem allpass_coefficient_one : F32.div (F32.sub F32.one F32.one) (F32.add F32.one F32.one) = F32.zero := by
  decide +kernel

/-- With the fraction 1.0 the all-pass is the older of its two words, where what it multiplies by 0 is finite. -/
theorem allpassAt_one {l : Line} {i : Int} (ha : F32.isFinite (bufBack l i) = true)
    (hb : F32.isFinite (bufBack l (i + 1)) = true) (hlast : F32.isFinite l.lastrd = true) :
    F32.numEq (allpassAt l i F32.one) (bufBack l (i + 1)) = true := by
  obtain ⟨hfa, hka⟩ := F32.zero_mul_exact (z := F32.zero) (by decide) ha F32.key_zero
  obtain ⟨hfl, hkl⟩ := F32.zero_mul_exact (z := F32.zero) (by decide) hlast F32.key_zero
  obtain ⟨hfs, hks⟩ := F32.zero_add_exact hfa hb hka
  obtain ⟨hfd, hkd⟩ := F32.sub_zero_exact hfs hfl hkl
  simp only [allpassAt, allpass_coefficient_one]
  exact F32.numEq_of_key_eq hfd hb (hkd.trans hks)

theorem readAllpass_of_fraction_zero {l : Line} {ds : Word}
    (hf : F32.isFinite (F32.sub ds (F32.ofInt (F32.floor ds))) = true)
    (hzero : F32.key (F32.sub ds (F32.ofInt (F32.floor ds))) = 0) :
    readAllpass l ds = allpassAt l (F32.floor ds - 1) F32.one :=
  if_pos (F32.numEq_of_key_eq hf (by decide) (by rw [hzero, F32.key_zero]))

/-! ### The sine (R14) -/

/-- A value between two bounds that are not zero is its own clamp. -/
theorem clamp_of_between {x lo hi : Word} (hlo : F32.le lo x = true) (hhi : F32.le x hi = true)
    (hlo0 : F32.key lo ≠ 0) (hhi0 : F32.key hi ≠ 0) : F32.clamp x lo hi = x := by
  obtain ⟨hnlo, hnx, hle⟩ := (F32.le_iff _ _).1 hlo
  obtain ⟨-, hnhi, hle'⟩ := (F32.le_iff _ _).1 hhi
  obtain ⟨-, -, heq⟩ | ⟨-, hlt, heq⟩ | ⟨hgt, heq⟩ := clamp_cases x lo hi <;> rw [heq]
  case inr.inl =>
    obtain ⟨-, -, hge⟩ := (F32.le_iff _ _).1 (F32.le_of_not_lt hnhi hnx hlt)
    exact F32.eq_of_key_eq (le_antisymm hge hle') hhi0
  case inr.inr =>
    obtain ⟨-, -, hge⟩ := (F32.le_iff _ _).1 (F32.le_of_not_lt hnx hnlo hgt)
    exact F32.eq_of_key_eq (le_antisymm hle hge) hlo0

/-- A value in [−1, 1] is finite. -/
theorem isFinite_of_between_ones {x : Word} (hlo : F32.le F32.minusOne x = true) (hhi : F32.le x F32.one = true) :
    F32.isFinite x = true := by
  obtain ⟨-, -, hle⟩ := (F32.le_iff _ _).1 hlo
  obtain ⟨-, -, hle'⟩ := (F32.le_iff _ _).1 hhi
  rw [F32.key_minusOne] at hle
  rw [F32.key_one] at hle'
  have hunits : F32.units x ≤ 2 ^ 149 := by rw [← F32.natAbs_key]; omega
  exact (F32.isFinite_iff_units x).2 (hunits.trans_lt (F32.two_pow_lt_of_lt (by decide)))

/-- What `sinOf` makes of any raw function has S1 to S3. -/
theorem isSine_sinOf (raw : Word → Word) : Claims.IsSine (sinOf raw) := by
  refine ⟨if_pos rfl, fun x hx => ?finite, fun x hx => ?other⟩
  case finite =>
    by_cases hzero : x = F32.zero
    · have hsin : sinOf raw x = F32.zero := if_pos hzero
      rw [hsin]
      decide +kernel
    · have hsin : sinOf raw x = F32.clamp (raw x) F32.minusOne F32.one := (if_neg hzero).trans (if_pos hx)
      obtain ⟨hlo, hhi⟩ := clamp_between (raw x) (lo := F32.minusOne) (hi := F32.one) (by decide +kernel)
      rw [hsin]
      exact ⟨isFinite_of_between_ones hlo hhi, hlo, hhi⟩
  case other =>
    have hzero : x ≠ F32.zero := by rintro rfl; exact absurd hx (by decide)
    simp only [sinOf, if_neg hzero, hx, Bool.false_eq_true, if_false]
    split
    · assumption
    · decide

/-- A function with S1 to S3 is left as it is. -/
theorem sinOf_eq_of_isSine {f : Word → Word} (h : Claims.IsSine f) (x : Word) : sinOf f x = f x := by
  obtain ⟨hzero, hfinite, hother⟩ := h
  unfold sinOf
  split
  · next hx => rw [hx]; exact hzero.symm
  split
  · next hx =>
    obtain ⟨-, hlo, hhi⟩ := hfinite x hx
    exact clamp_of_between hlo hhi (by simp) (by simp)
  · next hx => rw [if_pos (hother x (Bool.eq_false_iff.2 hx))]

end Sys2Proof.Machine

namespace Sys2Proof.Proofs

open Sys2Proof.Machine

/-- Settles O35 (R14). -/
theorem sineHasItsThreeProperties : Obligations.SineHasItsThreeProperties :=
  ⟨isSine_sinOf Config.sinRaw, fun _ hf => sinOf_eq_of_isSine hf⟩

/-- Settles O37 (R203, R206). -/
theorem phaseStaysInOneCycle : Obligations.PhaseStaysInOneCycle := by
  intro s t hphase hstep l hl
  cases hstep
  obtain ⟨l, hmem, rfl⟩ := List.mem_map.1 hl
  exact inHalfOpen_oscAdvance s.fs (hphase l hmem)

/-- Settles O38 (R223): the clamp, and C_d − 1 is exact in binary32. -/
theorem delayStaysBelowCapacity : Obligations.DelayStaysBelowCapacity := by
  intro s t hcap hstep l hl
  cases hstep
  obtain ⟨l, hmem, rfl⟩ := List.mem_map.1 hl
  obtain ⟨hlo, hhi⟩ := hcap l hmem
  have hclosed := inClosed_stepDelay s.fs hlo hhi
  obtain ⟨hfin, -, -, hle⟩ := bounds_of_inClosed_cap hlo hhi hclosed
  refine ⟨hclosed, hfin, ?_⟩
  rw [stepLine_delay, stepLine_cap]
  omega

/-- Settles O39 (R225, R232): every index is a remainder, and floor and rnd do not leave [0, C_d − 1]. -/
theorem bufferIndicesAreInRange : Obligations.BufferIndicesAreInRange := by
  intro fs l hlo hhi
  obtain ⟨-, -, hnonneg, hle⟩ := bounds_of_inClosed_cap hlo hhi (inClosed_stepDelay fs hlo hhi)
  refine ⟨bufIndex_lt (by omega), ?_⟩
  unfold F32.floor F32.rnd
  omega

/-- Settles O40 (R233). -/
theorem fractionIsExact : Obligations.FractionIsExact := fun _ _ hlo hhi h => fraction_exact hlo hhi h

/-- Settles O43 (R228, R229): the fraction is a zero, so LINEAR multiplies the difference by 0, and ALLPASS takes the
fraction 1.0 with the coefficient 0. -/
theorem wholeSampleDelaysReadOneWord : Obligations.WholeSampleDelaysReadOneWord := by
  intro l cap ds hlo hhi hclosed hwhole
  obtain ⟨hexact, hhalf⟩ := fraction_exact hlo hhi hclosed
  obtain ⟨hfin, -, -⟩ := (inHalfOpen_iff (by decide)).1 hhalf
  have hzero : F32.key (F32.sub ds (F32.ofInt (F32.floor ds))) = 0 := by rw [hexact, hwhole, Int.sub_self]
  refine ⟨readLinear_of_fraction_zero hfin hzero, fun ha hb hlast => ?_⟩
  have hsucc : F32.floor ds - 1 + 1 = F32.floor ds := Int.sub_add_cancel ..
  have hone := allpassAt_one (l := l) (i := F32.floor ds - 1) ha (by rwa [hsucc]) hlast
  rwa [hsucc, ← readAllpass_of_fraction_zero hfin hzero] at hone

end Sys2Proof.Proofs
end

section
/-!
What an instruction does, said once: a line write and a line read as functions of the state, the effect of every
instruction, and what each effect leaves of the configuration. The access matrix, the errors and the invariants are read
off from these.
-/

namespace Sys2Proof.Machine

open Sys2Proof.Claims

/-! ### Staging updates -/

/-- A staging write's update of its line: it changes staging registers only, repeating it changes nothing, and a STEP of
the line commutes with it. -/
structure IsStagingUpdate (f : Line → Line) : Prop where
  clear : ∀ l, clearLineStaging (f l) = clearLineStaging l
  idem : ∀ l, f (f l) = f l
  comm : ∀ fs inL inR l, stepLine fs inL inR (f l) = f (stepLine fs inL inR l)

/-- Whatever does not look at the staging registers is kept. -/
theorem IsStagingUpdate.keeps {f : Line → Line} (hf : IsStagingUpdate f) {α : Sort*} (g : Line → α)
    (hg : ∀ l, g (clearLineStaging l) = g l) (l : Line) : g (f l) = g l := by
  rw [← hg, hf.clear, hg]

/-- An update that keeps g of each line keeps the list of them. -/
theorem map_modify_of_keeps {α : Type} {f : Line → Line} {g : Line → α} (h : ∀ l, g (f l) = g l) (d : Nat)
    (lines : List Line) : (lines.modify d f).map g = lines.map g := by
  apply List.ext_getElem?
  intro k
  rw [List.getElem?_map, List.getElem?_map, getElem?_modify_lines]
  split
  · cases lines[k]? <;> simp [h]
  · rfl

theorem modify_eq_set {lines : List Line} {d : Nat} {l : Line} (h : lines[d]? = some l) (f : Line → Line) :
    lines.modify d f = lines.set d (f l) := by
  apply List.ext_getElem?
  intro k
  rw [getElem?_modify_lines, List.getElem?_set]
  split
  · next hk =>
    subst hk
    obtain ⟨hlt, -⟩ := List.getElem?_eq_some_iff.1 h
    rw [h, if_pos hlt]; rfl
  · rfl

/-! ### Line writes and line reads -/

/-- A write to line d at address a with the given update; `none` is a reserved code (R99, R137 to R142). -/
def lineWrite (a : Addr) (d : LineIx) (update : Option (Line → Line)) (s : State) : State :=
  if d.toNat < s.lines.length then
    match update with
    | some f => setPend { s with lines := s.lines.modify d.toNat f }
    | none => raiseError .efield true a s
  else raiseError .eaddr true a s

/-- A line write either updates the staging registers of its line, or records one error with its own address. -/
theorem lineWrite_cases (a : Addr) (d : LineIx) (update : Option (Line → Line)) (s : State) :
    (∃ f, update = some f ∧ d.toNat < s.lines.length ∧
      lineWrite a d update s = setPend { s with lines := s.lines.modify d.toNat f }) ∨
    (update = none ∧ d.toNat < s.lines.length ∧ lineWrite a d update s = raiseError .efield true a s) ∨
    (s.lines.length ≤ d.toNat ∧ lineWrite a d update s = raiseError .eaddr true a s) := by
  by_cases hd : d.toNat < s.lines.length
  · cases update with
    | some f => exact .inl ⟨f, rfl, hd, if_pos hd⟩
    | none => exact .inr (.inl ⟨rfl, hd, if_pos hd⟩)
  · exact .inr (.inr ⟨Nat.not_lt.1 hd, if_neg hd⟩)

theorem execWrCfgStg_eq_lineWrite (d : LineIx) (data : Word) (s : State) :
    execWrCfgStg d data s =
      .next (lineWrite (lineAddr d 0x05#5) d ((cfgOfData data).map fun c l => { l with cfgStg := c }) s) := by
  unfold execWrCfgStg lineWrite
  cases cfgOfData data <;> rfl

theorem exists_lineWrite_of_writeLineReg {i : Instr} {d : LineIx} {off : BitVec 5} {f : Line → Line}
    (haddr : txnAddr (encode i) = lineAddr d off) (hexec : ∀ s, exec i s = .next (writeLineReg off d f s))
    (hf : IsStagingUpdate f) :
    ∃ update, (∀ f ∈ update, IsStagingUpdate f) ∧ (update = none → i.dataOk = false) ∧
      ∀ s, exec i s = .next (lineWrite (txnAddr (encode i)) d update s) := by
  refine ⟨some f, ?_, fun h => absurd h (Option.some_ne_none f), fun s => ?_⟩
  · rintro _ ⟨⟩
    exact hf
  · rw [haddr]
    exact hexec s

/-- Every line write is a `lineWrite`, the same in every state, and refuses only data with a reserved code. -/
theorem exec_lineWrite {i : Instr} {d : LineIx} (hline : i.line? = some d) (hwrite : txnWrite (encode i) = true) :
    ∃ update, (∀ f ∈ update, IsStagingUpdate f) ∧ (update = none → i.dataOk = false) ∧
      ∀ s, exec i s = .next (lineWrite (txnAddr (encode i)) d update s) := by
  cases i with
  | wrBaseStg d' data | wrDepthStg d' data | wrFreqStg d' data | wrFbStg d' data | wrLevelStg d' data =>
    cases hline
    exact exists_lineWrite_of_writeLineReg (txnAddr_packTxn _ _ _) (fun s => rfl)
      ⟨fun _ => rfl, fun _ => rfl, fun _ _ _ _ => rfl⟩
  | wrCfgStg d' data =>
    cases hline
    refine ⟨(cfgOfData data).map fun c l => { l with cfgStg := c }, fun f hf => ?_, fun hnone => ?_, fun s => ?_⟩
    · obtain ⟨c, -, rfl⟩ := Option.map_eq_some_iff.1 hf
      exact ⟨fun _ => rfl, fun _ => rfl, fun _ _ _ _ => rfl⟩
    · refine Bool.eq_false_iff.2 fun hok => ?_
      simp only [Instr.dataOk, cfgDataLegal, Bool.and_eq_true, decide_eq_true_eq] at hok
      obtain ⟨hroute, hinterp⟩ := hok
      obtain ⟨c, hc, -⟩ := cfgOfData_legal hroute hinterp
      simp [hc] at hnone
    · rw [encode, encodeLineWrite, txnAddr_packTxn]
      exact execWrCfgStg_eq_lineWrite d data s
  | nop | step | commit | reset | wrStatus | wrInL | wrInR | wrMixStg => cases hline
  | rdCmd | rdStatus | rdErraddr | rdFs | rdNlines | rdFrames | rdInL | rdInR | rdOutL | rdOutR | rdMixStg | rdMix =>
    cases hline
  | _ => rw [encode, encodeLineRead, txnWrite_packTxn] at hwrite; cases hwrite

/-- Every line read is a `readLineReg` of its own offset, the same in every state. -/
theorem exec_lineRead {i : Instr} {d : LineIx} (hline : i.line? = some d) (hread : txnWrite (encode i) = false) :
    ∃ off value, txnAddr (encode i) = lineAddr d off ∧ ∀ s, exec i s = .next (readLineReg off d value s) := by
  cases i with
  | wrBaseStg d' data | wrDepthStg d' data | wrFreqStg d' data | wrFbStg d' data | wrLevelStg d' data
  | wrCfgStg d' data =>
    rw [encode, encodeLineWrite, txnWrite_packTxn] at hread; cases hread
  | nop | step | commit | reset | wrStatus | wrInL | wrInR | wrMixStg => cases hline
  | rdCmd | rdStatus | rdErraddr | rdFs | rdNlines | rdFrames | rdInL | rdInR | rdOutL | rdOutR | rdMixStg | rdMix =>
    cases hline
  | _ => cases hline; exact ⟨_, _, txnAddr_packTxn _ _ _, fun s => rfl⟩

/-! ### The effect of an instruction -/

/-- The next state t of an instruction in the state s: the four commands, the four global writes, a read's answer, a
line write's update, and the error of a line operation that does not pass the decoder's checks. -/
inductive Effect (s : State) : Instr → State → Prop where
  | nop : Effect s .nop s
  | step : Effect s .step (stepFrame s)
  | commit : Effect s .commit (commitAll s)
  | reset : Effect s .reset (resetBlock s)
  | wrStatus (data : Word) : Effect s (.wrStatus data) { s with status := clearSticky s.status data }
  | wrInL (data : Word) : Effect s (.wrInL data) { s with inL := data }
  | wrInR (data : Word) : Effect s (.wrInR data) { s with inR := data }
  | wrMixStg (data : Word) :
      Effect s (.wrMixStg data) (setPend { s with mixStg := F32.clamp data F32.zero F32.one })
  | read {i : Instr} (w : Word) (hread : txnWrite (encode i) = false) : Effect s i (answer w s)
  | stage {i : Instr} {d : LineIx} {f : Line → Line} (hline : i.line? = some d) (hf : IsStagingUpdate f) :
      Effect s i (setPend { s with lines := s.lines.modify d.toNat f })
  | refuse {i : Instr} {d : LineIx} (hline : i.line? = some d) (k : ErrorKind) (write : Bool) (a : Addr)
      (hbad : i.wf s.lines.length = false) : Effect s i (raiseError k write a s)

theorem wf_eq_false_of_length_le {i : Instr} {d : LineIx} {n : Nat} (hline : i.line? = some d) (h : n ≤ d.toNat) :
    i.wf n = false :=
  Bool.eq_false_iff.2 fun hwf => not_le_of_wf hline hwf h

/-- Every instruction has one of these effects. -/
theorem exec_effect {i : Instr} {s t : State} (h : exec i s = .next t) : Effect s i t := by
  cases hline : i.line? with
  | some d =>
    cases hdir : txnWrite (encode i) with
    | true =>
      obtain ⟨update, hupdate, hdata, hexec⟩ := exec_lineWrite hline hdir
      rw [hexec] at h
      cases h
      obtain ⟨f, rfl, -, heq⟩ | ⟨rfl, -, heq⟩ | ⟨hd, heq⟩ :=
        lineWrite_cases (txnAddr (encode i)) d update s <;> rw [heq]
      · exact .stage hline (hupdate f rfl)
      · exact .refuse hline _ _ _ (by rw [Instr.wf, hdata rfl, Bool.and_false])
      · exact .refuse hline _ _ _ (wf_eq_false_of_length_le hline hd)
    | false =>
      obtain ⟨off, value, -, hexec⟩ := exec_lineRead hline hdir
      rw [hexec] at h
      cases h
      obtain ⟨l, -, heq⟩ | ⟨hd, heq⟩ := readLineReg_cases off d value s <;> rw [heq]
      · exact .read _ hdir
      · exact .refuse hline _ _ _ (wf_eq_false_of_length_le hline hd)
  | none =>
    cases i with
    | nop => cases h; exact .nop
    | step => cases h; exact .step
    | commit => cases h; exact .commit
    | reset => cases h; exact .reset
    | wrStatus data => cases h; exact .wrStatus data
    | wrInL data => cases h; exact .wrInL data
    | wrInR data => cases h; exact .wrInR data
    | wrMixStg data => cases h; exact .wrMixStg data
    | rdCmd | rdStatus | rdErraddr | rdFs | rdNlines | rdFrames | rdInL | rdInR | rdOutL | rdOutR | rdMixStg | rdMix =>
      cases h; exact .read _ (txnWrite_packTxn ..)
    | _ => cases hline

/-- An instruction that the decoder answers passes its checks (R99). -/
theorem wf_of_decode {n : Nat} {t : Txn} {i : Instr} (h : decode n t = .op i) : i.wf n = true := by
  have hfollows := followsChecks_decode n t
  rw [h] at hfollows
  obtain ⟨-, hwf, -⟩ := hfollows
  exact hwf

/-! ### The configuration -/

/-- No instruction changes the configuration (R55). -/
theorem Effect.config {i : Instr} {s t : State} (h : Effect s i t) : t.config = s.config := by
  have hlines {lines : List Line} (hmap : lines.map Line.config = s.lines.map Line.config) :
      ({ fs := s.fs, lines := lines.map Line.config } : Config) = s.config := by rw [hmap, State.config]
  cases h with
  | step => exact hlines (by simp [Function.comp_def])
  | commit => exact hlines (by simp [Function.comp_def])
  | reset => exact hlines (by simp [Function.comp_def])
  | stage hline hf => exact hlines (map_modify_of_keeps (hf.keeps Line.config fun _ => rfl) _ _)
  | nop | wrStatus | wrInL | wrInR | wrMixStg | read | refuse => rfl

theorem driveRst_cases (level : Bool) (s : State) :
    ((level = true ∨ s.rst = true) ∧ driveRst level s = { resetBlock s with rst := level }) ∨
    (¬(level = true ∨ s.rst = true) ∧ driveRst level s = s) := by
  by_cases h : level = true ∨ s.rst = true
  · exact .inl ⟨h, if_pos (by simpa using h)⟩
  · exact .inr ⟨h, if_neg (by simpa using h)⟩

theorem driveRst_config (level : Bool) (s : State) : (driveRst level s).config = s.config := by
  obtain ⟨-, h⟩ | ⟨-, h⟩ := driveRst_cases level s <;> rw [h]
  exact (Effect.reset (s := s)).config

theorem step_config {s t : State} (h : step s = .next t) : t.config = s.config := by
  obtain ⟨-, rfl⟩ | ⟨level, rest, -, rfl⟩ | ⟨w, rest, i, -, -, -, hexec⟩ | ⟨w, rest, k, -, -, -, rfl⟩ := step_cases h
  · rfl
  · exact driveRst_config level (takeEvent rest s)
  · exact (exec_effect hexec).config
  · rfl

end Sys2Proof.Machine

namespace Sys2Proof.Proofs

open Sys2Proof.Machine

/-- Settles O54 (R55). -/
theorem stepKeepsTheConfiguration : Obligations.StepKeepsTheConfiguration := fun _ _ h => step_config h

end Sys2Proof.Proofs
end

section
/-!
The invariants of 10_state section 4: the reset state of an admissible configuration has them, and every effect of an
instruction, every recorded error and the reset input keep them.
-/

namespace Sys2Proof.Machine

/-! ### The reserved bits of STATUS and ERRADDR (R35, R36) -/

theorem setStatusBit_reserved {b : Nat} {status : Word} (hb : bitWord b &&& ~~~statusMask = 0#32)
    (h : status &&& ~~~statusMask = 0#32) : setStatusBit b status &&& ~~~statusMask = 0#32 := by
  rw [setStatusBit, BitVec.and_or_distrib_right, h, hb, BitVec.or_zero]

/-- Clearing bits sets no reserved one. -/
theorem and_reserved {status : Word} (kept : Word) (h : status &&& ~~~statusMask = 0#32) :
    status &&& kept &&& ~~~statusMask = 0#32 := by
  rw [BitVec.and_assoc, BitVec.and_comm kept, ← BitVec.and_assoc, h, BitVec.zero_and]

theorem errorBit_reserved (k : ErrorKind) : bitWord (errorBit k) &&& ~~~statusMask = 0#32 := by
  cases k <;> decide

theorem errAddrWord_reserved (write : Bool) (a : Addr) : errAddrWord write a &&& 0x7FFF8000#32 = 0#32 := by
  have hmask : 0x7FFF8000#32 = (0#1 ++ BitVec.allOnes 16) ++ 0#15 := by decide
  rw [hmask, errAddrWord]
  erw [BitVec.and_append, BitVec.and_append]
  rw [BitVec.and_zero, BitVec.and_zero, BitVec.zero_and]
  rfl

/-! ### One line -/

theorem Line.inv_atReset {c : LineConfig} (h : c.wf) : (Line.atReset c).Inv := by
  obtain ⟨hlo, hhi, -, -⟩ := id h
  obtain ⟨hfin, hkey, -⟩ := ofInt_cap_sub_one hlo hhi
  have hphase : InHalfOpen F32.zero F32.one := by decide +kernel
  have hdelay : InClosed F32.zero (F32.ofInt ((c.cap : Int) - 1)) :=
    (inClosed_iff hfin).2 ⟨by decide, by decide, by rw [hkey, F32.key_zero]; omega⟩
  have hwptr : 0 < c.cap := by omega
  exact ⟨h, hphase, hwptr, hdelay, nil_wf, by simp [Buffer.within]⟩

/-- A STEP keeps a line's invariants. -/
theorem Line.inv_stepLine (fs inL inR : Word) {l : Line} (h : l.Inv) : (stepLine fs inL inR l).Inv := by
  obtain ⟨hconfig, hphase, hwptr, -, hwf, hwithin⟩ := h
  obtain ⟨hlo, hhi, -, -⟩ := id hconfig
  have hpos : 0 < l.cap := Nat.zero_lt_of_lt hwptr
  exact ⟨hconfig, inHalfOpen_oscAdvance fs hphase, Nat.mod_lt _ hpos, inClosed_stepDelay fs hlo hhi,
    bufWrite_wf _ _ hwf, bufWrite_within _ (bufIndex_lt hpos 0) hwithin⟩

/-! ### The block -/

theorem inClosed_zero_one : InClosed F32.zero F32.one := by decide +kernel

theorem State.inv_atReset {c : Config} (h : c.wf) : (State.atReset c).Inv := by
  have hlines : ∀ l ∈ (State.atReset c).lines, l.Inv := by
    intro l hl
    obtain ⟨cl, hmem, rfl⟩ := List.mem_map.1 hl
    obtain ⟨-, -, -, -, hwf⟩ := h
    exact Line.inv_atReset (hwf cl hmem)
  exact ⟨by rw [State.atReset_config]; exact h, hlines, inClosed_zero_one, inClosed_zero_one, BitVec.zero_and,
    BitVec.zero_and⟩

/-- The lines replaced by others that have the invariants, the configuration being the same. -/
theorem State.inv_of_lines {s : State} {lines : List Line} (h : s.Inv) (hlines : ∀ l ∈ lines, l.Inv)
    (hconfig : { s with lines := lines }.config = s.config) : State.Inv { s with lines := lines } := by
  obtain ⟨hwf, -, hmixStg, hmix, hstatus, herrAddr⟩ := h
  exact ⟨hconfig ▸ hwf, hlines, hmixStg, hmix, hstatus, herrAddr⟩

theorem State.inv_of_status {s : State} {status : Word} (h : s.Inv) (hstatus : status &&& ~~~statusMask = 0#32) :
    State.Inv { s with status := status } := by
  obtain ⟨hwf, hlines, hmixStg, hmix, -, herrAddr⟩ := h
  exact ⟨hwf, hlines, hmixStg, hmix, hstatus, herrAddr⟩

theorem State.Inv.status {s : State} (h : s.Inv) : s.status &&& ~~~statusMask = 0#32 := by
  obtain ⟨-, -, -, -, hstatus, -⟩ := h
  exact hstatus

theorem State.Inv.lines {s : State} (h : s.Inv) : ∀ l ∈ s.lines, l.Inv := by
  obtain ⟨-, hlines, -⟩ := h
  exact hlines

theorem inv_setPend {s : State} (h : s.Inv) : (setPend s).Inv :=
  State.inv_of_status h (setStatusBit_reserved (by decide) h.status)

theorem inv_raiseError (k : ErrorKind) (write : Bool) (a : Addr) {s : State} (h : s.Inv) :
    (raiseError k write a s).Inv := by
  have hstatus := setStatusBit_reserved (errorBit_reserved k) h.status
  obtain ⟨hwf, hlines, hmixStg, hmix, -, herrAddr⟩ := h
  refine ⟨hwf, hlines, hmixStg, hmix, hstatus, ?_⟩
  rw [raiseError_errAddr]
  split
  · exact errAddrWord_reserved write a
  · exact herrAddr

theorem inv_stepFrame {s : State} (h : s.Inv) : (stepFrame s).Inv := by
  obtain ⟨hwf, hlines, hmixStg, hmix, hstatus, herrAddr⟩ := h
  refine ⟨(Effect.step (s := s)).config ▸ hwf, fun l hl => ?_, hmixStg, hmix, ?_, herrAddr⟩
  · obtain ⟨l, hmem, rfl⟩ := List.mem_map.1 hl
    exact Line.inv_stepLine _ _ _ (hlines l hmem)
  · obtain hset | hkept := stepFrame_status_cases s
    · rw [hset]; exact setStatusBit_reserved (by decide) hstatus
    · rw [hkept]; exact hstatus

theorem inv_commitAll {s : State} (h : s.Inv) : (commitAll s).Inv := by
  obtain ⟨hwf, hlines, hmixStg, -, hstatus, herrAddr⟩ := h
  refine ⟨(Effect.commit (s := s)).config ▸ hwf, fun l hl => ?_, hmixStg, hmixStg, and_reserved _ hstatus, herrAddr⟩
  obtain ⟨l, hmem, rfl⟩ := List.mem_map.1 hl
  exact hlines l hmem

theorem inv_resetBlock {s : State} (h : s.Inv) : (resetBlock s).Inv := by
  obtain ⟨hwf, -⟩ := h
  exact State.inv_atReset hwf

/-- Every line after a line write is one of the lines before it, or the update of one. -/
theorem mem_modify {lines : List Line} {d : Nat} {f : Line → Line} {l : Line} (h : l ∈ lines.modify d f) :
    l ∈ lines ∨ ∃ l' ∈ lines, l = f l' := by
  obtain ⟨k, hk⟩ := List.mem_iff_getElem?.1 h
  rw [getElem?_modify_lines] at hk
  split at hk
  · obtain ⟨l', hl', rfl⟩ := Option.map_eq_some_iff.1 hk
    exact .inr ⟨l', List.mem_of_getElem? hl', rfl⟩
  · exact .inl (List.mem_of_getElem? hk)

/-- The invariants do not speak of staging registers other than MIX_STG. -/
theorem IsStagingUpdate.inv {f : Line → Line} (hf : IsStagingUpdate f) {l : Line} (h : l.Inv) : (f l).Inv :=
  (hf.keeps Line.Inv (fun _ => rfl) l).mpr h

/-- Every instruction keeps the invariants. -/
theorem Effect.inv {i : Instr} {s t : State} (h : Effect s i t) (hs : s.Inv) : t.Inv := by
  have hconfig := h.config
  cases h with
  | nop | wrInL | wrInR | read => exact hs
  | step => exact inv_stepFrame hs
  | commit => exact inv_commitAll hs
  | reset => exact inv_resetBlock hs
  | wrStatus data => exact State.inv_of_status hs (and_reserved _ hs.status)
  | wrMixStg data =>
    obtain ⟨hwf, hlines, -, hmix, hstatus, herrAddr⟩ := hs
    have hclamp := clamp_zero_inClosed data (F32.le_of_lt F32.zero_lt_one) (by decide)
    exact inv_setPend ⟨hwf, hlines, hclamp, hmix, hstatus, herrAddr⟩
  | stage hline hf =>
    refine inv_setPend (State.inv_of_lines hs (fun l hl => ?_) hconfig)
    obtain hmem | ⟨l', hmem, rfl⟩ := mem_modify hl
    · exact hs.lines l hmem
    · exact hf.inv (hs.lines l' hmem)
  | refuse hline k write a => exact inv_raiseError k write a hs

/-- Every step keeps the invariants. -/
theorem step_inv {s t : State} (hs : s.Inv) (h : step s = .next t) : t.Inv := by
  obtain ⟨-, rfl⟩ | ⟨level, rest, -, rfl⟩ | ⟨w, rest, i, -, -, -, hexec⟩ | ⟨w, rest, k, -, -, -, rfl⟩ := step_cases h
  · exact hs
  · obtain ⟨-, heq⟩ | ⟨-, heq⟩ := driveRst_cases level (takeEvent rest s) <;> rw [heq]
    · exact inv_resetBlock hs
    · exact hs
  · exact (exec_effect hexec).inv hs
  · exact inv_raiseError k _ _ hs

/-- No CFG register reads a reserved code (R45). -/
theorem cfgWord_codes (c : CfgFields) :
    (cfgWord c).extractLsb' 0 2 ≠ 3#2 ∧ (cfgWord c).extractLsb' 4 2 ≠ 3#2 := by
  obtain ⟨route, interp⟩ := c
  cases route <;> cases interp <;> decide

/-! ### The configuration of the machine (R10 to R13) -/

theorem wf_machineLine (d : Nat) : (Config.machineLine d).wf := by
  have hcap := Nat.mod_lt (Config.capPick d) (by decide : 2 ^ 24 - 1 > 0)
  have hmaxd := Nat.mod_lt (Config.maxdPick d) (by decide : 0x7F7FFFFF > 0)
  simp only [LineConfig.wf, Config.machineLine, BitVec.toNat_ofNat]
  omega

/-- Every pick of the opaque constants gives an admissible configuration. -/
theorem wf_machine : Config.machine.wf := by
  have hfs := Nat.mod_lt Config.fsPick (by decide : 0x7F000000 > 0)
  have hlines := Nat.mod_lt Config.linesPick (by decide : 128 > 0)
  refine ⟨?_, ?_, ?_, ?_, fun l hl => ?_⟩
  · simp only [Config.machine, BitVec.toNat_ofNat]; omega
  · simp only [Config.machine, BitVec.toNat_ofNat]; omega
  · simp [Config.machine]
  · simp only [Config.machine, List.length_cons, List.length_map, List.length_range]; omega
  · simp only [Config.machine, List.mem_cons, List.mem_map] at hl
    obtain rfl | ⟨d, -, rfl⟩ := hl
    · exact wf_machineLine 0
    · exact wf_machineLine (d + 1)

end Sys2Proof.Machine

namespace Sys2Proof.Proofs

open Sys2Proof.Machine

/-- Settles O52 (R54). -/
theorem stepKeepsTheInvariants : Obligations.StepKeepsTheInvariants := by
  refine ⟨fun c hc => State.inv_atReset hc, fun s t hs h => ⟨step_inv hs h, fun l _ => ?_⟩⟩
  obtain ⟨hroute, hinterp⟩ := cfgWord_codes l.cfg
  obtain ⟨hrouteStg, hinterpStg⟩ := cfgWord_codes l.cfgStg
  exact ⟨hroute, hinterp, hrouteStg, hinterpStg⟩

/-- Settles O53 (log 3). -/
theorem resetHasTheInvariants : Obligations.ResetHasTheInvariants := State.inv_atReset wf_machine

end Sys2Proof.Proofs
end

section
/-!
One step of the machine, and the errors it records (20_memory R80, 60_exceptions): what the step is for each bus event,
the error of R301 in the spec's own terms, and how STATUS and ERRADDR change over any step.
-/

namespace Sys2Proof.Machine

open Sys2Proof.Claims

/-! ### The step for each bus event -/

theorem step_idle {s : State} (h : s.inputs = []) : step s = .next s := by
  rw [step, h]

theorem step_rst {s : State} {level : Bool} {rest : List BusEvent} (h : s.inputs = .rst level :: rest) :
    step s = .next (driveRst level (takeEvent rest s)) := by
  rw [step, h]; rfl

theorem step_transaction {s : State} {t : Txn} {rest : List BusEvent} (h : s.inputs = .transaction t :: rest) :
    step s = if s.rst = true then .refused .transactionDuringReset else runTxn t (takeEvent rest s) := by
  rw [step, h]; rfl

theorem step_of_released {s : State} {t : Txn} {rest : List BusEvent} (h : s.inputs = .transaction t :: rest)
    (hrst : s.rst = false) : step s = runTxn t (takeEvent rest s) := by
  rw [step_transaction h, hrst]; rfl

theorem runTxn_of_error {t : Txn} {s : State} {k : ErrorKind} (h : decode s.lines.length t = .error k) :
    runTxn t s = .next (raiseError k (txnWrite t) (txnAddr t) s) := by
  rw [runTxn, h]

/-- A transaction is an operation, which goes on, or an error, which is recorded (R300). -/
theorem runTxn_goes (t : Txn) (s : State) : Goes (runTxn t s) := by
  obtain ⟨i, -, h⟩ | ⟨k, -, h⟩ := runTxn_cases t s <;> rw [h]
  · exact exec_goes i s
  · exact ⟨_, rfl⟩

/-! ### Recording an error (R301) -/

theorem errorRecorded_eq_raiseError (k : ErrorKind) (write : Bool) (a : Addr) (s : State) :
    errorRecorded k write a s = raiseError k write a s := by
  have herrAddr : (if s.status.extractLsb' 0 4 = 0#4 then BitVec.ofBool write ++ 0#16 ++ a else s.errAddr) =
      if noDecodeError s.status = true then errAddrWord write a else s.errAddr :=
    if_congr (noDecodeError_iff s.status).symm rfl rfl
  unfold errorRecorded raiseError
  rw [herrAddr]
  cases k <;> rfl

/-- A line operation with d ≥ N records EADDR with its own direction and address. -/
theorem exec_of_length_le {i : Instr} {d : LineIx} {s : State} (hline : i.line? = some d)
    (hd : s.lines.length ≤ d.toNat) :
    exec i s = .next (raiseError .eaddr (txnWrite (encode i)) (txnAddr (encode i)) s) := by
  cases hdir : txnWrite (encode i) with
  | true =>
    obtain ⟨update, -, -, hexec⟩ := exec_lineWrite hline hdir
    exact (hexec s).trans (congrArg _ (if_neg (Nat.not_lt.2 hd)))
  | false =>
    obtain ⟨off, value, haddr, hexec⟩ := exec_lineRead hline hdir
    rw [hexec, haddr, readLineReg, List.getElem?_eq_none hd]

/-- A reserved code refuses the whole write (R142). -/
theorem exec_wrCfgStg_reserved {d : LineIx} {data : Word} {s : State} (hd : d.toNat < s.lines.length)
    (h : dataRoute data = 3 ∨ dataInterp data = 3) :
    exec (.wrCfgStg d data) s = .next (raiseError .efield true (lineAddr d 0x05#5) s) := by
  have hexec : exec (.wrCfgStg d data) s = execWrCfgStg d data s := rfl
  rw [hexec, execWrCfgStg_eq_lineWrite, cfgOfData_reserved h]
  exact congrArg _ (if_pos hd)

/-! ### The sticky bits added -/

theorem bitWord_and (b : Nat) (w : Word) : bitWord b &&& w = if w.getLsbD b = true then bitWord b else 0#32 :=
  BitVec.twoPow_and w b

/-- The sticky bits that a step adds to STATUS are none or exactly one (R307). -/
abbrev AddsAtMostOne (before after : Word) : Prop :=
  after &&& ~~~before &&& 0x0000001F#32 ∈ ([0x00#32, 0x01#32, 0x02#32, 0x04#32, 0x08#32, 0x10#32] : List Word)

/-- Bits cleared from STATUS add none. -/
theorem addsAtMostOne_and (status kept : Word) : AddsAtMostOne status (status &&& kept) := by
  have hself : status &&& ~~~status = 0#32 := BitVec.and_not_self status
  have hnone : status &&& kept &&& ~~~status &&& 0x0000001F#32 = 0#32 := by
    rw [BitVec.and_comm status, BitVec.and_assoc kept, hself, BitVec.and_zero, BitVec.zero_and]
  rw [AddsAtMostOne, hnone]
  simp

theorem addsAtMostOne_refl (status : Word) : AddsAtMostOne status status := by
  have h := addsAtMostOne_and status status
  rwa [BitVec.and_self] at h

theorem addsAtMostOne_zero (status : Word) : AddsAtMostOne status 0#32 := by
  have h := addsAtMostOne_and status 0#32
  rwa [BitVec.and_zero] at h

/-- One bit set in STATUS adds that bit or none. -/
theorem addsAtMostOne_setStatusBit (b : Nat) (status : Word) : AddsAtMostOne status (setStatusBit b status) := by
  have hself : status &&& ~~~status = 0#32 := BitVec.and_not_self status
  have hone : setStatusBit b status &&& ~~~status &&& 0x0000001F#32 =
      bitWord b &&& (~~~status &&& 0x0000001F#32) := by
    rw [setStatusBit, BitVec.and_or_distrib_right, hself, BitVec.zero_or, BitVec.and_assoc]
  rw [AddsAtMostOne, hone, bitWord_and]
  split
  · next hb =>
    rw [BitVec.getLsbD_and, Bool.and_eq_true] at hb
    obtain ⟨-, hb⟩ := hb
    have hlt : b < 5 := by
      by_contra hge
      have hmask : (0x0000001F#32).getLsbD b = false := by
        rw [BitVec.getLsbD_ofNat, show 0x1F = 2 ^ 5 - 1 by rfl, Nat.testBit_two_pow_sub_one]
        simp [hge]
      simp [hmask] at hb
    interval_cases b <;> decide
  · simp

theorem exec_addsAtMostOne {i : Instr} {s t : State} (h : exec i s = .next t) : AddsAtMostOne s.status t.status := by
  obtain rfl | ⟨data, rfl⟩ | hkept | ⟨b, hset⟩ | hpend := exec_status_cases h
  · cases h; exact addsAtMostOne_zero s.status
  · cases h; exact addsAtMostOne_and s.status _
  · rw [hkept]; exact addsAtMostOne_refl s.status
  · rw [hset]; exact addsAtMostOne_setStatusBit b s.status
  · rw [hpend]; exact addsAtMostOne_and s.status _

/-! ### ERRADDR -/

/-- An instruction that passes the decoder's checks leaves ERRADDR, or is RESET and clears it. -/
theorem Effect.errAddr {i : Instr} {s t : State} (h : Effect s i t) (hwf : i.wf s.lines.length = true) :
    t.errAddr = s.errAddr ∨ (i = .reset ∧ t.errAddr = 0#32) := by
  cases h with
  | reset => exact .inr ⟨rfl, rfl⟩
  | refuse hline k write a hbad => simp [hwf] at hbad
  | nop | step | commit | wrStatus | wrInL | wrInR | wrMixStg | read | stage => exact .inl rfl

end Sys2Proof.Machine

namespace Sys2Proof.Proofs

open Sys2Proof.Machine

/-- Settles O6 (R80, R99). -/
theorem stepRunsTheDecodedInstruction : Obligations.StepRunsTheDecodedInstruction := by
  intro s t rest i hin hrst hdec
  rw [step_of_released hin hrst, runTxn_of_op (s := takeEvent rest s) hdec]
  rfl

/-- Settles O7 (R301). -/
theorem stepRecordsADecodeError : Obligations.StepRecordsADecodeError := by
  intro s t rest k hin hrst hdec
  rw [step_of_released hin hrst, runTxn_of_error (s := takeEvent rest s) hdec, errorRecorded_eq_raiseError]
  rfl

/-- Settles O8 (R330). -/
theorem resetPinGivesTheResetState : Obligations.ResetPinGivesTheResetState := by
  intro s level rest hin
  rw [step_rst hin]
  obtain ⟨h, heq⟩ | ⟨h, heq⟩ := driveRst_cases level (takeEvent rest s)
  · rw [takeEvent_rst] at h
    rw [heq, if_pos h]; rfl
  · rw [takeEvent_rst] at h
    rw [heq, if_neg h]; rfl

/-- Settles O9 (logs 7 and 8). -/
theorem idleAndRefusedEvents : Obligations.IdleAndRefusedEvents := by
  refine ⟨fun s h => step_idle h, fun s t rest hin hrst => ?_⟩
  rw [step_transaction hin, if_pos hrst]

/-- Settles O10 (R300). -/
theorem everyTransactionGoesOn : Obligations.EveryTransactionGoesOn := by
  intro s t rest hin hrst
  rw [step_of_released hin hrst]
  exact runTxn_goes t _

/-- Settles O11 (log 12): reads and writes alike check the line index first. -/
theorem lineBeyondNRecordsEaddr : Obligations.LineBeyondNRecordsEaddr := by
  intro i d s hline hd
  rw [errorRecorded_eq_raiseError, exec_of_length_le hline hd]
  rfl

/-- Settles O12 (log 12). -/
theorem reservedCfgCodeRecordsEfield : Obligations.ReservedCfgCodeRecordsEfield := by
  intro d data s hd hreserved
  rw [errorRecorded_eq_raiseError, exec_wrCfgStg_reserved hd hreserved]
  rfl

/-- Settles O13 (R307): each way a step can go on. -/
theorem stepAddsAtMostOneError : Obligations.StepAddsAtMostOneError := by
  intro s t h
  obtain ⟨-, rfl⟩ | ⟨level, rest, -, rfl⟩ | ⟨w, rest, i, -, -, -, hexec⟩ | ⟨w, rest, k, -, -, -, rfl⟩ := step_cases h
  · exact addsAtMostOne_refl _
  · obtain ⟨-, heq⟩ | ⟨-, heq⟩ := driveRst_cases level (takeEvent rest s) <;> rw [heq]
    · exact addsAtMostOne_zero _
    · exact addsAtMostOne_refl _
  · exact exec_addsAtMostOne (s := takeEvent rest s) hexec
  · exact addsAtMostOne_setStatusBit _ _

/-- Settles O14 (R36, R301): each way a step can go on; an operation that is run has passed the decoder's checks. -/
theorem errAddrKeepsTheFirstError : Obligations.ErrAddrKeepsTheFirstError := by
  intro s t h hne
  obtain ⟨-, rfl⟩ | ⟨level, rest, hin, rfl⟩ | ⟨w, rest, i, hin, -, hdec, hexec⟩ | ⟨w, rest, k, hin, -, hdec, rfl⟩ :=
    step_cases h
  · exact absurd rfl hne
  · obtain ⟨-, heq⟩ | ⟨-, heq⟩ := driveRst_cases level (takeEvent rest s) <;> rw [heq] at hne ⊢
    · exact .inr ⟨rfl, _, rest, hin, .inl ⟨level, rfl⟩⟩
    · exact absurd rfl hne
  · obtain hkept | ⟨rfl, hzero⟩ := (exec_effect hexec).errAddr (wf_of_decode hdec)
    · exact absurd hkept hne
    · exact .inr ⟨hzero, _, rest, hin, .inr ⟨w, rfl, hdec⟩⟩
  · have hfirst := followsChecks_decode s.lines.length w
    rw [hdec] at hfirst
    rw [raiseError_errAddr, takeEvent_status, takeEvent_errAddr] at hne ⊢
    by_cases hclear : noDecodeError s.status = true
    · rw [if_pos hclear]
      exact .inl ⟨(noDecodeError_iff _).1 hclear, w, rest, k, hin, hfirst, rfl⟩
    · exact absurd (if_neg hclear) hne

end Sys2Proof.Proofs
end

section
/-!
Register access (40_register_access): what each read returns and each staging write stores, the reset of RESET, the write
access matrix (10_state section 6), and that a repeated write leaves the state of the first (20_memory section 2).
-/

namespace Sys2Proof.Machine

open Sys2Proof.Claims

/-! ### The words read and stored -/

/-- A read of STATUS returns its six bits in their places, and 0 elsewhere (R98). -/
theorem statusWord_getLsbD (status : Word) (b : Nat) :
    (statusWord status).getLsbD b = (status.getLsbD b && decide (b ∈ [0, 1, 2, 3, 4, 8])) := by
  by_cases hb : b < 32
  · simp only [statusWord, pendBit, nonfinBit, errorBit, BitVec.getLsbD_append, BitVec.getLsbD_ofBool]
    interval_cases b <;> simp
  · rw [BitVec.getLsbD_of_ge _ _ (by omega), BitVec.getLsbD_of_ge _ _ (by omega), Bool.false_and]

/-- The word of CFG and CFG_STG with INTERP first. -/
theorem cfgWord_eq (c : CfgFields) : cfgWord c = BitVec.ofNat 32 (16 * interpCode c.interp + routeCode c.route) := by
  rw [cfgWord, Nat.mul_comm]

/-- The two fields of a data word in their places, the other bits 0 (R45). -/
theorem ofNat_fields (data : Word) :
    u32 (dataInterp data * 16 + dataRoute data) = data &&& 0x00000033#32 := by
  have hfields : data &&& 0x00000033#32 =
      ((0#26 ++ data.extractLsb' 4 2) ++ 0#2) ++ data.extractLsb' 0 2 := by
    apply BitVec.eq_of_getLsbD_eq
    intro i hi
    simp only [BitVec.getLsbD_and, BitVec.getLsbD_append, BitVec.getLsbD_extractLsb']
    interval_cases i <;> simp
  rw [hfields, dataInterp, dataRoute]
  generalize data.extractLsb' 4 2 = interp, data.extractLsb' 0 2 = route
  decide +revert

theorem cfgWord_of_codes {c : CfgFields} {data : Word} (hr : routeCode c.route = dataRoute data)
    (hi : interpCode c.interp = dataInterp data) : cfgWord c = data &&& 0x00000033#32 := by
  rw [cfgWord, hr, hi, ofNat_fields]

/-- A read of a line that exists returns the register's word. -/
theorem answers_of_readLineReg {i : Instr} {s : State} {d : LineIx} {l : Line} {off : BitVec 5} {value : Line → Word}
    (h : s.lines[d.toNat]? = some l) (hexec : exec i s = .next (readLineReg off d value s)) :
    Answers i s (value l) := by
  rw [Answers, hexec, readLineReg_of_some h]; rfl

/-- An update of a line that exists stages the updated line. -/
theorem stages_of_some {i : Instr} {s : State} {d : LineIx} {l : Line} {f : Line → Line}
    (h : s.lines[d.toNat]? = some l)
    (hexec : d.toNat < s.lines.length → exec i s = .next (setPend { s with lines := s.lines.modify d.toNat f })) :
    Stages i s d (f l) := by
  obtain ⟨hd, -⟩ := List.getElem?_eq_some_iff.1 h
  rw [Stages, hexec hd, modify_eq_set h]; rfl

theorem writeLineReg_of_lt {off : BitVec 5} {d : LineIx} {f : Line → Line} {s : State}
    (hd : d.toNat < s.lines.length) :
    writeLineReg off d f s = setPend { s with lines := s.lines.modify d.toNat f } := if_pos hd

/-! ### The write access matrix (R58) -/

/-- No instruction touches the reset input or the events to come. -/
theorem Effect.host {i : Instr} {s t : State} (h : Effect s i t) : t.rst = s.rst ∧ t.inputs = s.inputs := by
  cases h <;> exact ⟨rfl, rfl⟩

/-- Only STEP and RESET write the datapath and the outputs, and only they can set NONFIN. -/
theorem Effect.datapath {i : Instr} {s t : State} (h : Effect s i t) (hstep : i ≠ .step) (hreset : i ≠ .reset) :
    t.lines.map datapath = s.lines.map datapath ∧ t.outL = s.outL ∧ t.outR = s.outR ∧
      (t.status.getLsbD nonfinBit = true → s.status.getLsbD nonfinBit = true) := by
  have hset {b : Nat} (hb : b < 32) (hne : nonfinBit ≠ b)
      (h : (setStatusBit b s.status).getLsbD nonfinBit = true) : s.status.getLsbD nonfinBit = true := by
    simpa [setStatusBit_getLsbD hb, hne] using h
  have hpend := hset (b := pendBit) (by decide) (by decide)
  cases h with
  | step => exact absurd rfl hstep
  | reset => exact absurd rfl hreset
  | nop | wrInL | wrInR | read => exact ⟨rfl, rfl, rfl, id⟩
  | commit =>
    refine ⟨by simp [Function.comp_def, Claims.datapath], rfl, rfl, fun h => ?_⟩
    rw [commitAll_status, clearStatusBit_getLsbD (by decide), Bool.and_eq_true] at h
    exact h.1
  | wrStatus data =>
    refine ⟨rfl, rfl, rfl, fun h => ?_⟩
    rw [clearSticky_getLsbD, Bool.and_eq_true] at h
    exact h.1
  | wrMixStg => exact ⟨rfl, rfl, rfl, hpend⟩
  | stage hline hf =>
    exact ⟨map_modify_of_keeps (hf.keeps Claims.datapath fun _ => rfl) _ _, rfl, rfl, hpend⟩
  | refuse hline k =>
    have hk := errorBit_lt k
    exact ⟨rfl, rfl, rfl, hset (by omega) (by unfold nonfinBit; omega)⟩

/-- Only COMMIT and RESET write the active registers and MIX. -/
theorem Effect.active {i : Instr} {s t : State} (h : Effect s i t) (hcommit : i ≠ .commit) (hreset : i ≠ .reset) :
    t.lines.map active = s.lines.map active ∧ t.mix = s.mix := by
  cases h with
  | commit => exact absurd rfl hcommit
  | reset => exact absurd rfl hreset
  | step => exact ⟨by simp [Function.comp_def, Claims.active], rfl⟩
  | stage hline hf => exact ⟨map_modify_of_keeps (hf.keeps Claims.active fun _ => rfl) _ _, rfl⟩
  | nop | wrStatus | wrInL | wrInR | wrMixStg | read | refuse => exact ⟨rfl, rfl⟩

/-- STEP and COMMIT keep the staging registers. -/
theorem stepFrame_staging (s : State) : (stepFrame s).lines.map staging = s.lines.map staging := by
  simp [Function.comp_def, staging]

theorem commitAll_staging (s : State) : (commitAll s).lines.map staging = s.lines.map staging := by
  simp [Function.comp_def, staging]

/-- Of STATUS a STEP changes at most NONFIN. -/
theorem stepFrame_status_and (s : State) : (stepFrame s).status &&& 0xFFFFFFEF#32 = s.status &&& 0xFFFFFFEF#32 := by
  obtain hset | hkept := stepFrame_status_cases s
  · have hbit : bitWord nonfinBit &&& 0xFFFFFFEF#32 = 0#32 := by decide
    rw [hset, setStatusBit, BitVec.and_or_distrib_right, hbit, BitVec.or_zero]
  · rw [hkept]

/-! ### Repeated writes -/

theorem setStatusBit_idem (b : Nat) (status : Word) :
    setStatusBit b (setStatusBit b status) = setStatusBit b status := by
  rw [setStatusBit, setStatusBit, BitVec.or_assoc, BitVec.or_self]

theorem clearStatusBit_idem (b : Nat) (status : Word) :
    clearStatusBit b (clearStatusBit b status) = clearStatusBit b status := by
  rw [clearStatusBit, clearStatusBit, BitVec.and_assoc, BitVec.and_self]

theorem clearSticky_idem (status data : Word) : clearSticky (clearSticky status data) data = clearSticky status data := by
  rw [clearSticky, clearSticky, BitVec.and_assoc, BitVec.and_self]

theorem wrStatus_idem (s : State) (data : Word) :
    { s with status := clearSticky (clearSticky s.status data) data } =
      { s with status := clearSticky s.status data } := by
  rw [clearSticky_idem]

/-- Once a decode error is recorded, STATUS[3:0] is not 0. -/
theorem noDecodeError_setStatusBit_errorBit (k : ErrorKind) (status : Word) :
    noDecodeError (setStatusBit (errorBit k) status) = false := by
  have hk : bitWord (errorBit k) &&& decodeErrorMask ≠ 0#32 := by cases k <;> decide
  refine beq_eq_false_iff_ne.2 fun h => hk ?_
  rw [setStatusBit, BitVec.and_or_distrib_right, BitVec.or_eq_zero_iff] at h
  exact h.2

/-- The error of a write recorded again changes nothing: ERRADDR keeps the first (R301). -/
theorem raiseError_idem (k : ErrorKind) (a : Addr) (s : State) :
    raiseError k true a (raiseError k true a s) = raiseError k true a s := by
  simp [raiseError, noDecodeError_setStatusBit_errorBit, setStatusBit_idem]

theorem setPend_idem (s : State) : setPend (setPend s) = setPend s := by
  simp [setPend, setStatusBit_idem]

theorem modify_modify_of_idem {f : Line → Line} (h : ∀ l, f (f l) = f l) (lines : List Line) (d : Nat) :
    (lines.modify d f).modify d f = lines.modify d f := by
  apply List.ext_getElem?
  intro k
  simp only [getElem?_modify_lines]
  split
  · cases lines[k]? <;> simp [h]
  · rfl

theorem commitAll_idem (s : State) : commitAll (commitAll s) = commitAll s := by
  have hcommit : commitLine ∘ commitLine = commitLine := rfl
  simp only [commitAll, List.map_map, hcommit, clearStatusBit_idem]

theorem resetBlock_idem (s : State) : resetBlock (resetBlock s) = resetBlock s := by
  have hconfig : (resetBlock s).config = s.config := (Effect.reset (s := s)).config
  rw [resetBlock, hconfig]
  rfl

/-- A line write run again leaves the state of the first, also where it is refused. -/
theorem lineWrite_idem (a : Addr) (d : LineIx) {update : Option (Line → Line)}
    (hupdate : ∀ f ∈ update, IsStagingUpdate f) (s : State) :
    lineWrite a d update (lineWrite a d update s) = lineWrite a d update s := by
  obtain ⟨f, rfl, hd, heq⟩ | ⟨rfl, hd, heq⟩ | ⟨hd, heq⟩ := lineWrite_cases a d update s <;> rw [heq]
  · have hd' : d.toNat < (setPend { s with lines := s.lines.modify d.toNat f }).lines.length := by simpa using hd
    refine (if_pos hd').trans ?_
    simp [setPend, setStatusBit_idem, modify_modify_of_idem (hupdate f rfl).idem]
  · have hd' : d.toNat < (raiseError .efield true a s).lines.length := hd
    exact (if_pos hd').trans (raiseError_idem .efield a s)
  · have hd' : ¬d.toNat < (raiseError .eaddr true a s).lines.length := Nat.not_lt.2 hd
    exact (if_neg hd').trans (raiseError_idem .eaddr a s)

end Sys2Proof.Machine

namespace Sys2Proof.Proofs

open Sys2Proof.Machine Sys2Proof.Claims

/-- Settles O16 (R121 to R136): only the word of STATUS is not the register itself. -/
theorem globalReadsReturnTheirRegister : Obligations.GlobalReadsReturnTheirRegister := fun s =>
  ⟨rfl, ⟨statusWord s.status, rfl, statusWord_getLsbD s.status⟩, rfl, rfl, rfl, rfl, rfl, rfl, rfl, rfl, rfl, rfl⟩

/-- Settles O17 (R143 to R160): one read after the other, all answered by the same line. -/
theorem lineReadsReturnTheirRegister : Obligations.LineReadsReturnTheirRegister := by
  intro s d l h
  have hread {i : Instr} {off : BitVec 5} (value : Line → Word)
      (hexec : exec i s = .next (readLineReg off d value s)) : Answers i s (value l) :=
    answers_of_readLineReg h hexec
  have hcfg {i : Instr} {off : BitVec 5} (cfg : Line → CfgFields)
      (hexec : exec i s = .next (readLineReg off d (fun l => cfgWord (cfg l)) s)) :
      Answers i s (BitVec.ofNat 32 (16 * interpCode (cfg l).interp + routeCode (cfg l).route)) :=
    cfgWord_eq (cfg l) ▸ hread _ hexec
  exact ⟨hread Line.baseStg rfl, hread Line.depthStg rfl, hread Line.freqStg rfl, hread Line.fbStg rfl,
    hread Line.levelStg rfl, hcfg Line.cfgStg rfl, hread Line.base rfl, hread Line.depth rfl, hread Line.freq rfl,
    hread Line.fb rfl, hread Line.level rfl, hcfg Line.cfg rfl, hread Line.phase rfl, hread (fun l => u32 l.wptr) rfl,
    hread Line.delay rfl, hread Line.lastrd rfl, hread (fun l => u32 l.cap) rfl, hread Line.maxd rfl⟩

/-- Settles O18 (R137 to R141). -/
theorem stagingWritesStoreTheirWord : Obligations.StagingWritesStoreTheirWord := by
  intro s d data l h
  have hwrite {i : Instr} {off : BitVec 5} (f : Line → Line) (hexec : exec i s = .next (writeLineReg off d f s)) :
      Stages i s d (f l) :=
    stages_of_some h fun hd => hexec.trans (congrArg _ (writeLineReg_of_lt hd))
  exact ⟨hwrite (fun l => { l with baseStg := data }) rfl, hwrite (fun l => { l with depthStg := data }) rfl,
    hwrite (fun l => { l with freqStg := data }) rfl, hwrite (fun l => { l with fbStg := data }) rfl,
    hwrite (fun l => { l with levelStg := data }) rfl⟩

/-- Settles O19 (R142, R45). -/
theorem cfgWriteStoresBothCodes : Obligations.CfgWriteStoresBothCodes := by
  intro s d data l h hroute hinterp
  have hr4 := dataRoute_lt data
  have hi4 := dataInterp_lt data
  obtain ⟨c, hc, hr, hi⟩ := cfgOfData_legal (data := data) (Nat.lt_of_le_of_ne (Nat.le_of_lt_succ hr4) hroute)
    (Nat.lt_of_le_of_ne (Nat.le_of_lt_succ hi4) hinterp)
  refine ⟨c, stages_of_some (f := fun l => { l with cfgStg := c }) h fun hd => ?_, cfgWord_of_codes hr hi⟩
  have hexec : exec (.wrCfgStg d data) s = execWrCfgStg d data s := rfl
  rw [hexec, execWrCfgStg_eq_lineWrite, hc]
  exact congrArg _ (if_pos hd)

/-- Settles O20 (R128, R130). -/
theorem sampleWritesStoreTheirWord : Obligations.SampleWritesStoreTheirWord := fun _ _ => ⟨rfl, rfl⟩

/-- Settles O25 (R58): the frames of the effects, and STEP and COMMIT by themselves. -/
theorem writeAccessMatrix : Obligations.WriteAccessMatrix := by
  intro i s t h
  have heffect := exec_effect h
  obtain ⟨hrst, hinputs⟩ := heffect.host
  refine ⟨heffect.config, hrst, hinputs, fun hstep hreset => ?_, heffect.active, ?_, ?_, ?_⟩
  · obtain ⟨hdatapath, houtL, houtR, hnonfin⟩ := heffect.datapath hstep hreset
    exact ⟨hdatapath, houtL, houtR, exec_frames_of_ne h hstep hreset, hnonfin⟩
  · rintro (rfl | rfl) <;> cases h
    · exact ⟨stepFrame_staging s, rfl, rfl, rfl, rfl, rfl⟩
    · exact ⟨commitAll_staging s, rfl, rfl, rfl, rfl, rfl⟩
  · rintro rfl
    cases h
    exact stepFrame_status_and s
  · rintro rfl
    cases h
    rfl

/-- Settles O26: the line writes together, and the commands and the global writes one by one. -/
theorem repeatedWritesAreIdempotent : Obligations.RepeatedWritesAreIdempotent := by
  intro i s t hwrite hstep h
  cases hline : i.line? with
  | some d =>
    obtain ⟨update, hupdate, -, hexec⟩ := exec_lineWrite hline hwrite
    rw [hexec] at h ⊢
    cases h
    rw [lineWrite_idem _ d hupdate]
  | none =>
    cases i with
    | step => exact absurd rfl hstep
    | nop | wrInL data | wrInR data => cases h; rfl
    | commit => cases h; exact congrArg Host.Outcome.next (commitAll_idem s)
    | reset => cases h; exact congrArg Host.Outcome.next (resetBlock_idem s)
    | wrStatus data => cases h; exact congrArg Host.Outcome.next (wrStatus_idem s data)
    | wrMixStg data => cases h; exact congrArg Host.Outcome.next (setPend_idem { s with mixStg := F32.clamp data F32.zero F32.one })
    | rdCmd | rdStatus | rdErraddr | rdFs | rdNlines | rdFrames | rdInL | rdInR | rdOutL | rdOutR | rdMixStg | rdMix =>
      rw [encode, encodeGlobalRead, txnWrite_packTxn] at hwrite; cases hwrite
    | _ => cases hline

/-- Settles O29 (R184, R57). -/
theorem resetGivesTheResetState : Obligations.ResetGivesTheResetState := by
  refine fun n s ignored => ⟨decode_packTxn_command n ignored 0x3#4, ?_⟩
  have hexec : exec .reset s = .next { resetBlock s with lines := (resetBlock s).lines } := rfl
  rw [hexec, resetBlock_lines_eq]
  rfl

end Sys2Proof.Proofs
end

section
/-!
The delay buffers (20_memory section 1, 43_delay_reader R225): a word read after a word write, how the words age over a
STEP, and the NaN that a STEP reads and writes back (70_reset section 2).
-/

namespace Sys2Proof.Machine

open Sys2Proof.Claims

/-! ### Words of a canonical buffer -/

/-- A word is its four bytes, low byte first. -/
theorem bytes_append (v : Word) :
    v.extractLsb' 24 8 ++ v.extractLsb' 16 8 ++ v.extractLsb' 8 8 ++ v.extractLsb' 0 8 = v := by
  apply BitVec.eq_of_getLsbD_eq
  intro i hi
  simp only [BitVec.getLsbD_append, BitVec.getLsbD_extractLsb']
  interval_cases i <;> simp

/-- A byte read after a word write: the word's own byte inside the word, and as before outside it. -/
theorem bufReadByte_bufWrite {m : Buffer} (h : Buffer.wf m) (j a : Nat) (v : Word) :
    bufReadByte (bufWrite m j v) a =
      if a = 4 * j + 3 then v.extractLsb' 24 8
      else if a = 4 * j + 2 then v.extractLsb' 16 8
      else if a = 4 * j + 1 then v.extractLsb' 8 8
      else if a = 4 * j then v.extractLsb' 0 8
      else bufReadByte m a := by
  have h0 := bufWriteByte_wf (4 * j) (v.extractLsb' 0 8) h
  have h1 := bufWriteByte_wf (4 * j + 1) (v.extractLsb' 8 8) h0
  have h2 := bufWriteByte_wf (4 * j + 2) (v.extractLsb' 16 8) h1
  rw [bufWrite, bufReadByte_bufWriteByte h2, bufReadByte_bufWriteByte h1, bufReadByte_bufWriteByte h0,
    bufReadByte_bufWriteByte h]

theorem bufRead_bufWrite_same {m : Buffer} (h : Buffer.wf m) (j : Nat) (v : Word) :
    bufRead (bufWrite m j v) j = v := by
  simp [bufRead, bufReadByte_bufWrite h, bytes_append]

theorem bufRead_bufWrite_of_ne {m : Buffer} (h : Buffer.wf m) {j k : Nat} (hne : k ≠ j) (v : Word) :
    bufRead (bufWrite m j v) k = bufRead m k := by
  have hbyte {b : Nat} (hb : b < 4) : bufReadByte (bufWrite m j v) (4 * k + b) = bufReadByte m (4 * k + b) := by
    rw [bufReadByte_bufWrite h, if_neg (by omega), if_neg (by omega), if_neg (by omega), if_neg (by omega)]
  have hlow := hbyte (b := 0) (by decide)
  rw [Nat.add_zero] at hlow
  rw [bufRead, hbyte (by decide), hbyte (by decide), hbyte (by decide), hlow, bufRead]

theorem bufRead_nil (j : Nat) : bufRead [] j = F32.zero := by
  simp only [bufRead, bufReadByte_nil]
  rfl

/-! ### The words k STEPs old -/

/-- What was k STEPs old is k + 1 STEPs old after a STEP, by the cursor's advance. -/
theorem bufIndex_stepLine (fs inL inR : Word) (l : Line) (k : Int) :
    bufIndex (stepLine fs inL inR l) (k + 1) = bufIndex l k := by
  have hcursor : (((l.wptr + 1) % l.cap : Nat) : Int) - (k + 1) = ((l.wptr : Int) + 1) % l.cap - (k + 1) := by
    push_cast; rfl
  rw [bufIndex, stepLine_wptr, stepLine_cap, nextCursor, hcursor, Int.emod_sub_emod, bufIndex]
  congr 2
  omega

/-- The words 1 to C_d − 1 STEPs old are other words than the one under the cursor. -/
theorem bufIndex_ne_zero {l : Line} {k : Int} (hlo : 1 ≤ k) (hhi : k < l.cap) : bufIndex l k ≠ bufIndex l 0 := by
  have hpos : (0 : Int) < l.cap := by omega
  have hk := Int.emod_nonneg ((l.wptr : Int) - k) hpos.ne'
  have h0 := Int.emod_nonneg ((l.wptr : Int) - 0) hpos.ne'
  intro heq
  have hmod : ((l.wptr : Int) - 0) % l.cap = ((l.wptr : Int) - k) % l.cap := by
    unfold bufIndex at heq; omega
  have hzero : k % (l.cap : Int) = 0 := by
    have h := Int.emod_eq_emod_iff_emod_sub_eq_zero.1 hmod
    rwa [show (l.wptr : Int) - 0 - (l.wptr - k) = k by omega] at h
  rw [Int.emod_eq_of_lt (by omega) hhi] at hzero
  omega

theorem bufIndex_cap (l : Line) : bufIndex l (l.cap : Int) = bufIndex l 0 := by
  rw [bufIndex, bufIndex, Int.sub_emod_right, Int.sub_zero]

/-- After a STEP the word 1 STEP old is the value written. -/
theorem old_stepLine_one {l : Line} (hbuf : Buffer.wf l.buf) (fs inL inR : Word) :
    old (stepLine fs inL inR l) 1 = written fs inL inR l := by
  have hindex : bufIndex (stepLine fs inL inR l) 1 = bufIndex l 0 := bufIndex_stepLine fs inL inR l 0
  rw [← bufBack_eq_old, bufBack, stepLine_buf, writeDelay, hindex, bufRead_bufWrite_same hbuf, stepWrite_eq_written]

/-- After a STEP every other word is one STEP older. -/
theorem old_stepLine_succ {l : Line} (hbuf : Buffer.wf l.buf) (fs inL inR : Word) {k : Int} (hlo : 1 ≤ k)
    (hhi : k < l.cap) : old (stepLine fs inL inR l) (k + 1) = old l k := by
  rw [← bufBack_eq_old, ← bufBack_eq_old, bufBack, bufBack, stepLine_buf, writeDelay, bufIndex_stepLine,
    bufRead_bufWrite_of_ne hbuf (bufIndex_ne_zero hlo hhi)]

theorem getElem?_stepFrame_lines {s : State} {d : Nat} {l m : Line} (hl : s.lines[d]? = some l)
    (hm : (stepFrame s).lines[d]? = some m) : m = stepLine s.fs s.inL s.inR l := by
  rw [stepFrame_lines, List.getElem?_map, hl] at hm
  exact (Option.some.inj hm).symm

/-! ### A NaN read and written back -/

/-- A NaN delayed sample makes the written value the default NaN, for every gain and input (R251). -/
theorem written_of_isNaN {fs inL inR : Word} {l : Line} (h : F32.isNaN (delayed l (samples fs l)) = true) :
    written fs inL inR l = F32.defaultNaN := by
  have hproduct : F32.isNaN (F32.mul l.fb (delayed l (samples fs l))) = true :=
    (F32.defaultNaNIff_mul _ _).isNaN_iff.2 (.inr (.inl h))
  have hsum := F32.defaultNaNIff_add (routed inL inR l) (F32.mul l.fb (delayed l (samples fs l)))
  rw [written]
  exact hsum.eq (hsum.isNaN_iff.2 (.inr (.inl hproduct)))

theorem stepFrame_nonfin_of_written {s : State} {l : Line} (hl : l ∈ s.lines)
    (h : F32.isFinite (written s.fs s.inL s.inR l) = false) : (stepFrame s).status.getLsbD nonfinBit = true := by
  have hset : (stepFrame s).status = setStatusBit nonfinBit s.status :=
    (stepFrame_status s).trans (if_pos (.inl ⟨l, hl, h⟩))
  rw [hset, setStatusBit_getLsbD (by decide)]
  simp

end Sys2Proof.Machine

namespace Sys2Proof.Proofs

open Sys2Proof.Machine Sys2Proof.Claims

/-- Settles O41 (R52, R75). -/
theorem bufferReadsBackItsWrites : Obligations.BufferReadsBackItsWrites := by
  intro m j k v h
  refine ⟨?_, bufWrite_wf j v h⟩
  split
  · next hk => rw [hk, bufRead_bufWrite_same h]
  · next hk => exact bufRead_bufWrite_of_ne h hk v

/-- Settles O42 (R225). -/
theorem bufferHoldsTheLastWrites : Obligations.BufferHoldsTheLastWrites := by
  intro s t d l m hinv hstep hl hm
  cases hstep
  obtain rfl := getElem?_stepFrame_lines hl hm
  obtain ⟨-, -, hwptr, -, hbuf, -⟩ := hinv
  refine ⟨old_stepLine_one hbuf .., fun k hlo hhi => old_stepLine_succ hbuf _ _ _ hlo hhi, ?_, ?_⟩
  · rw [← bufBack_eq_old, bufBack, bufIndex_zero hwptr]
  · rw [← bufBack_eq_old, ← bufBack_eq_old, bufBack, bufBack, bufIndex_cap]

/-- Settles O44 (R251, R254). -/
theorem nanIsWrittenBack : Obligations.NaNIsWrittenBack := by
  intro s t d l m hinv hstep hl hm hnan
  cases hstep
  obtain rfl := getElem?_stepFrame_lines hl hm
  obtain ⟨-, -, -, -, hbuf, -⟩ := hinv
  rw [stepLine_lastrd, stepRead_eq_delayed] at hnan
  have hwritten : written s.fs s.inL s.inR l = F32.defaultNaN := written_of_isNaN hnan
  refine ⟨(old_stepLine_one hbuf ..).trans hwritten, stepFrame_nonfin_of_written (List.mem_of_getElem? hl) ?_⟩
  rw [hwritten]
  decide

end Sys2Proof.Proofs
end

section
/-!
Whole frames: what a STEP makes of a line depends on that line only, staging writes commute with a STEP (20_memory
section 3, 41_commands section 2), runs of STEPs from reset, and the mixer's mean and dry output (45_mixer).
-/

namespace Sys2Proof.Machine

open Sys2Proof.Claims

/-! ### One line -/

/-- What a STEP makes of a line does not depend on its staging registers and its DELAY. -/
theorem datapath_stepLine_congr {l l' : Line} (fs inL inR : Word) (hconfig : l'.config = l.config)
    (hactive : active l' = active l) (hphase : l'.phase = l.phase) (hwptr : l'.wptr = l.wptr)
    (hlastrd : l'.lastrd = l.lastrd) (hbuf : l'.buf = l.buf) :
    datapath (stepLine fs inL inR l') = datapath (stepLine fs inL inR l) := by
  cases l
  cases l'
  simp only [Line.config, LineConfig.mk.injEq] at hconfig
  simp only [active, Prod.mk.injEq] at hactive
  obtain ⟨rfl, rfl⟩ := hconfig
  obtain ⟨rfl, rfl, rfl, rfl, rfl, rfl⟩ := hactive
  cases hphase; cases hwptr; cases hlastrd; cases hbuf
  rfl

/-! ### Staging writes and STEP -/

/-- Some written value or output of this STEP is not finite (R254). -/
def stepIsNonFinite (s : State) : Bool :=
  stepWritesNonFinite s || !F32.isFinite (stepFrame s).outL || !F32.isFinite (stepFrame s).outR

theorem stepFrame_status_eq (s : State) :
    (stepFrame s).status = if stepIsNonFinite s then setStatusBit nonfinBit s.status else s.status := rfl

theorem setStatusBit_comm (b b' : Nat) (status : Word) :
    setStatusBit b (setStatusBit b' status) = setStatusBit b' (setStatusBit b status) := by
  rw [setStatusBit, setStatusBit, setStatusBit, setStatusBit, BitVec.or_assoc, BitVec.or_assoc,
    BitVec.or_comm (bitWord b')]

/-- A STEP of a state with another bit of STATUS set sets that bit too. -/
theorem setStatusBit_stepFrame_status (b : Nat) (s : State) :
    setStatusBit b (stepFrame s).status =
      if stepIsNonFinite s then setStatusBit nonfinBit (setStatusBit b s.status) else setStatusBit b s.status := by
  rw [stepFrame_status_eq]
  split
  · exact setStatusBit_comm b nonfinBit s.status
  · rfl

theorem stepFrame_setPend (s : State) : stepFrame (setPend s) = setPend (stepFrame s) := by
  have hsetPend : setPend (stepFrame s) =
      { stepFrame s with status := setStatusBit pendBit (stepFrame s).status } := rfl
  rw [hsetPend, setStatusBit_stepFrame_status]
  rfl

/-- NONFIN is no decode error. -/
theorem noDecodeError_stepFrame (s : State) : noDecodeError (stepFrame s).status = noDecodeError s.status := by
  obtain hset | hkept := stepFrame_status_cases s
  · have hbit : bitWord nonfinBit &&& decodeErrorMask = 0#32 := by decide
    rw [hset, noDecodeError, setStatusBit, BitVec.and_or_distrib_right, hbit, BitVec.or_zero, noDecodeError]
  · rw [hkept]

theorem stepFrame_raiseError (k : ErrorKind) (write : Bool) (a : Addr) (s : State) :
    stepFrame (raiseError k write a s) = raiseError k write a (stepFrame s) := by
  have hraise : raiseError k write a (stepFrame s) = { stepFrame s with
      errAddr := if noDecodeError (stepFrame s).status then errAddrWord write a else s.errAddr
      status := setStatusBit (errorBit k) (stepFrame s).status
      returned := if write then s.returned else s.returned ++ [0x00000000#32] } := rfl
  rw [hraise, setStatusBit_stepFrame_status, noDecodeError_stepFrame]
  rfl

/-- The mixer does not read staging registers. -/
theorem mixLines_modify {f : Line → Line} (hf : IsStagingUpdate f) (lines : List Line) (d : Nat) :
    mixLines (lines.modify d f) = mixLines lines := by
  rw [← mixLines_clearLineStaging, map_modify_of_keeps hf.clear, mixLines_clearLineStaging]

theorem map_stepLine_modify {f : Line → Line} (hf : IsStagingUpdate f) (fs inL inR : Word) (lines : List Line)
    (d : Nat) : (lines.modify d f).map (stepLine fs inL inR) = (lines.map (stepLine fs inL inR)).modify d f := by
  apply List.ext_getElem?
  intro k
  rw [List.getElem?_map, getElem?_modify_lines, getElem?_modify_lines, List.getElem?_map]
  split
  · cases lines[k]? <;> simp [hf.comm]
  · rfl

theorem stepWritesNonFinite_modify {f : Line → Line} (hf : IsStagingUpdate f) (s : State) (d : Nat) :
    stepWritesNonFinite { s with lines := s.lines.modify d f } = stepWritesNonFinite s := by
  have hany (lines : List Line) :
      lines.any (fun l => !F32.isFinite (stepWrite s.fs s.inL s.inR l)) =
        (lines.map fun l => !F32.isFinite (stepWrite s.fs s.inL s.inR l)).any id := by
    rw [List.any_map]; rfl
  have hkeeps := hf.keeps (fun l => !F32.isFinite (stepWrite s.fs s.inL s.inR l)) fun _ => rfl
  simp only [stepWritesNonFinite]
  rw [hany, map_modify_of_keeps hkeeps, ← hany]

/-- The update of a line's staging registers and a STEP commute. -/
theorem stepFrame_modify {f : Line → Line} (hf : IsStagingUpdate f) (s : State) (d : Nat) :
    stepFrame { s with lines := s.lines.modify d f } =
      { stepFrame s with lines := (stepFrame s).lines.modify d f } := by
  rw [stepFrame, stepWritesNonFinite_modify hf]
  simp only [map_stepLine_modify hf, mixLines_modify hf]
  rfl

/-- A line write, refused ones included, and a STEP commute. -/
theorem stepFrame_lineWrite (a : Addr) (d : LineIx) {update : Option (Line → Line)}
    (hupdate : ∀ f ∈ update, IsStagingUpdate f) (s : State) :
    stepFrame (lineWrite a d update s) = lineWrite a d update (stepFrame s) := by
  have hlength : (stepFrame s).lines.length = s.lines.length := List.length_map ..
  obtain ⟨f, rfl, hd, heq⟩ | ⟨rfl, hd, heq⟩ | ⟨hd, heq⟩ := lineWrite_cases a d update s <;> rw [heq]
  · rw [stepFrame_setPend, stepFrame_modify (hupdate f rfl)]
    exact (if_pos (by rwa [hlength])).symm
  · rw [stepFrame_raiseError]
    exact (if_pos (by rwa [hlength])).symm
  · rw [stepFrame_raiseError]
    exact (if_neg (by rw [hlength]; exact Nat.not_lt.2 hd)).symm

/-! ### Runs of STEPs -/

theorem run_succ_of_next (M : Host.Core) {s s' : M.State} (h : M.step s = .next s') (k : Nat) :
    M.run (k + 1) s = M.run k s' := by
  rw [Host.Core.run, h]

theorem step_of_issued_step {s : State} {rest : List BusEvent}
    (hin : s.inputs = .transaction (encode .step) :: rest) (hrst : s.rst = false) :
    step s = .next (stepFrame (takeEvent rest s)) := by
  rw [step_of_released hin hrst, runTxn_of_op (s := takeEvent rest s) (decode_encode rfl)]
  rfl

/-- Every cursor of a block is j modulo its line's capacity. -/
def CursorsAt (j : Nat) (s : State) : Prop := ∀ l ∈ s.lines, l.wptr = j % l.cap

theorem cursorsAt_stepFrame {j : Nat} {s : State} (h : CursorsAt j s) : CursorsAt (j + 1) (stepFrame s) := by
  intro l hl
  obtain ⟨l, hmem, rfl⟩ := List.mem_map.1 hl
  rw [stepLine_wptr, stepLine_cap, nextCursor, h l hmem, Nat.mod_add_mod]

/-- A run of k issued STEPs counts FRAMES and moves every cursor on by k, and keeps the configuration. -/
theorem run_steps (k : Nat) {j : Nat} {s : State} (hrst : s.rst = false)
    (hin : s.inputs = List.replicate k (.transaction (encode .step))) (hcursors : CursorsAt j s) :
    ∃ t, Sys2Proof.core.run k s = .next t ∧ t.frames = s.frames + BitVec.ofNat 32 k ∧ t.config = s.config ∧
      CursorsAt (j + k) t := by
  induction k generalizing j s with
  | zero => exact ⟨s, rfl, (BitVec.add_zero _).symm, rfl, hcursors⟩
  | succ k ih =>
    have hstep := step_of_issued_step hin hrst
    obtain ⟨t, hrun, hframes, hconfig, hcursors'⟩ :=
      ih (s := stepFrame (takeEvent (List.replicate k (.transaction (encode .step))) s)) hrst rfl
        (cursorsAt_stepFrame (s := takeEvent _ s) hcursors)
    refine ⟨t, (run_succ_of_next Sys2Proof.core hstep k).trans hrun, ?_, hconfig.trans (step_config hstep), ?_⟩
    · rw [hframes, stepFrame_frames, takeEvent_frames, BitVec.add_assoc, BitVec.ofNat_add, BitVec.add_comm 1]
      rfl
    · rwa [Nat.add_right_comm] at hcursors'

/-! ### The mixer -/

/-- The active lines with the channel's own route, in order (R276). -/
def ownLines (own : Route) (lines : List Line) : List Line :=
  lines.filter (fun l => F32.gt l.level 0x00000000#32 && decide (l.cfg.route = own))

/-- With no active CENTER line a channel accumulates its own active lines only, and counts them. -/
theorem channel_eq_foldl (fs : Word) (own : Route) (lines : List Line)
    (h : ∀ l ∈ lines, Active l → l.cfg.route ≠ .center) (sum : Word) (k : Nat) :
    channel fs own lines (sum, k) =
      ((ownLines own lines).foldl (fun sum l => F32.add sum (contrib fs l)) sum, k + (ownLines own lines).length) := by
  induction lines generalizing sum k with
  | nil => rfl
  | cons l rest ih =>
    have hrest := ih fun l hl => h l (List.mem_cons_of_mem _ hl)
    have hcenter : ¬(F32.gt l.level 0x00000000#32 = true ∧ l.cfg.route = .center) :=
      fun ⟨hactive, hroute⟩ => h l List.mem_cons_self hactive hroute
    by_cases hown : F32.gt l.level 0x00000000#32 = true ∧ l.cfg.route = own
    · have hkeep : ownLines own (l :: rest) = l :: ownLines own rest := List.filter_cons_of_pos (by simpa using hown)
      rw [channel, if_pos hown, hrest, hkeep, List.foldl_cons, List.length_cons, Nat.add_right_comm, Nat.add_assoc]
    · have hdrop : ownLines own (l :: rest) = ownLines own rest := List.filter_cons_of_neg (by simpa using hown)
      rw [channel, if_neg hown, if_neg hcenter, hrest, hdrop]

/-- The wet value of a channel with no active CENTER line is the mean of its lines' contributions. -/
theorem wet_channel_eq_mean (fs : Word) (own : Route) {lines : List Line}
    (h : ∀ l ∈ lines, Active l → l.cfg.route ≠ .center) :
    wet (channel fs own lines (0x00000000#32, 0)) =
      if (ownLines own lines).length > 0 then
        F32.div (sumOf fs (ownLines own lines)) (F32.ofInt (ownLines own lines).length)
      else 0x00000000#32 := by
  rw [channel_eq_foldl fs own lines h, Nat.zero_add]
  rfl

/-! ### The block straight after reset -/

namespace F32

/-- A product with 1.0 is exact. -/
theorem mul_one_exact {a : Word} (ha : isFinite a = true) :
    isFinite (mul a one) = true ∧ key (mul a one) = key a := by
  have hunits : units one = 2 ^ 149 := by decide +kernel
  have hone : sign one = false := by decide
  obtain ⟨hfin, hround⟩ := unitsOf_roundMag_of_representable (den := 2 ^ 149) (by positivity) (representable_units ha)
  rw [mul_eq_round ha (by decide), hunits, hone]
  refine ⟨(isFinite_round _ _ _).2 hfin, ?_⟩
  rw [key_round, hround, key]
  simp

end F32

/-- A block fresh from reset with the two inputs given. -/
def resetWithInputs (c : Config) (inL inR : Word) : State := { State.atReset c with inL := inL, inR := inR }

theorem not_active_atReset (c : LineConfig) : ¬Active (Line.atReset c) := by
  have hzero : F32.gt (0x00000000#32) 0x00000000#32 = false := by decide
  simp [Active, hzero]

/-- A line fresh from reset reads +0.0, whatever the delay. -/
theorem delayed_atReset (c : LineConfig) (ds : Word) : delayed (Line.atReset c) ds = F32.zero :=
  bufRead_nil _

/-- A line fresh from reset writes a finite value when the left input is finite: its gain is +0.0, its route LEFT. -/
theorem isFinite_written_atReset (fs : Word) {inL : Word} (inR : Word) (c : LineConfig)
    (hL : F32.isFinite inL = true) : F32.isFinite (written fs inL inR (Line.atReset c)) = true := by
  have hproduct : F32.mul (Line.atReset c).fb F32.zero = F32.zero := by
    have hzero : F32.mul F32.zero F32.zero = F32.zero := by decide +kernel
    exact hzero
  have hrouted : routed inL inR (Line.atReset c) = inL := rfl
  rw [written, delayed_atReset, hproduct, hrouted]
  obtain ⟨hfin, -⟩ := F32.add_zero_exact hL (z := F32.zero) (by decide) F32.key_zero
  exact hfin

/-- Straight after reset no line is active, so both channels are silent. -/
theorem wet_resetWithInputs (c : Config) (inL inR fs : Word) (own : Route) :
    wet (channel fs own (resetWithInputs c inL inR).lines (0x00000000#32, 0)) = F32.zero := by
  have hinactive : ∀ l ∈ (resetWithInputs c inL inR).lines, ¬Active l := by
    intro l hl
    obtain ⟨cl, -, rfl⟩ := List.mem_map.1 hl
    exact not_active_atReset cl
  have hown : ownLines own (resetWithInputs c inL inR).lines = [] := by
    refine List.filter_eq_nil_iff.2 fun l hl hkeep => ?_
    obtain ⟨hactive, -⟩ := Bool.and_eq_true_iff.1 hkeep
    exact hinactive l hl hactive
  rw [wet_channel_eq_mean fs own fun l hl hactive => absurd hactive (hinactive l hl), hown]
  rfl

/-- Straight after reset MIX is +0.0, so a channel passes its input through. -/
theorem out_resetWithInputs (c : Config) (inL inR : Word) (own : Route) {dry : Word} (h : F32.isFinite dry = true) :
    F32.isFinite (out (resetWithInputs c inL inR) own dry) = true ∧
      F32.key (out (resetWithInputs c inL inR) own dry) = F32.key dry := by
  have hmix : (resetWithInputs c inL inR).mix = F32.zero := rfl
  have hdry : F32.sub 0x3F800000#32 F32.zero = F32.one := by decide +kernel
  have hzero : F32.mul F32.zero F32.zero = F32.zero := by decide +kernel
  rw [out, wet_resetWithInputs, hmix, hdry, hzero]
  obtain ⟨hfin, hkey⟩ := F32.mul_one_exact h
  obtain ⟨hfin', hkey'⟩ := F32.add_zero_exact hfin (z := F32.zero) (by decide) F32.key_zero
  exact ⟨hfin', hkey'.trans hkey⟩

/-- A STEP straight after reset with finite inputs writes and outputs finite values only. -/
theorem stepIsNonFinite_resetWithInputs (c : Config) {inL inR : Word} (hL : F32.isFinite inL = true)
    (hR : F32.isFinite inR = true) : stepIsNonFinite (resetWithInputs c inL inR) = false := by
  have hwrites : stepWritesNonFinite (resetWithInputs c inL inR) = false := by
    refine Bool.eq_false_iff.2 fun h => ?_
    obtain ⟨l, hl, hnonfin⟩ := (stepWritesNonFinite_iff _).1 h
    obtain ⟨cl, -, rfl⟩ := List.mem_map.1 hl
    have hfin := isFinite_written_atReset (resetWithInputs c inL inR).fs inR cl hL
    exact absurd (hfin.symm.trans hnonfin) (by decide)
  obtain ⟨hfinL, -⟩ := out_resetWithInputs c inL inR .left hL
  obtain ⟨hfinR, -⟩ := out_resetWithInputs c inL inR .right hR
  have houtL : (stepFrame (resetWithInputs c inL inR)).outL = out (resetWithInputs c inL inR) .left inL :=
    stepFrame_outL _
  have houtR : (stepFrame (resetWithInputs c inL inR)).outR = out (resetWithInputs c inL inR) .right inR :=
    stepFrame_outR _
  rw [stepIsNonFinite, hwrites, houtL, houtR, hfinL, hfinR]
  rfl

end Sys2Proof.Machine

namespace Sys2Proof.Proofs

open Sys2Proof.Machine Sys2Proof.Claims

/-- Settles O32 (R86). -/
theorem linesAreIndependent : Obligations.LinesAreIndependent := by
  intro s s' t t' d l l' m m' hfs hinL hinR hl hl' hconfig hactive hphase hwptr hlastrd hbuf hstep hstep' hm hm'
  cases hstep
  cases hstep'
  obtain rfl := getElem?_stepFrame_lines hl hm
  obtain rfl := getElem?_stepFrame_lines hl' hm'
  rw [hfs, hinL, hinR]
  exact ⟨datapath_stepLine_congr _ _ _ hconfig hactive hphase hwptr hlastrd hbuf, rfl, rfl, rfl⟩

/-- Settles O33. -/
theorem stagingWriteCommutesWithStep : Obligations.StagingWriteCommutesWithStep := by
  intro s t u t' u' i d hline hwrite h hu h' hu'
  obtain ⟨update, hupdate, -, hexec⟩ := exec_lineWrite hline hwrite
  rw [hexec] at h hu'
  cases h
  cases h'
  cases hu
  cases hu'
  exact stepFrame_lineWrite _ d hupdate s

/-- Settles O34 (R39, R252). -/
theorem cursorsAfterStepsFromReset : Obligations.CursorsAfterStepsFromReset := by
  intro c k
  have hcursors : CursorsAt 0 { State.atReset c with inputs := List.replicate k (.transaction (encode .step)) } := by
    intro l hl
    obtain ⟨cl, -, rfl⟩ := List.mem_map.1 hl
    rw [Nat.zero_mod]
    rfl
  obtain ⟨t, hrun, hframes, hconfig, hcursors'⟩ := run_steps k rfl rfl hcursors
  refine ⟨t, hrun, hframes.trans (BitVec.zero_add _), ?_, by rwa [Nat.zero_add] at hcursors'⟩
  have hlines : t.config.lines = c.lines := congrArg Config.lines (hconfig.trans (State.atReset_config c))
  exact hlines

/-- Settles O45 (R276). -/
theorem wetIsTheMeanOfActiveLines : Obligations.WetIsTheMeanOfActiveLines := by
  intro s t hstep hcenter on mean
  cases hstep
  have hmean (own : Route) : wet (channel s.fs own s.lines (0x00000000#32, 0)) = mean own :=
    wet_channel_eq_mean s.fs own hcenter
  rw [stepFrame_outL, stepFrame_outR, ← hmean, ← hmean]
  exact ⟨rfl, rfl⟩

/-- Settles O46 (R333). -/
theorem resetBlockPassesInputsDry : Obligations.ResetBlockPassesInputsDry := by
  intro c inL inR t hL hR hstep
  cases hstep
  obtain ⟨hfinL, hkeyL⟩ := out_resetWithInputs c inL inR .left hL
  obtain ⟨hfinR, hkeyR⟩ := out_resetWithInputs c inL inR .right hR
  have hstatus : (stepFrame (resetWithInputs c inL inR)).status = 0#32 := by
    rw [stepFrame_status_eq, stepIsNonFinite_resetWithInputs c hL hR]; rfl
  refine ⟨?_, ?_, hstatus⟩
  · rw [stepFrame_outL]
    exact F32.numEq_of_key_eq hfinL hL hkeyL
  · rw [stepFrame_outR]
    exact F32.numEq_of_key_eq hfinR hR hkeyR

end Sys2Proof.Proofs
end
